-- ==== Sys2Proof/Word.lean ====
section
/-! DEFINITION. The words of EDIDDEC: bytes, single bits, and the bit slice of rule R7. -/

namespace Sys2Proof

/-- A byte is 8 bits, bit 7 the most significant (R7). -/
abbrev Byte := BitVec 8

/-- A one-bit register or field. -/
abbrev Bit := BitVec 1

end Sys2Proof
end

