-- ==== Sys2Proof/Config.lean ====
section
/-! DEFINITION. What the spec leaves to the implementation: the parameters of rule R6 as plain data, and the
one source of free values. The recommended values of the parameters stand in Machine/Rom.lean. -/

namespace Sys2Proof.Config

/-- `NAME_POLICY` (R6, R146): which of several 0xFC (or 0xFF) descriptors is kept. -/
inductive NamePolicy where
  /-- each such block overwrites the slot -/
  | last
  /-- only the first such block of the input is stored -/
  | first
  deriving DecidableEq, Repr

/-- The named parameters of R6 that a register or a label of the block depends on. `LEN_MAX` is unbounded in the
model, `REGMAP` is none, `T_DECODE` is not modelled and `START_WHILE_BUSY` is a refusal (R6, R188, R191). -/
structure Params where
  /-- `NL_SET`: the bytes removed as newline characters from a monitor name (R142). -/
  nlSet : List Byte
  /-- `WS_SET`: the bytes trimmed as outer whitespace from a monitor name (R142). -/
  wsSet : List Byte
  /-- `NAME_POLICY` (R146). -/
  namePolicy : NamePolicy
  /-- `MFG_OOR` (R98): the letter codes of the six out-of-range fields 0, 27, 28, 29, 30, 31, in this order. -/
  mfgOor : Vector Byte 6
  /-- `ERR_CODE_INSUFFICIENT` (R161). -/
  errCodeInsufficient : Bit
  /-- `EST_NAME[0..16]` (R119): display strings of the established timing modes. -/
  estName : Vector String 17
  /-- `DISPLAY_TYPE_NAME[is_digital][0..3]` (R106): display strings of the colour-type enumeration. -/
  displayTypeName : Vector (Vector String 4) 2
  deriving DecidableEq, Repr

/-- UNVERIFIED. The free value of U9: what a host that reads a `REC.*` register while `STATUS = BUSY` gets. It
has no body: nothing can be proved of it. Log 10. -/
opaque freeRead : Nat → Nat

end Sys2Proof.Config
end

