-- ==== Sys2Proof/Syntax.lean ====
section
/-! DEFINITION. The operations of EDIDDEC (one constructor per row of spec/opcode_table.json, its operands the
fields of its format, R62 and R63), and the hardwired schedule that selects them (R60, R61). -/

namespace Sys2Proof

/-! ### The schedule -/

/-- The rows 0 to 31 of the schedule of R61. Row 10 is one row for two operations, chosen by `IN[20][7]`. -/
inductive Row where
  | lenchk | cksum
  | hdr | mfgid | prod | sernum | mweek | myear | ever | erev
  | vidin | hsize | vsize | gamma | feat
  | chroma
  | est1 | est2 | est3
  | stdt (k : Fin 8)
  | desc (k : Fin 4)
  | extc
  deriving DecidableEq, Repr

/-- The branch operations a DESC can select (R65): `geo` is the detailed timing branch, and `flg` its second
operation, which runs immediately after it (R134). -/
inductive Branch where
  | geo | flg | ser | name | range | skip
  deriving DecidableEq, Repr

/-- Where the sequencer stands: before a row of the schedule, before a branch operation of descriptor block `k`,
or before the end row of R61, which names no operation. -/
inductive Place where
  | row (r : Row)
  | branch (k : Fin 4) (b : Branch)
  | finish
  deriving DecidableEq, Repr

/-- How an operation is selected (R60, R72): by the schedule, or by the host through `CTRL`. -/
inductive Slot where
  | sched (p : Place)
  | ctl (v : BitVec 2)
  deriving DecidableEq, Repr

/-- The row number `n` of R61. -/
def Row.number : Row → Nat
  | .lenchk => 0 | .cksum => 1
  | .hdr => 2 | .mfgid => 3 | .prod => 4 | .sernum => 5 | .mweek => 6 | .myear => 7 | .ever => 8 | .erev => 9
  | .vidin => 10 | .hsize => 11 | .vsize => 12 | .gamma => 13 | .feat => 14
  | .chroma => 15
  | .est1 => 16 | .est2 => 17 | .est3 => 18
  | .stdt k => 19 + k.val
  | .desc k => 27 + k.val
  | .extc => 31

/-- The column "`cur` before" of R61: the offset of the first byte of the row's field group (R46). -/
def Row.offset : Row → Nat
  | .lenchk => 0 | .cksum => 0
  | .hdr => 0 | .mfgid => 8 | .prod => 10 | .sernum => 12 | .mweek => 16 | .myear => 17 | .ever => 18 | .erev => 19
  | .vidin => 20 | .hsize => 21 | .vsize => 22 | .gamma => 23 | .feat => 24
  | .chroma => 25
  | .est1 => 35 | .est2 => 36 | .est3 => 37
  | .stdt k => 38 + 2 * k.val
  | .desc k => 54 + 18 * k.val
  | .extc => 126

/-- The column "Size" of R61: by how much the row moves the cursor. -/
def Row.size : Row → Nat
  | .lenchk => 0 | .cksum => 0
  | .hdr => 8 | .mfgid => 2 | .prod => 2 | .sernum => 4 | .mweek => 1 | .myear => 1 | .ever => 1 | .erev => 1
  | .vidin => 1 | .hsize => 1 | .vsize => 1 | .gamma => 1 | .feat => 1
  | .chroma => 10
  | .est1 => 1 | .est2 => 1 | .est3 => 1
  | .stdt _ => 2
  | .desc _ => 18
  | .extc => 1

/-- The place after a row has run: the next row of R61, and the end row after EXTC. For a DESC it is the place
after its branch has run. -/
def Row.next : Row → Place
  | .lenchk => .row .cksum | .cksum => .row .hdr
  | .hdr => .row .mfgid | .mfgid => .row .prod | .prod => .row .sernum | .sernum => .row .mweek
  | .mweek => .row .myear | .myear => .row .ever | .ever => .row .erev | .erev => .row .vidin
  | .vidin => .row .hsize | .hsize => .row .vsize | .vsize => .row .gamma | .gamma => .row .feat
  | .feat => .row .chroma
  | .chroma => .row .est1
  | .est1 => .row .est2 | .est2 => .row .est3 | .est3 => .row (.stdt 0)
  | .stdt k => if h : k.val + 1 < 8 then .row (.stdt ⟨k.val + 1, h⟩) else .row (.desc 0)
  | .desc k => if h : k.val + 1 < 4 then .row (.desc ⟨k.val + 1, h⟩) else .row .extc
  | .extc => .finish

/-- The cursor while the sequencer stands at a place (R12, R61): during a branch operation it still holds the
offset of the block's first byte. -/
def Place.cursor : Place → Nat
  | .row r => r.offset
  | .branch k _ => (Row.desc k).offset
  | .finish => 127

/-- How far above the cursor the bytes of an operation's format begin: 17 for DTD.FLG, whose one byte is `D[17]`
(R134), and 0 for every other operation. -/
def Place.skip : Place → Nat
  | .branch _ .flg => 17
  | _ => 0

/-! ### The operations -/

/-- The fields of the format `DB.T`, bytes 0 to 16 (R62, R129): `Lo` and `Hi` are the low and the high part of one
reassembled field, the lower and the upper case letter of the pattern. -/
structure Geo where
  /-- `p`, `P`: pixel clock in units of 10 kHz -/
  pLo : Byte
  pHi : Byte
  /-- `a`, `A`: horizontal active -/
  aLo : Byte
  aHi : BitVec 4
  /-- `b`, `B`: horizontal blanking -/
  bLo : Byte
  bHi : BitVec 4
  /-- `c`, `C`: vertical active -/
  cLo : Byte
  cHi : BitVec 4
  /-- `d`, `D`: vertical blanking -/
  dLo : Byte
  dHi : BitVec 4
  /-- `e`, `E`: horizontal sync offset -/
  eLo : Byte
  eHi : BitVec 2
  /-- `f`, `F`: horizontal sync pulse width -/
  fLo : Byte
  fHi : BitVec 2
  /-- `g`, `G`: vertical sync offset -/
  gLo : BitVec 4
  gHi : BitVec 2
  /-- `h`, `H`: vertical sync pulse width -/
  hLo : BitVec 4
  hHi : BitVec 2
  /-- `i`, `I`: horizontal image size in mm -/
  iLo : Byte
  iHi : BitVec 4
  /-- `j`, `J`: vertical image size in mm -/
  jLo : Byte
  jHi : BitVec 4
  /-- `k`: horizontal border -/
  k : Byte
  /-- `l`: vertical border -/
  l : Byte
  deriving DecidableEq, Repr

/-- The fields of the format `CH10` (R62, R63): eight 2-bit lanes and the eight MSB bytes. -/
structure Chroma where
  rxLo : BitVec 2
  ryLo : BitVec 2
  gxLo : BitVec 2
  gyLo : BitVec 2
  bxLo : BitVec 2
  byLo : BitVec 2
  wxLo : BitVec 2
  wyLo : BitVec 2
  /-- `m` x 8: `IN[27]` to `IN[34]` -/
  m : Vector Byte 8
  deriving DecidableEq, Repr

/-- The 31 operations of spec/opcode_table.json. Every field of the operation's format is an operand, the ignored
bits `x` included, so that an instruction determines its bytes. `k` is the index of STDT and of the descriptor
operations (R71). -/
inductive Instr where
  /-- LENCHK, R80, format `CTL` -/
  | lenchk
  /-- CKSUM, R81, format `SUM128` -/
  | cksum (s : Vector Byte 128)
  /-- HDR, R90, format `RAW8` -/
  | hdr (h : Vector Byte 8)
  /-- MFGID, R91, format `PK16`: `xaaaaabb bbbccccc` -/
  | mfgid (x : Bit) (a b c : BitVec 5)
  /-- PROD, R92, format `LE16`: low byte, high byte -/
  | prod (lo hi : Byte)
  /-- SERNUM, R93, format `LE32`, `a` least significant -/
  | sernum (a b c d : Byte)
  /-- MWEEK, R94, format `U8` -/
  | mweek (v : Byte)
  /-- MYEAR, R95, format `U8` -/
  | myear (v : Byte)
  /-- EVER, R96, format `U8` -/
  | ever (v : Byte)
  /-- EREV, R97, format `U8` -/
  | erev (v : Byte)
  /-- VIDIN.D, R100, format `VI.D`: `1xxxxxxd` -/
  | vidinD (x : BitVec 6) (d : Bit)
  /-- VIDIN.A, R101, format `VI.A`: `0xxxxcgx` -/
  | vidinA (x : BitVec 4) (c g x0 : Bit)
  /-- HSIZE, R102, format `U8` -/
  | hsize (v : Byte)
  /-- VSIZE, R103, format `U8` -/
  | vsize (v : Byte)
  /-- GAMMA, R104, format `U8` -/
  | gamma (v : Byte)
  /-- FEAT, R105, format `FT`: `suattxxx` -/
  | feat (s u a : Bit) (t : BitVec 2) (x : BitVec 3)
  /-- CHROMA, R110, format `CH10` -/
  | chroma (c : Chroma)
  /-- EST1, R115, format `BM8` -/
  | est1 (v : Byte)
  /-- EST2, R116, format `BM8` -/
  | est2 (v : Byte)
  /-- EST3, R117, format `BM1`: `vxxxxxxx` -/
  | est3 (v : Bit) (x : BitVec 7)
  /-- STDT k, R120, format `ST2`: `wwwwwwww aarrrrrr` -/
  | stdt (k : Fin 8) (w : Byte) (a : BitVec 2) (r : BitVec 6)
  /-- DESC k, R125, the prefix common to the `DB.` formats: `D[0]`, `D[1]`, `D[2]`, `D[3]` and 14 more bytes -/
  | desc (k : Fin 4) (p0 p1 x2 t : Byte) (x : Vector Byte 14)
  /-- DTD.GEO k, R128, format `DB.T` bytes 0 to 16 -/
  | dtdGeo (k : Fin 4) (g : Geo)
  /-- DTD.FLG k, R134, format `DB.T` byte 17: `nsstturz` -/
  | dtdFlg (k : Fin 4) (n : Bit) (s t : BitVec 2) (u r z : Bit)
  /-- MSER k, R140, format `DB.S` -/
  | mser (k : Fin 4) (x2 x4 : Byte) (t : Vector Byte 13)
  /-- MNAME k, R141, format `DB.N` -/
  | mname (k : Fin 4) (x2 x4 : Byte) (t : Vector Byte 13)
  /-- MRL k, R143, format `DB.R` -/
  | mrl (k : Fin 4) (x2 x4 vmin vmax hmin hmax c : Byte) (x : Vector Byte 8)
  /-- DSKIP k, R144, format `DB.X` -/
  | dskip (k : Fin 4) (x2 y : Byte) (x : Vector Byte 14)
  /-- EXTC, R150, format `U8` -/
  | extc (v : Byte)
  /-- START, R151, selected by the host -/
  | start
  /-- RESET, R152, selected by the host -/
  | reset
  deriving DecidableEq, Repr

/-- The mnemonic of R71, as spec/opcode_table.json spells it. -/
def Instr.mnemonic : Instr → String
  | .lenchk => "LENCHK" | .cksum _ => "CKSUM"
  | .hdr _ => "HDR" | .mfgid _ _ _ _ => "MFGID" | .prod _ _ => "PROD" | .sernum _ _ _ _ => "SERNUM"
  | .mweek _ => "MWEEK" | .myear _ => "MYEAR" | .ever _ => "EVER" | .erev _ => "EREV"
  | .vidinD _ _ => "VIDIN.D" | .vidinA _ _ _ _ => "VIDIN.A"
  | .hsize _ => "HSIZE" | .vsize _ => "VSIZE" | .gamma _ => "GAMMA" | .feat _ _ _ _ _ => "FEAT"
  | .chroma _ => "CHROMA"
  | .est1 _ => "EST1" | .est2 _ => "EST2" | .est3 _ _ => "EST3"
  | .stdt _ _ _ _ => "STDT"
  | .desc _ _ _ _ _ _ => "DESC" | .dtdGeo _ _ => "DTD.GEO" | .dtdFlg _ _ _ _ _ _ _ => "DTD.FLG"
  | .mser _ _ _ _ => "MSER" | .mname _ _ _ _ => "MNAME" | .mrl _ _ _ _ _ _ _ _ _ => "MRL"
  | .dskip _ _ _ _ => "DSKIP"
  | .extc _ => "EXTC" | .start => "START" | .reset => "RESET"

/-! ### Pseudo-operations -/

/-- The pseudo-operations of R71. -/
inductive Pseudo where
  | decode | ident | basic | estt | stdall | descall | dtd (k : Fin 4)
  deriving DecidableEq, Repr

/-- The expansion of a pseudo-operation (R71): the places of the schedule it stands for. A DESC row stands for
the row and the branch it selects. -/
def Pseudo.places : Pseudo → List Place
  | .decode => [.row .lenchk, .row .cksum] ++ ident ++ basic ++ [.row .chroma] ++ estt ++ stdall ++ descall ++
      [.row .extc, .finish]
  | .ident => ident
  | .basic => basic
  | .estt => estt
  | .stdall => stdall
  | .descall => descall
  | .dtd k => [.branch k .geo, .branch k .flg]
where
  ident : List Place := [.row .hdr, .row .mfgid, .row .prod, .row .sernum, .row .mweek, .row .myear, .row .ever, .row .erev]
  basic : List Place := [.row .vidin, .row .hsize, .row .vsize, .row .gamma, .row .feat]
  estt : List Place := [.row .est1, .row .est2, .row .est3]
  stdall : List Place := (List.finRange 8).map fun k => .row (.stdt k)
  descall : List Place := (List.finRange 4).map fun k => .row (.desc k)

end Sys2Proof
end

