-- ==== Sys2Proof/WellFormed.lean ====
section
/-! DEFINITION. Which instructions the formats of R62 admit: where a format carries a side condition on its
fields, the instruction must meet it; every other condition is in the types. -/

namespace Sys2Proof

/-- The tags that select a retained monitor descriptor (R65): serial text, name text, range limits. -/
def retainedTags : List Byte := [0xFF#8, 0xFC#8, 0xFD#8]

/-- The side conditions of R62: `DB.T` is written "with (P ++ p) not 0" and `DB.X` "with y not in (0xFF, 0xFC,
0xFD)". -/
def Instr.wf : Instr → Bool
  | .dtdGeo _ g => g.pHi ++ g.pLo != 0#16
  | .dskip _ _ y _ => !retainedTags.contains y
  | .lenchk | .cksum _ | .hdr _ | .mfgid _ _ _ _ | .prod _ _ | .sernum _ _ _ _ | .mweek _ | .myear _ | .ever _
  | .erev _ | .vidinD _ _ | .vidinA _ _ _ _ | .hsize _ | .vsize _ | .gamma _ | .feat _ _ _ _ _ | .chroma _
  | .est1 _ | .est2 _ | .est3 _ _ | .stdt _ _ _ _ | .desc _ _ _ _ _ _ | .dtdFlg _ _ _ _ _ _ _ | .mser _ _ _ _
  | .mname _ _ _ _ | .mrl _ _ _ _ _ _ _ _ _ | .extc _ | .start | .reset => true

end Sys2Proof
end

