-- ==== Sys2Proof/Decode.lean ====
section
/-! DEFINITION. Decoding (R60 to R70): from a slot (a place of the schedule, or a host write of `CTRL`) and the
bytes that stand there to an operation with its fields, or to a rejection with a name; and the encoder, from the
same patterns of R62. A pattern is written most significant bit first, so a byte is a concatenation of its
fields; `extractLsb' lo n` is the slice `v[lo+n-1:lo]` of R7. -/

namespace Sys2Proof

/-- Why no operation is decoded. -/
inductive Reject where
  /-- Fewer bytes than the operation's format has. After LENCHK has passed this does not arise (R47). -/
  | tooFewBytes
  /-- The slot names no operation: the end row of R61, or a `CTRL` write with neither bit set (R11). -/
  | noOperation
  /-- The block's prefix word does not select the branch the sequencer stands at. Classifier and branch read the
  same snapshot, so this does not arise in a run (R52). -/
  | branchMismatch
  deriving DecidableEq, Repr

/-- The first `n` bytes as a fixed group, for the formats with a repeat count. -/
def withBytes (n : Nat) (bs : List Byte) (f : Vector Byte n → Instr) : Except Reject Instr :=
  if h : n ≤ bs.length then .ok (f ⟨(bs.take n).toArray, by simp [h]⟩) else .error .tooFewBytes

/-- The one byte of the formats `U8`, `VI.D`, `VI.A`, `FT`, `BM8`, `BM1` and of byte 17 of `DB.T`. -/
def oneByte (bs : List Byte) (f : Byte → Instr) : Except Reject Instr :=
  match bs with
  | v :: _ => .ok (f v)
  | [] => .error .tooFewBytes

/-- The prefix word `W = D[0] ++ D[1] ++ D[2] ++ D[3]` of a descriptor block (R65). -/
def prefixWord (d0 d1 d2 d3 : Byte) : BitVec 32 := d0 ++ d1 ++ d2 ++ d3

/-- The classifier of R65, as match and mask over the prefix word, in the rule's order. -/
def classify (w : BitVec 32) : Branch :=
  if w &&& 0xFFFF0000#32 ≠ 0#32 then .geo
  else if w &&& 0xFFFF00FF#32 = 0x000000FF#32 then .ser
  else if w &&& 0xFFFF00FF#32 = 0x000000FC#32 then .name
  else if w &&& 0xFFFF00FF#32 = 0x000000FD#32 then .range
  else .skip

/-- The operation of a schedule row on the bytes at its offset (R61, R62, R63). -/
def decodeRow (r : Row) (bs : List Byte) : Except Reject Instr :=
  match r with
  | .lenchk => .ok .lenchk
  | .cksum => withBytes 128 bs .cksum
  | .hdr => withBytes 8 bs .hdr
  | .mfgid =>
    match bs with
    | b0 :: b1 :: _ =>
      .ok (.mfgid (b0.extractLsb' 7 1) (b0.extractLsb' 2 5) (b0.extractLsb' 0 2 ++ b1.extractLsb' 5 3) (b1.extractLsb' 0 5))
    | _ => .error .tooFewBytes
  | .prod =>
    match bs with
    | lo :: hi :: _ => .ok (.prod lo hi)
    | _ => .error .tooFewBytes
  | .sernum =>
    match bs with
    | a :: b :: c :: d :: _ => .ok (.sernum a b c d)
    | _ => .error .tooFewBytes
  | .mweek => oneByte bs .mweek
  | .myear => oneByte bs .myear
  | .ever => oneByte bs .ever
  | .erev => oneByte bs .erev
  | .vidin => oneByte bs fun v =>
      if v.extractLsb' 7 1 = 1#1 then .vidinD (v.extractLsb' 1 6) (v.extractLsb' 0 1)
      else .vidinA (v.extractLsb' 3 4) (v.extractLsb' 2 1) (v.extractLsb' 1 1) (v.extractLsb' 0 1)
  | .hsize => oneByte bs .hsize
  | .vsize => oneByte bs .vsize
  | .gamma => oneByte bs .gamma
  | .feat => oneByte bs fun v =>
      .feat (v.extractLsb' 7 1) (v.extractLsb' 6 1) (v.extractLsb' 5 1) (v.extractLsb' 3 2) (v.extractLsb' 0 3)
  | .chroma =>
    match bs with
    | b0 :: b1 :: ms => withBytes 8 ms fun m =>
        .chroma { rxLo := b0.extractLsb' 6 2, ryLo := b0.extractLsb' 4 2, gxLo := b0.extractLsb' 2 2, gyLo := b0.extractLsb' 0 2,
                  bxLo := b1.extractLsb' 6 2, byLo := b1.extractLsb' 4 2, wxLo := b1.extractLsb' 2 2, wyLo := b1.extractLsb' 0 2,
                  m := m }
    | _ => .error .tooFewBytes
  | .est1 => oneByte bs .est1
  | .est2 => oneByte bs .est2
  | .est3 => oneByte bs fun v => .est3 (v.extractLsb' 7 1) (v.extractLsb' 0 7)
  | .stdt k =>
    match bs with
    | b1 :: b2 :: _ => .ok (.stdt k b1 (b2.extractLsb' 6 2) (b2.extractLsb' 0 6))
    | _ => .error .tooFewBytes
  | .desc k =>
    match bs with
    | p0 :: p1 :: x2 :: t :: x => withBytes 14 x (.desc k p0 p1 x2 t)
    | _ => .error .tooFewBytes
  | .extc => oneByte bs .extc

/-- The fields of the detailed timing geometry from the bytes `D[0]` to `D[16]` (R129). -/
def geoFields (bs : List Byte) : Option Geo :=
  match bs with
  | d0 :: d1 :: d2 :: d3 :: d4 :: d5 :: d6 :: d7 :: d8 :: d9 :: d10 :: d11 :: d12 :: d13 :: d14 :: d15 :: d16 :: _ =>
    some { pLo := d0, pHi := d1
           aLo := d2, aHi := d4.extractLsb' 4 4, bLo := d3, bHi := d4.extractLsb' 0 4
           cLo := d5, cHi := d7.extractLsb' 4 4, dLo := d6, dHi := d7.extractLsb' 0 4
           eLo := d8, eHi := d11.extractLsb' 6 2, fLo := d9, fHi := d11.extractLsb' 4 2
           gLo := d10.extractLsb' 4 4, gHi := d11.extractLsb' 2 2
           hLo := d10.extractLsb' 0 4, hHi := d11.extractLsb' 0 2
           iLo := d12, iHi := d14.extractLsb' 4 4, jLo := d13, jHi := d14.extractLsb' 0 4
           k := d15, l := d16 }
  | _ => none

/-- The bytes of a descriptor block whose prefix word selects the branch `b` (R65): `f` gets `D[2]`, `D[3]` and the
bytes from `D[4]` on. -/
def blockOf (b : Branch) (bs : List Byte) (f : Byte → Byte → List Byte → Except Reject Instr) : Except Reject Instr :=
  match bs with
  | d0 :: d1 :: d2 :: d3 :: rest =>
    if classify (prefixWord d0 d1 d2 d3) = b then f d2 d3 rest else .error .branchMismatch
  | _ => .error .tooFewBytes

/-- The branch operation of block `k` at which the sequencer stands (R62). The block's prefix word must select that
branch; DTD.FLG is the second operation of the detailed timing branch and reads `D[17]` alone (R134). -/
def decodeBranch (k : Fin 4) (b : Branch) (bs : List Byte) : Except Reject Instr :=
  match b with
  | .geo => blockOf .geo bs fun _ _ _ =>
      match geoFields bs with
      | some g => .ok (.dtdGeo k g)
      | none => .error .tooFewBytes
  | .flg => oneByte bs fun f =>
      .dtdFlg k (f.extractLsb' 7 1) (f.extractLsb' 5 2) (f.extractLsb' 3 2) (f.extractLsb' 2 1) (f.extractLsb' 1 1)
        (f.extractLsb' 0 1)
  | .ser => blockOf .ser bs fun x2 _ rest =>
      match rest with
      | x4 :: t => withBytes 13 t (.mser k x2 x4)
      | _ => .error .tooFewBytes
  | .name => blockOf .name bs fun x2 _ rest =>
      match rest with
      | x4 :: t => withBytes 13 t (.mname k x2 x4)
      | _ => .error .tooFewBytes
  | .range => blockOf .range bs fun x2 _ rest =>
      match rest with
      | x4 :: vmin :: vmax :: hmin :: hmax :: c :: x => withBytes 8 x (.mrl k x2 x4 vmin vmax hmin hmax c)
      | _ => .error .tooFewBytes
  | .skip => blockOf .skip bs fun x2 y rest => withBytes 14 rest (.dskip k x2 y)

/-- The decoder: total on every slot and every byte sequence. Bytes beyond the operation's format are not looked at.
RESET wins over a simultaneous START (R11, R152). -/
def decode (sl : Slot) (bs : List Byte) : Except Reject Instr :=
  match sl with
  | .sched (.row r) => decodeRow r bs
  | .sched (.branch k b) => decodeBranch k b bs
  | .sched .finish => .error .noOperation
  | .ctl v =>
    if v.getLsbD 1 then .ok .reset
    else if v.getLsbD 0 then .ok .start
    else .error .noOperation

/-! ### The encoder -/

/-- The bytes `D[0]` to `D[16]` of a detailed timing geometry (R62, R129). -/
def Geo.bytes (g : Geo) : List Byte :=
  [g.pLo, g.pHi, g.aLo, g.bLo, g.aHi ++ g.bHi, g.cLo, g.dLo, g.cHi ++ g.dHi, g.eLo, g.fLo, g.gLo ++ g.hLo,
   g.eHi ++ g.fHi ++ g.gHi ++ g.hHi, g.iLo, g.jLo, g.iHi ++ g.jHi, g.k, g.l]

/-- The bytes of an operation's format (R62), none for the format `CTL`. -/
def encode : Instr → List Byte
  | .lenchk => []
  | .cksum s => s.toList
  | .hdr h => h.toList
  | .mfgid x a b c => [x ++ a ++ b.extractLsb' 3 2, b.extractLsb' 0 3 ++ c]
  | .prod lo hi => [lo, hi]
  | .sernum a b c d => [a, b, c, d]
  | .mweek v => [v]
  | .myear v => [v]
  | .ever v => [v]
  | .erev v => [v]
  | .vidinD x d => [1#1 ++ x ++ d]
  | .vidinA x c g x0 => [0#1 ++ x ++ c ++ g ++ x0]
  | .hsize v => [v]
  | .vsize v => [v]
  | .gamma v => [v]
  | .feat s u a t x => [s ++ u ++ a ++ t ++ x]
  | .chroma c => [c.rxLo ++ c.ryLo ++ c.gxLo ++ c.gyLo, c.bxLo ++ c.byLo ++ c.wxLo ++ c.wyLo] ++ c.m.toList
  | .est1 v => [v]
  | .est2 v => [v]
  | .est3 v x => [v ++ x]
  | .stdt _ w a r => [w, a ++ r]
  | .desc _ p0 p1 x2 t x => [p0, p1, x2, t] ++ x.toList
  | .dtdGeo _ g => g.bytes
  | .dtdFlg _ n s t u r z => [n ++ s ++ t ++ u ++ r ++ z]
  | .mser _ x2 x4 t => [0x00, 0x00, x2, 0xFF, x4] ++ t.toList
  | .mname _ x2 x4 t => [0x00, 0x00, x2, 0xFC, x4] ++ t.toList
  | .mrl _ x2 x4 vmin vmax hmin hmax c x => [0x00, 0x00, x2, 0xFD, x4, vmin, vmax, hmin, hmax, c] ++ x.toList
  | .dskip _ x2 y x => [0x00, 0x00, x2, y] ++ x.toList
  | .extc v => [v]
  | .start => []
  | .reset => []

/-- The slot that selects an operation (R60, R61, R72). START and RESET are `CTRL` writes of 1 to one bit (R11). -/
def Instr.slot : Instr → Slot
  | .lenchk => .sched (.row .lenchk)
  | .cksum _ => .sched (.row .cksum)
  | .hdr _ => .sched (.row .hdr)
  | .mfgid _ _ _ _ => .sched (.row .mfgid)
  | .prod _ _ => .sched (.row .prod)
  | .sernum _ _ _ _ => .sched (.row .sernum)
  | .mweek _ => .sched (.row .mweek)
  | .myear _ => .sched (.row .myear)
  | .ever _ => .sched (.row .ever)
  | .erev _ => .sched (.row .erev)
  | .vidinD _ _ => .sched (.row .vidin)
  | .vidinA _ _ _ _ => .sched (.row .vidin)
  | .hsize _ => .sched (.row .hsize)
  | .vsize _ => .sched (.row .vsize)
  | .gamma _ => .sched (.row .gamma)
  | .feat _ _ _ _ _ => .sched (.row .feat)
  | .chroma _ => .sched (.row .chroma)
  | .est1 _ => .sched (.row .est1)
  | .est2 _ => .sched (.row .est2)
  | .est3 _ _ => .sched (.row .est3)
  | .stdt k _ _ _ => .sched (.row (.stdt k))
  | .desc k _ _ _ _ _ => .sched (.row (.desc k))
  | .dtdGeo k _ => .sched (.branch k .geo)
  | .dtdFlg k _ _ _ _ _ _ => .sched (.branch k .flg)
  | .mser k _ _ _ => .sched (.branch k .ser)
  | .mname k _ _ _ => .sched (.branch k .name)
  | .mrl k _ _ _ _ _ _ _ _ => .sched (.branch k .range)
  | .dskip k _ _ _ => .sched (.branch k .skip)
  | .extc _ => .sched (.row .extc)
  | .start => .ctl 0b01#2
  | .reset => .ctl 0b10#2

/-! ### Words as spec/opcode_table.json numbers them -/

/-- The bytes of an instruction that the opcode table gives as the number `w` of `nbits` bits. A word of 32 bits is
the prefix word `W` of R65, the word the table's match and mask are over: `D[0]` is its most significant byte. The
other bytes of the block are 0. A group of another length is numbered from its first byte up. Log 19. -/
def tableBytes (nbits w : Nat) : List Byte :=
  if nbits = 32 then
    let v := BitVec.ofNat 32 w
    [v.extractLsb' 24 8, v.extractLsb' 16 8, v.extractLsb' 8 8, v.extractLsb' 0 8] ++ List.replicate 14 0#8
  else (List.range (nbits / 8)).map fun j => BitVec.ofNat 8 (w / 2 ^ (8 * j))

/-- The slot at which a table word of `nbits` bits stands. Bits alone select an operation in two places (R60): the
video input byte (8 bits) and the prefix word of a descriptor block (32 bits, taken at block 0). The lengths 64, 80
and 1024 belong to one row each (HDR, CHROMA, CKSUM). The other rows are told apart by their place in the schedule
or by the host only, not by their bits. Log 19. -/
def tableSlot (nbits w : Nat) : Option Slot :=
  match nbits with
  | 8 => some (.sched (.row .vidin))
  | 32 => some (.sched (.branch 0 (classify (BitVec.ofNat 32 w))))
  | 64 => some (.sched (.row .hdr))
  | 80 => some (.sched (.row .chroma))
  | 1024 => some (.sched (.row .cksum))
  | _ => none

/-- The instruction the decoder reads from a word of the opcode table. -/
def decodeTableWord (nbits w : Nat) : Option Instr :=
  match tableSlot nbits w with
  | none => none
  | some sl =>
    match decode sl (tableBytes nbits w) with
    | .ok i => some i
    | .error _ => none

end Sys2Proof
end

