-- ==== Sys2Proof/Machine/State.lean ====
section
/-! DEFINITION. The state of one EDIDDEC instance (R10): control and status registers, the cursor, the record, the
latched input, and beside them the input space `IN` and the host's events, which are outside the block. -/

namespace Sys2Proof.Machine

/-! ### Control and status -/

/-- `STATUS` (R11). -/
inductive Status where
  /-- no decode since reset -/
  | idle
  /-- a decode is in progress -/
  | busy
  /-- the record is valid -/
  | done
  /-- the last decode raised an error -/
  | err
  deriving DecidableEq, Repr

/-- The code of `STATUS` (R11, R73). -/
def Status.code : Status → BitVec 2
  | .idle => 0 | .busy => 1 | .done => 2 | .err => 3

/-! ### The record -/

/-- An entry of the standard-timing file `REC.STD` (R19). -/
structure StdEntry where
  w : BitVec 12
  h : BitVec 11
  aspect : BitVec 2
  refresh : BitVec 7
  deriving DecidableEq, Repr

/-- An entry of the detailed-timing file `REC.DTD` (R20). -/
structure DtdEntry where
  pixclkKhz : BitVec 20
  hactive : BitVec 12
  hblank : BitVec 12
  vactive : BitVec 12
  vblank : BitVec 12
  hsyncOff : BitVec 10
  hsyncPw : BitVec 10
  vsyncOff : BitVec 6
  vsyncPw : BitVec 6
  hsizeMm : BitVec 12
  vsizeMm : BitVec 12
  hborder : Byte
  vborder : Byte
  interlaced : Bit
  stereo : BitVec 3
  syncType : BitVec 2
  vsyncPol : Bit
  hsyncPol : Bit
  deriving DecidableEq, Repr

/-- An entry of the range-limit file `REC.RNG` (R21). -/
structure RngEntry where
  vminHz : Byte
  vmaxHz : Byte
  hminKhz : Byte
  hmaxKhz : Byte
  maxclkMhz : BitVec 12
  deriving DecidableEq, Repr

/-- Every field 0 (R28). -/
def StdEntry.reset : StdEntry := { w := 0, h := 0, aspect := 0, refresh := 0 }

/-- Every field 0 (R28). -/
def DtdEntry.reset : DtdEntry :=
  { pixclkKhz := 0, hactive := 0, hblank := 0, vactive := 0, vblank := 0, hsyncOff := 0, hsyncPw := 0, vsyncOff := 0,
    vsyncPw := 0, hsizeMm := 0, vsizeMm := 0, hborder := 0, vborder := 0, interlaced := 0, stereo := 0, syncType := 0,
    vsyncPol := 0, hsyncPol := 0 }

/-- Every field 0 (R28). -/
def RngEntry.reset : RngEntry := { vminHz := 0, vmaxHz := 0, hminKhz := 0, hmaxKhz := 0, maxclkMhz := 0 }

/-- The record registers `REC.*` (R13 to R24). -/
structure Record where
  -- identity (R13)
  header : Vector Byte 8
  mfg : Vector Byte 3
  product : BitVec 16
  serial : BitVec 32
  week : Byte
  year : BitVec 12
  version : Byte
  revision : Byte
  -- signal (R14)
  isDigital : Bit
  dfp : Bit
  compositeSync : Bit
  syncOnGreen : Bit
  -- physical size and gamma (R15)
  hsizeCm : Byte
  vsizeCm : Byte
  gammaX100 : BitVec 9
  -- power and colour (R16)
  dpmsStandby : Bit
  dpmsSuspend : Bit
  dpmsActiveoff : Bit
  displayType : BitVec 2
  -- chromaticity (R17): `REC.RX`, `RY`, `GX`, `GY`, `BX`, `BY`, `WX`, `WY`
  redX : BitVec 10
  redY : BitVec 10
  greenX : BitVec 10
  greenY : BitVec 10
  blueX : BitVec 10
  blueY : BitVec 10
  whiteX : BitVec 10
  whiteY : BitVec 10
  -- established timings (R18): `EST_MASK[i]` is bit `i`
  estMask : BitVec 17
  -- standard timings (R19)
  std : Vector StdEntry 8
  -- detailed timings (R20)
  dtd : Vector DtdEntry 4
  dtdCount : BitVec 3
  -- range limits (R21)
  rng : Vector RngEntry 4
  rngCount : BitVec 3
  -- texts (R23)
  name : Vector Byte 13
  nameLen : BitVec 4
  sertxt : Vector Byte 13
  sertxtLen : BitVec 4
  -- trailing (R24)
  extCount : Byte
  checksumOk : Bit
  deriving DecidableEq, Repr

/-- The record after RESET and at the beginning of every decode (R28). -/
def Record.reset : Record :=
  { header := .replicate 8 0, mfg := .replicate 3 0, product := 0, serial := 0, week := 0, year := 0, version := 0,
    revision := 0, isDigital := 0, dfp := 0, compositeSync := 0, syncOnGreen := 0, hsizeCm := 0, vsizeCm := 0,
    gammaX100 := 0, dpmsStandby := 0, dpmsSuspend := 0, dpmsActiveoff := 0, displayType := 0, redX := 0, redY := 0,
    greenX := 0, greenY := 0, blueX := 0, blueY := 0, whiteX := 0, whiteY := 0, estMask := 0,
    std := .replicate 8 .reset, dtd := .replicate 4 .reset, dtdCount := 0, rng := .replicate 4 .reset, rngCount := 0,
    name := .replicate 13 0, nameLen := 0, sertxt := .replicate 13 0, sertxtLen := 0, extCount := 0, checksumOk := 0 }

/-! ### The host's side -/

/-- A field of an entry of `REC.STD`. -/
inductive StdField where
  | w | h | aspect | refresh
  deriving DecidableEq, Repr

/-- A field of an entry of `REC.DTD`. -/
inductive DtdField where
  | pixclkKhz | hactive | hblank | vactive | vblank | hsyncOff | hsyncPw | vsyncOff | vsyncPw | hsizeMm | vsizeMm
  | hborder | vborder | interlaced | stereo | syncType | vsyncPol | hsyncPol
  deriving DecidableEq, Repr

/-- A field of an entry of `REC.RNG`. -/
inductive RngField where
  | vminHz | vmaxHz | hminKhz | hmaxKhz | maxclkMhz
  deriving DecidableEq, Repr

/-- The record registers, by name (R27: the host may read every one). -/
inductive RecReg where
  | header (i : Fin 8) | mfg (i : Fin 3) | product | serial | week | year | version | revision
  | isDigital | dfp | compositeSync | syncOnGreen
  | hsizeCm | vsizeCm | gammaX100
  | dpmsStandby | dpmsSuspend | dpmsActiveoff | displayType
  | redX | redY | greenX | greenY | blueX | blueY | whiteX | whiteY
  | estMask
  | std (k : Fin 8) (f : StdField)
  | dtdCount | dtd (e : Fin 4) (f : DtdField)
  | rngCount | rng (e : Fin 4) (f : RngField)
  | name (j : Fin 13) | nameLen | sertxt (j : Fin 13) | sertxtLen
  | extCount | checksumOk
  deriving DecidableEq, Repr

/-- The registers a host can address, by name (R11, R27; no bus address is assigned, `REGMAP`). The cursor, the
snapshot and the latched length are not among them (R12, R26). -/
inductive HostReg where
  | ctrl | len | status | errCode | recValid
  | record (r : RecReg)
  deriving DecidableEq, Repr

/-- What a read returns: a register's width and its contents. `LEN` has no width in the model, given as 0. -/
structure Reading where
  width : Nat
  value : Nat
  deriving DecidableEq, Repr

/-- What the host does in one step (R27, R180, R182). Log 8. -/
inductive HostEvent where
  /-- nothing: the block runs one operation, or idles -/
  | wait
  /-- writes a byte of `IN` -/
  | writeIn (a : Nat) (b : Byte)
  /-- writes a register -/
  | write (r : HostReg) (v : Nat)
  /-- reads a register -/
  | read (r : HostReg)
  /-- asserts the reset input (R180 b) -/
  | assertReset
  deriving DecidableEq, Repr

/-- The input space `IN` (R40): the bytes the host wrote, by address, in the one canonical form `Memory.wf`. -/
abbrev Memory := List Host.Cell

/-! ### The state -/

/-- The state of one instance and of its surroundings. -/
structure State where
  /-- `CTRL` (R11): the bits written and not yet taken; the host reads 0. Log 11. -/
  ctrl : BitVec 2
  /-- `LEN` (R11). -/
  len : Nat
  /-- `STATUS` (R11). -/
  status : Status
  /-- `ERR_CODE` (R11, R161). -/
  errCode : Bit
  /-- `REC_VALID` (R11). -/
  recValid : Bit
  /-- `cur`, the cursor (R12). -/
  cur : BitVec 8
  /-- the record `REC.*` (R13 to R24) -/
  record : Record
  /-- the length latched at START (R26 c) -/
  lenLatched : Nat
  /-- the input snapshot taken at START, its byte `a` at index `a` (R26 b, R49) -/
  snap : List Byte
  /-- where the sequencer stands in the schedule (R61). The model's own field. Log 2. -/
  seq : Place
  /-- the input space `IN`, outside the block (R40) -/
  input : Memory
  /-- the host's events still to come, the next one first. The model's own field. Log 8. -/
  host : List HostEvent
  /-- what the host's last read returned. The model's own field. Log 10. -/
  readData : Reading
  /-- how many free values have been drawn (U9). The model's own field. Log 10. -/
  draws : Nat
  deriving DecidableEq, Repr

/-- The state right after RESET of a block whose host has written nothing (R28, R181). -/
def State.reset : State :=
  { ctrl := 0, len := 0, status := .idle, errCode := 0, recValid := 0, cur := 0, record := .reset, lenLatched := 0,
    snap := [], seq := .row .lenchk, input := [], host := [], readData := { width := 0, value := 0 }, draws := 0 }

/-! ### How a step can stop -/

/-- The faults. The block's one exception, InsufficientData, is none of them: it is a next state (R163). Each of
these is met only in states that no run from reset reaches. Log 18. -/
inductive Fault where
  /-- Raised by the sequencer when it cannot decode an operation at its place: the snapshot is shorter than the
  operation's field group, or the block does not select the branch the sequencer stands at. The spec excludes both
  (R47 "no read can be out of bounds", R52). Safe: the machine stops where the spec says it never comes. -/
  | fetchFailed (r : Reject)
  /-- Raised by DTD.GEO, DTD.FLG and MRL when the register file already holds four entries. The spec excludes it
  (R22 "neither file can overflow"). Safe, for the same reason. -/
  | fileFull
  deriving DecidableEq, Repr

/-- The refusals: what the host must not do (R186, R188), and an operation without a meaning. -/
inductive Refusal where
  /-- Raised by exec for an operation that has no meaning yet. Safe. -/
  | notModelled (mnemonic : String)
  /-- Raised by START while `STATUS = BUSY` (R188, U7: "a model refuses such a run"). Safe. -/
  | startWhileBusy
  /-- Raised by a host write that changes `LEN` or a byte of `IN[0..127]` while `STATUS = BUSY` (R186, U8). Safe. -/
  | inputChangedWhileBusy
  /-- Raised by a host write to a register other than `CTRL` and `LEN` (R27). Safe. -/
  | readOnlyRegister
  deriving DecidableEq, Repr

end Sys2Proof.Machine
end

