-- ==== Sys2Proof/Machine/Rom.lean ====
section
/-! DEFINITION. The constant lookup tables of R48, and the parameters of R6 at the values the spec recommends. -/

namespace Sys2Proof.Machine

/-- `ROM.ASPECT[0..3]` (R121): the ratios 16:10, 4:3, 5:4, 16:9 as (num, den). -/
def romAspect : Vector (Nat × Nat) 4 := #v[(16, 10), (4, 3), (5, 4), (16, 9)]

/-- `ROM.STEREO[s][z]` (R135): the stereo code for the field `s = D[17][6:5]` and the bit `z = D[17][0]`. -/
def romStereo : Vector (Vector (BitVec 3) 2) 4 := #v[#v[0, 0], #v[1, 3], #v[2, 4], #v[5, 6]]

/-- `ROM.EST_NAME[0..16]` (R119), the recommended value of `EST_NAME`: labels only, the mode is its index. Log 21. -/
def romEstName : Vector String 17 :=
  #v["720 x 400 @ 70 Hz", "720 x 400 @ 88 Hz", "640 x 480 @ 60 Hz", "640 x 480 @ 67 Hz", "640 x 480 @ 72 Hz",
     "640 x 480 @ 75 Hz", "800 x 600 @ 56 Hz", "800 x 600 @ 60 Hz", "800 x 600 @ 72 Hz", "800 x 600 @ 75 Hz",
     "832 x 624 @ 75 Hz", "1024 x 768 @ 87 Hz interlaced", "1024 x 768 @ 60 Hz", "1024 x 768 @ 70 Hz",
     "1024 x 768 @ 75 Hz", "1280 x 1024 @ 75 Hz", "1152 x 870 @ 75 Hz"]

/-- The eight display type names of R106, the recommended value of `DISPLAY_TYPE_NAME`, by `IS_DIGITAL` and then by
`DISPLAY_TYPE`: labels only, the variant is the pair. Log 21. -/
def romDisplayTypeName : Vector (Vector String 4) 2 :=
  #v[#v["monochrome or grayscale", "RGB colour", "non-RGB colour", "undefined"],
     #v["RGB 4:4:4", "RGB 4:4:4 + YCrCb 4:4:4", "RGB 4:4:4 + YCrCb 4:2:2", "RGB 4:4:4 + YCrCb 4:4:4 + YCrCb 4:2:2"]]

/-- The parameters of R6 at their recommended values: `NL_SET`, `WS_SET` (R142, D11, log 12), `NAME_POLICY` (R146,
D12, log 13), `MFG_OOR` (R98, D13, log 14), `ERR_CODE_INSUFFICIENT` (R161, D5) and the two label tables. -/
def params : Config.Params :=
  { nlSet := [0x0A#8]
    wsSet := [0x09#8, 0x0A#8, 0x0B#8, 0x0C#8, 0x0D#8, 0x20#8]
    namePolicy := .last
    mfgOor := #v[0x40#8, 0x5B#8, 0x5C#8, 0x5D#8, 0x5E#8, 0x5F#8]
    errCodeInsufficient := 1
    estName := romEstName
    displayTypeName := romDisplayTypeName }

end Sys2Proof.Machine
end

