-- ==== Sys2Proof/Machine/Operands.lean ====
section
/-! DEFINITION. The operand assembly patterns of R64 (copy needs none) and the computations the operations share.
All arithmetic is on natural numbers, exact, and narrowed once at the end (R7). -/

namespace Sys2Proof.Machine

/-! ### R64: offset, scale, little-endian join, split-field join -/

/-- The pattern "offset": `v + k`, at the width of the destination register. -/
def offsetBy {n : Nat} (w : Nat) (v : BitVec n) (k : Nat) : BitVec w := BitVec.ofNat w (v.toNat + k)

/-- The pattern "scale": `v * k`, at the width of the destination register. -/
def scaleBy {n : Nat} (w : Nat) (v : BitVec n) (k : Nat) : BitVec w := BitVec.ofNat w (v.toNat * k)

/-- The pattern "little-endian join" of two bytes, the lower address first: `MemRead(a, 2)` (R8, R42). -/
def le16 (b0 b1 : Byte) : BitVec 16 := b1 ++ b0

/-- The pattern "little-endian join" of four bytes, the lowest address first: `MemRead(a, 4)` (R8, R42). -/
def le32 (b0 b1 b2 b3 : Byte) : BitVec 32 := b3 ++ b2 ++ b1 ++ b0

/-- The pattern "split-field join": `(HIGH << n) | LOW` for an `n`-bit `LOW`. -/
def splitJoin {h n : Nat} (high : BitVec h) (low : BitVec n) : BitVec (h + n) := high ++ low

/-! ### Manufacturer letters -/

/-- The place of an out-of-range field among 0, 27, 28, 29, 30, 31 (R98). -/
def oorIndex (f : BitVec 5) : Fin 6 :=
  if h : 27 ≤ f.toNat then ⟨f.toNat - 26, by have := f.isLt; omega⟩ else 0

/-- The letter code of a 5-bit manufacturer field: `0x40 + f` for 1 to 26 (R91), the parameter `MFG_OOR` for the
other six values (R98). -/
def letter (p : Config.Params) (f : BitVec 5) : Byte :=
  if 1 ≤ f.toNat ∧ f.toNat ≤ 26 then BitVec.ofNat 8 (0x40 + f.toNat) else p.mfgOor[oorIndex f]

/-! ### Established timings -/

/-- `EST_MASK[i] <- v[7 - i]` for `i` in 0 to 7, the other bits kept (R115). -/
def estFirst (m : BitVec 17) (v : Byte) : BitVec 17 := m.extractLsb' 8 9 ++ v.reverse

/-- `EST_MASK[8 + i] <- v[7 - i]` for `i` in 0 to 7, the other bits kept (R116). -/
def estSecond (m : BitVec 17) (v : Byte) : BitVec 17 := m.extractLsb' 16 1 ++ v.reverse ++ m.extractLsb' 0 8

/-- `EST_MASK[16] <- v`, the other bits kept (R117). -/
def estThird (m : BitVec 17) (v : Bit) : BitVec 17 := v ++ m.extractLsb' 0 16

/-! ### Standard timings -/

/-- `W = (b1 + 31) * 8` (R120). -/
def stdWidth (b1 : Byte) : BitVec 12 := BitVec.ofNat 12 ((b1.toNat + 31) * 8)

/-- `H = (W * den) / num`, multiply first, then the truncating division (R120). -/
def stdHeight (w : BitVec 12) (a : BitVec 2) : BitVec 11 :=
  let r := romAspect[a.toNat]'a.isLt
  BitVec.ofNat 11 (w.toNat * r.2 / r.1)

/-- A standard-timing entry from its three fields (R120). -/
def stdEntry (w : Byte) (a : BitVec 2) (r : BitVec 6) : StdEntry :=
  { w := stdWidth w, h := stdHeight (stdWidth w) a, aspect := a, refresh := offsetBy 7 r 60 }

/-! ### Detailed timings and range limits -/

/-- The thirteen geometry fields of an entry (R128); its five flag fields are left as they are. -/
def geometry (g : Geo) (e : DtdEntry) : DtdEntry :=
  { e with
    pixclkKhz := scaleBy 20 (le16 g.pLo g.pHi) 10
    hactive := splitJoin g.aHi g.aLo
    hblank := splitJoin g.bHi g.bLo
    vactive := splitJoin g.cHi g.cLo
    vblank := splitJoin g.dHi g.dLo
    hsyncOff := splitJoin g.eHi g.eLo
    hsyncPw := splitJoin g.fHi g.fLo
    vsyncOff := splitJoin g.gHi g.gLo
    vsyncPw := splitJoin g.hHi g.hLo
    hsizeMm := splitJoin g.iHi g.iLo
    vsizeMm := splitJoin g.jHi g.jLo
    hborder := g.k
    vborder := g.l }

/-- A range-limit entry from its five bytes (R143). -/
def rngEntry (vmin vmax hmin hmax c : Byte) : RngEntry :=
  { vminHz := vmin, vmaxHz := vmax, hminKhz := hmin, hmaxKhz := hmax, maxclkMhz := scaleBy 12 c 10 }

/-! ### Texts -/

/-- Drops the elements of `set` at the front. -/
def trimFront (set : List Byte) : List Byte → List Byte
  | [] => []
  | c :: t => if c ∈ set then trimFront set t else c :: t

/-- `STRIP_TRIM` (R142): remove every newline byte, then trim whitespace in front, then at the end. -/
def stripTrim (p : Config.Params) (t : List Byte) : List Byte :=
  let stripped := t.filter fun c => !p.nlSet.contains c
  (trimFront p.wsSet (trimFront p.wsSet stripped).reverse).reverse

/-- A text of at most 13 bytes in a text register: the bytes at or above its length are 0 (R23). -/
def textReg (t : List Byte) : Vector Byte 13 := Vector.ofFn fun j => t.getD j.val 0

end Sys2Proof.Machine
end

