-- ==== Sys2Proof/Machine/Flags.lean ====
section
/-! DEFINITION. The computations of the predicates of R25 and of the flags byte of a detailed timing. -/

namespace Sys2Proof.Machine

/-- The 8-bit accumulator of CKSUM (R81): the sum of the bytes modulo 256. -/
def byteSum (bs : List Byte) : Byte := bs.foldl (fun s b => s + b) 0

/-- `REC.CHECKSUM_OK` (R81): 1 if and only if the 128 bytes sum to 0 modulo 256. -/
def checksumFlag (bs : List Byte) : Bit := if byteSum bs = 0 then 1 else 0

/-- `STEREO` (R135): `ROM.STEREO[s][z]`. -/
def stereoCode (s : BitVec 2) (z : Bit) : BitVec 3 := (romStereo[s.toNat]'s.isLt)[z.toNat]'z.isLt

/-- A sync polarity (R137): the bit itself for the sync type digital separate (3), else 0. -/
def polarity (syncType : BitVec 2) (b : Bit) : Bit := if syncType = 3 then b else 0

/-- The five flag fields of a detailed-timing entry from the byte `nsstturz` (R134); its geometry is left as it is. -/
def timingFlags (n : Bit) (s t : BitVec 2) (u r z : Bit) (e : DtdEntry) : DtdEntry :=
  { e with
    interlaced := n
    stereo := stereoCode s z
    syncType := t
    vsyncPol := polarity t u
    hsyncPol := polarity t r }

end Sys2Proof.Machine
end

