-- ==== Sys2Proof/Machine/Memory.lean ====
section
/-! DEFINITION. The input space `IN` (R40) as a sorted list of the bytes that differ from what an unlisted address
reads as. Only the host writes it (R41). -/

namespace Sys2Proof.Machine

/-- What an address of `IN` that the host never wrote reads as. DESIGN CHOICE: the spec gives the contents of `IN` no
value. Log 7. -/
def Memory.unlisted : Byte := 0x00#8

/-- The canonical form: addresses strictly rising, and no entry equal to what an unlisted address reads as. -/
def Memory.wf : Memory → Bool
  | [] => true
  | (a, b) :: m => b != Memory.unlisted && m.all (fun c => decide (a < c.1)) && Memory.wf m

/-- The byte at address `a`. -/
def Memory.read : Memory → Nat → Byte
  | [], _ => Memory.unlisted
  | (x, c) :: m, a => if x = a then c else Memory.read m a

/-- The host writes the byte `b` at address `a`. The canonical form is kept: writing the unlisted value removes the
entry. -/
def Memory.write : Memory → Nat → Byte → Memory
  | [], a, b => if b = Memory.unlisted then [] else [(a, b)]
  | (x, c) :: m, a, b =>
    if a < x then (if b = Memory.unlisted then (x, c) :: m else (a, b) :: (x, c) :: m)
    else if a = x then (if b = Memory.unlisted then m else (a, b) :: m)
    else (x, c) :: Memory.write m a b

/-- The first `n` bytes of `IN`, address 0 first. -/
def Memory.bytes (m : Memory) (n : Nat) : List Byte := (List.range n).map m.read

end Sys2Proof.Machine
end

