-- ==== Sys2Proof/Machine/Ops.lean ====
section
/-! DEFINITION. The operations that the meanings share: moving the cursor along the schedule, the trap entry, taking
the input at START, the end of a decode, and the register files. -/

namespace Sys2Proof.Machine

/-- What a meaning answers. -/
abbrev Result := Host.Outcome State Fault Refusal

/-! ### The cursor and the schedule (R12, R61) -/

/-- The end of a row: the cursor takes the value the row's rule gives it, and the sequencer stands at the row's
successor. -/
def State.endRow (s : State) (r : Row) (c : BitVec 8) : State := { s with cur := c, seq := r.next }

/-- The end of descriptor block `k`, run by the last branch operation that DESC `k` selected: the last line of R125,
`cur <- cur + 18` in every branch. Log 3. -/
def State.endBlock (s : State) (k : Fin 4) : State := s.endRow (.desc k) (s.cur + 18)

/-- The end row of R61 and the last lines of R153: byte 127 belongs to CKSUM alone, the record is valid. The
sequencer returns to its row 0 (R181). -/
def State.finishDecode (s : State) : State :=
  { s with cur := 128, status := .done, recValid := 1, seq := .row .lenchk }

/-! ### The exception (R163) -/

/-- `raise InsufficientData`: the trap entry of R163. Nothing is saved and control goes nowhere; the record keeps the
reset value START gave it. There is no return (R168): START or RESET leaves `ERR`. -/
def State.raiseInsufficientData (s : State) (p : Config.Params) : State :=
  { s with status := .err, errCode := p.errCodeInsufficient, recValid := 0, cur := 0, seq := .row .lenchk }

/-! ### Taking the input (R49, R151) -/

/-- START's latch: `LEN`, and the first `min(LEN, 128)` bytes of `IN`. -/
def State.latchInput (s : State) : State :=
  { s with lenLatched := s.len, snap := s.input.bytes (min s.len 128) }

/-- What START does before the first operation runs (R151): latch, every record register to its reset value, the
status registers, the cursor. `CTRL` clears itself (R11). -/
def State.beginDecode (s : State) : State :=
  { s.latchInput with
    ctrl := 0, record := .reset, errCode := 0, recValid := 0, cur := 0, status := .busy, seq := .row .lenchk }

/-- Every register of 10_state.md to its reset value (R28, R152). `IN` is not part of the block (R181), nor are the
host's events and what the host has read. -/
def State.resetRegisters (s : State) : State :=
  { State.reset with input := s.input, host := s.host, readData := s.readData, draws := s.draws }

/-! ### The register files (R20 to R22) -/

/-- The entry at index `count` of a register file of four: a fault if there is none. Log 18. -/
def atEntry (count : BitVec 3) (f : Fin 4 → Result) : Result :=
  if h : count.toNat < 4 then f ⟨count.toNat, h⟩ else .fault .fileFull

/-- Rewrites entry `e` of `REC.DTD`. -/
def Record.updateDtd (r : Record) (e : Fin 4) (f : DtdEntry → DtdEntry) : Record :=
  { r with dtd := r.dtd.set e (f r.dtd[e]) }

/-! ### The text slots (R146) -/

/-- The branch that block `k` of an input selects. -/
def branchAt (snap : List Byte) (k : Nat) : Branch :=
  let d j := snap.getD (54 + 18 * k + j) 0
  classify (prefixWord (d 0) (d 1) (d 2) (d 3))

/-- `NAME_POLICY` (R146): whether block `k` leaves its text slot as it is, because the policy keeps the first
descriptor and an earlier block has the same kind. Never under the recommended policy `last`. Log 13. -/
def keepsEarlier (p : Config.Params) (s : State) (k : Fin 4) (b : Branch) : Bool :=
  p.namePolicy == .first && (List.range k.val).any fun j => branchAt s.snap j == b

end Sys2Proof.Machine
end

