-- ==== Sys2Proof/Machine/BasicDisplay.lean ====
section
/-! DEFINITION. The basic display operations VIDIN.D, VIDIN.A, HSIZE, VSIZE, GAMMA, FEAT (42_basic_display.md). -/

namespace Sys2Proof.Machine

/-- VIDIN.D (R100): the analog-only registers are forced to 0. -/
def execVidinD (_x : BitVec 6) (d : Bit) (s : State) : Result :=
  .next ({ s with record := { s.record with isDigital := 1, dfp := d, compositeSync := 0, syncOnGreen := 0 } }.endRow .vidin 21)

/-- VIDIN.A (R101): the digital-only register is forced to 0. -/
def execVidinA (_x : BitVec 4) (c g _x0 : Bit) (s : State) : Result :=
  .next ({ s with record := { s.record with isDigital := 0, syncOnGreen := g, compositeSync := c, dfp := 0 } }.endRow .vidin 21)

/-- HSIZE (R102). -/
def execHsize (v : Byte) (s : State) : Result :=
  .next ({ s with record := { s.record with hsizeCm := v } }.endRow .hsize 22)

/-- VSIZE (R103). -/
def execVsize (v : Byte) (s : State) : Result :=
  .next ({ s with record := { s.record with vsizeCm := v } }.endRow .vsize 23)

/-- GAMMA (R104): the exact numerator, byte + 100. -/
def execGamma (v : Byte) (s : State) : Result :=
  .next ({ s with record := { s.record with gammaX100 := offsetBy 9 v 100 } }.endRow .gamma 24)

/-- FEAT (R105): the display type is stored raw, whatever `IS_DIGITAL` is. -/
def execFeat (sb u a : Bit) (t : BitVec 2) (_x : BitVec 3) (s : State) : Result :=
  .next ({ s with record := { s.record with dpmsStandby := sb, dpmsSuspend := u, dpmsActiveoff := a, displayType := t } }.endRow
    .feat 25)

end Sys2Proof.Machine
end

