-- ==== Sys2Proof/Machine/Chromaticity.lean ====
section
/-! DEFINITION. The chromaticity operation CHROMA (43_chromaticity.md). -/

namespace Sys2Proof.Machine

/-- CHROMA (R110, R111): each register is `(IN[M[i]] << 2) | lo`. -/
def execChroma (c : Chroma) (s : State) : Result :=
  .next ({ s with
    record := { s.record with
      redX := splitJoin c.m[0] c.rxLo
      redY := splitJoin c.m[1] c.ryLo
      greenX := splitJoin c.m[2] c.gxLo
      greenY := splitJoin c.m[3] c.gyLo
      blueX := splitJoin c.m[4] c.bxLo
      blueY := splitJoin c.m[5] c.byLo
      whiteX := splitJoin c.m[6] c.wxLo
      whiteY := splitJoin c.m[7] c.wyLo } }.endRow .chroma 35)

end Sys2Proof.Machine
end

