-- ==== Sys2Proof/Machine/Control.lean ====
section
/-! DEFINITION. The operations EXTC, START, RESET (47_extension_and_control.md). -/

namespace Sys2Proof.Machine

/-- EXTC (R150): recorded and never acted on. -/
def execExtc (v : Byte) (s : State) : Result :=
  .next ({ s with record := { s.record with extCount := v } }.endRow .extc 127)

/-- START (R151): legal from `IDLE`, `DONE` and `ERR`; the schedule runs in the steps that follow (log 1). While
`BUSY` it is refused (R188). -/
def execStart (s : State) : Result :=
  if s.status = .busy then .refused .startWhileBusy else .next s.beginDecode

/-- RESET (R152, R181, R189). -/
def execReset (s : State) : Result := .next s.resetRegisters

end Sys2Proof.Machine
end

