-- ==== Sys2Proof/Machine/Descriptors.lean ====
section
/-! DEFINITION. The descriptor operations DESC, DTD.GEO, DTD.FLG, MSER, MNAME, MRL, DSKIP (46_descriptors.md). DESC
selects a branch, which runs in the following one or two steps; the last operation of the branch ends the block. -/

namespace Sys2Proof.Machine

/-- The choice of R125: the pixel clock first, the tag only when it is zero. -/
def descBranch (p0 p1 t : Byte) : Branch :=
  if le16 p0 p1 ≠ 0 then .geo
  else if t = 0xFF then .ser
  else if t = 0xFC then .name
  else if t = 0xFD then .range
  else .skip

/-- DESC k (R125): writes no register, runs one branch. -/
def execDesc (k : Fin 4) (p0 p1 _x2 t : Byte) (_x : Vector Byte 14) (s : State) : Result :=
  .next { s with seq := .branch k (descBranch p0 p1 t) }

/-- DTD.GEO k (R128): the geometry of the new entry; DTD.FLG of the same block follows. -/
def execDtdGeo (k : Fin 4) (g : Geo) (s : State) : Result :=
  atEntry s.record.dtdCount fun e =>
    .next { s with record := s.record.updateDtd e (geometry g), seq := .branch k .flg }

/-- DTD.FLG k (R134): the flags of the entry DTD.GEO just filled, and the count. -/
def execDtdFlg (k : Fin 4) (n : Bit) (sf t : BitVec 2) (u r z : Bit) (s : State) : Result :=
  atEntry s.record.dtdCount fun e =>
    .next ({ s with
      record := { s.record.updateDtd e (timingFlags n sf t u r z) with dtdCount := s.record.dtdCount + 1 } }.endBlock k)

/-- MSER k (R140, R146) under given parameters: the text as it is. -/
def mserWith (p : Config.Params) (k : Fin 4) (t : Vector Byte 13) (s : State) : Result :=
  if keepsEarlier p s k .ser then .next (s.endBlock k)
  else .next ({ s with record := { s.record with sertxt := t, sertxtLen := 13 } }.endBlock k)

/-- MSER k (R140). -/
def execMser (k : Fin 4) (_x2 _x4 : Byte) (t : Vector Byte 13) (s : State) : Result := mserWith params k t s

/-- MNAME k (R141, R142, R146) under given parameters. -/
def mnameWith (p : Config.Params) (k : Fin 4) (t : Vector Byte 13) (s : State) : Result :=
  if keepsEarlier p s k .name then .next (s.endBlock k)
  else
    let n := stripTrim p t.toList
    .next ({ s with record := { s.record with name := textReg n, nameLen := BitVec.ofNat 4 n.length } }.endBlock k)

/-- MNAME k (R141). -/
def execMname (k : Fin 4) (_x2 _x4 : Byte) (t : Vector Byte 13) (s : State) : Result := mnameWith params k t s

/-- MRL k (R143): a new range-limit entry, and the count. -/
def execMrl (k : Fin 4) (_x2 _x4 vmin vmax hmin hmax c : Byte) (_x : Vector Byte 8) (s : State) : Result :=
  atEntry s.record.rngCount fun e =>
    .next ({ s with
      record := { s.record with
        rng := s.record.rng.set e (rngEntry vmin vmax hmin hmax c), rngCount := s.record.rngCount + 1 } }.endBlock k)

/-- DSKIP k (R144): no record register changes. -/
def execDskip (k : Fin 4) (_x2 _y : Byte) (_x : Vector Byte 14) (s : State) : Result := .next (s.endBlock k)

end Sys2Proof.Machine
end

