-- ==== Sys2Proof/Machine/Established.lean ====
section
/-! DEFINITION. The established-timing operations EST1, EST2, EST3 (44_established_timings.md). -/

namespace Sys2Proof.Machine

/-- EST1 (R115). -/
def execEst1 (v : Byte) (s : State) : Result :=
  .next ({ s with record := { s.record with estMask := estFirst s.record.estMask v } }.endRow .est1 36)

/-- EST2 (R116). -/
def execEst2 (v : Byte) (s : State) : Result :=
  .next ({ s with record := { s.record with estMask := estSecond s.record.estMask v } }.endRow .est2 37)

/-- EST3 (R117): bits 6..0 of the byte are ignored. -/
def execEst3 (v : Bit) (_x : BitVec 7) (s : State) : Result :=
  .next ({ s with record := { s.record with estMask := estThird s.record.estMask v } }.endRow .est3 38)

end Sys2Proof.Machine
end

