-- ==== Sys2Proof/Machine/Identity.lean ====
section
/-! DEFINITION. The identity operations HDR, MFGID, PROD, SERNUM, MWEEK, MYEAR, EVER, EREV (41_identity.md). -/

namespace Sys2Proof.Machine

/-- HDR (R90): the header is stored, not checked. -/
def execHdr (h : Vector Byte 8) (s : State) : Result :=
  .next ({ s with record := { s.record with header := h } }.endRow .hdr 8)

/-- MFGID (R91, R98) under given parameters. -/
def mfgidWith (p : Config.Params) (a b c : BitVec 5) (s : State) : Result :=
  .next ({ s with record := { s.record with mfg := #v[letter p a, letter p b, letter p c] } }.endRow .mfgid 10)

/-- MFGID (R91): the three letters; `IN[8][7]` is ignored. -/
def execMfgid (_x : Bit) (a b c : BitVec 5) (s : State) : Result := mfgidWith params a b c s

/-- PROD (R92). -/
def execProd (lo hi : Byte) (s : State) : Result :=
  .next ({ s with record := { s.record with product := le16 lo hi } }.endRow .prod 12)

/-- SERNUM (R93). -/
def execSernum (a b c d : Byte) (s : State) : Result :=
  .next ({ s with record := { s.record with serial := le32 a b c d } }.endRow .sernum 16)

/-- MWEEK (R94). -/
def execMweek (v : Byte) (s : State) : Result :=
  .next ({ s with record := { s.record with week := v } }.endRow .mweek 17)

/-- MYEAR (R95): byte + 1990, no value is special. -/
def execMyear (v : Byte) (s : State) : Result :=
  .next ({ s with record := { s.record with year := offsetBy 12 v 1990 } }.endRow .myear 18)

/-- EVER (R96). -/
def execEver (v : Byte) (s : State) : Result :=
  .next ({ s with record := { s.record with version := v } }.endRow .ever 19)

/-- EREV (R97). -/
def execErev (v : Byte) (s : State) : Result :=
  .next ({ s with record := { s.record with revision := v } }.endRow .erev 20)

end Sys2Proof.Machine
end

