-- ==== Sys2Proof/Machine/Integrity.lean ====
section
/-! DEFINITION. The integrity operations LENCHK and CKSUM (40_integrity.md). -/

namespace Sys2Proof.Machine

/-- LENCHK (R80): raises InsufficientData exactly when the latched `LEN` is below 128; else writes nothing. -/
def execLenchk (s : State) : Result :=
  if s.lenLatched < 128 then .next (s.raiseInsufficientData params) else .next (s.endRow .lenchk s.cur)

/-- CKSUM (R81): does not move the cursor. -/
def execCksum (b : Vector Byte 128) (s : State) : Result :=
  .next ({ s with record := { s.record with checksumOk := checksumFlag b.toList } }.endRow .cksum s.cur)

end Sys2Proof.Machine
end

