-- ==== Sys2Proof/Machine/Standard.lean ====
section
/-! DEFINITION. The standard-timing operation STDT (45_standard_timings.md). -/

namespace Sys2Proof.Machine

/-- STDT k (R120): no entry is special (R122). -/
def execStdt (k : Fin 8) (w : Byte) (a : BitVec 2) (r : BitVec 6) (s : State) : Result :=
  .next ({ s with record := { s.record with std := s.record.std.set k (stdEntry w a r) } }.endRow (.stdt k) (s.cur + 2))

end Sys2Proof.Machine
end

