-- ==== Sys2Proof/Machine/Dispatch.lean ====
section
/-! DEFINITION. The meaning of every operation: one arm per constructor, one direct call each. -/

namespace Sys2Proof.Machine

def exec (i : Instr) (s : State) : Host.Outcome State Fault Refusal :=
  match i with
  -- Integrity
  | .lenchk => Sys2Proof.Machine.execLenchk s
  | .cksum s0 => Sys2Proof.Machine.execCksum s0 s
  -- Identity
  | .hdr h => Sys2Proof.Machine.execHdr h s
  | .mfgid x a b c => Sys2Proof.Machine.execMfgid x a b c s
  | .prod lo hi => Sys2Proof.Machine.execProd lo hi s
  | .sernum a b c d => Sys2Proof.Machine.execSernum a b c d s
  | .mweek v => Sys2Proof.Machine.execMweek v s
  | .myear v => Sys2Proof.Machine.execMyear v s
  | .ever v => Sys2Proof.Machine.execEver v s
  | .erev v => Sys2Proof.Machine.execErev v s
  -- BasicDisplay
  | .vidinD x d => Sys2Proof.Machine.execVidinD x d s
  | .vidinA x c g x0 => Sys2Proof.Machine.execVidinA x c g x0 s
  | .hsize v => Sys2Proof.Machine.execHsize v s
  | .vsize v => Sys2Proof.Machine.execVsize v s
  | .gamma v => Sys2Proof.Machine.execGamma v s
  | .feat sb u a t x => Sys2Proof.Machine.execFeat sb u a t x s
  -- Chromaticity
  | .chroma c => Sys2Proof.Machine.execChroma c s
  -- Established
  | .est1 v => Sys2Proof.Machine.execEst1 v s
  | .est2 v => Sys2Proof.Machine.execEst2 v s
  | .est3 v x => Sys2Proof.Machine.execEst3 v x s
  -- Standard
  | .stdt k w a r => Sys2Proof.Machine.execStdt k w a r s
  -- Descriptors
  | .desc k p0 p1 x2 t x => Sys2Proof.Machine.execDesc k p0 p1 x2 t x s
  | .dtdGeo k g => Sys2Proof.Machine.execDtdGeo k g s
  | .dtdFlg k n sf t u r z => Sys2Proof.Machine.execDtdFlg k n sf t u r z s
  | .mser k x2 x4 t => Sys2Proof.Machine.execMser k x2 x4 t s
  | .mname k x2 x4 t => Sys2Proof.Machine.execMname k x2 x4 t s
  | .mrl k x2 x4 vmin vmax hmin hmax c x => Sys2Proof.Machine.execMrl k x2 x4 vmin vmax hmin hmax c x s
  | .dskip k x2 y x => Sys2Proof.Machine.execDskip k x2 y x s
  -- Control
  | .extc v => Sys2Proof.Machine.execExtc v s
  | .start => Sys2Proof.Machine.execStart s
  | .reset => Sys2Proof.Machine.execReset s

end Sys2Proof.Machine
end

