-- ==== Sys2Proof/Machine/HostPort.lean ====
section
/-! DEFINITION. The host's accesses (R11, R27, R157): what a register reads as, what a read and a write do. -/

namespace Sys2Proof.Machine

/-- A register's contents with its width. -/
def Reading.of {w : Nat} (v : BitVec w) : Reading := { width := w, value := v.toNat }

/-- A field of a standard-timing entry. -/
def StdEntry.reading (e : StdEntry) : StdField → Reading
  | .w => .of e.w | .h => .of e.h | .aspect => .of e.aspect | .refresh => .of e.refresh

/-- A field of a detailed-timing entry. -/
def DtdEntry.reading (e : DtdEntry) : DtdField → Reading
  | .pixclkKhz => .of e.pixclkKhz
  | .hactive => .of e.hactive | .hblank => .of e.hblank | .vactive => .of e.vactive | .vblank => .of e.vblank
  | .hsyncOff => .of e.hsyncOff | .hsyncPw => .of e.hsyncPw | .vsyncOff => .of e.vsyncOff | .vsyncPw => .of e.vsyncPw
  | .hsizeMm => .of e.hsizeMm | .vsizeMm => .of e.vsizeMm | .hborder => .of e.hborder | .vborder => .of e.vborder
  | .interlaced => .of e.interlaced | .stereo => .of e.stereo | .syncType => .of e.syncType
  | .vsyncPol => .of e.vsyncPol | .hsyncPol => .of e.hsyncPol

/-- A field of a range-limit entry. -/
def RngEntry.reading (e : RngEntry) : RngField → Reading
  | .vminHz => .of e.vminHz | .vmaxHz => .of e.vmaxHz | .hminKhz => .of e.hminKhz | .hmaxKhz => .of e.hmaxKhz
  | .maxclkMhz => .of e.maxclkMhz

/-- A record register, by name. -/
def Record.reading (r : Record) : RecReg → Reading
  | .header i => .of r.header[i] | .mfg i => .of r.mfg[i] | .product => .of r.product | .serial => .of r.serial
  | .week => .of r.week | .year => .of r.year | .version => .of r.version | .revision => .of r.revision
  | .isDigital => .of r.isDigital | .dfp => .of r.dfp | .compositeSync => .of r.compositeSync
  | .syncOnGreen => .of r.syncOnGreen
  | .hsizeCm => .of r.hsizeCm | .vsizeCm => .of r.vsizeCm | .gammaX100 => .of r.gammaX100
  | .dpmsStandby => .of r.dpmsStandby | .dpmsSuspend => .of r.dpmsSuspend | .dpmsActiveoff => .of r.dpmsActiveoff
  | .displayType => .of r.displayType
  | .redX => .of r.redX | .redY => .of r.redY | .greenX => .of r.greenX | .greenY => .of r.greenY
  | .blueX => .of r.blueX | .blueY => .of r.blueY | .whiteX => .of r.whiteX | .whiteY => .of r.whiteY
  | .estMask => .of r.estMask
  | .std k f => r.std[k].reading f
  | .dtdCount => .of r.dtdCount | .dtd e f => r.dtd[e].reading f
  | .rngCount => .of r.rngCount | .rng e f => r.rng[e].reading f
  | .name j => .of r.name[j] | .nameLen => .of r.nameLen
  | .sertxt j => .of r.sertxt[j] | .sertxtLen => .of r.sertxtLen
  | .extCount => .of r.extCount | .checksumOk => .of r.checksumOk

/-- Whether a read meets U9: a record register while `STATUS = BUSY`, whose value is unspecified (R29, R187). -/
def readsFree (s : State) : HostReg → Bool
  | .record _ => decide (s.status = .busy)
  | _ => false

/-- What a register reads as. `CTRL` is write-only and reads as 0 (R11). While `BUSY` a record register reads as a
free value of the register's width (U9, log 10). -/
def hostReading (s : State) : HostReg → Reading
  | .ctrl => .of (0 : BitVec 2)
  | .len => { width := 0, value := s.len }
  | .status => .of s.status.code
  | .errCode => .of s.errCode
  | .recValid => .of s.recValid
  | .record r =>
    let v := s.record.reading r
    if s.status = .busy then { v with value := Config.freeRead s.draws % 2 ^ v.width } else v

/-- The host reads a register (R157): no side effect on the block. A free value is drawn anew at every read. -/
def hostRead (r : HostReg) (s : State) : State :=
  { s with readData := hostReading s r, draws := if readsFree s r then s.draws + 1 else s.draws }

/-- The host writes a byte of `IN`. From START until `DONE` or `ERR` it must not change any of `IN[0..127]` (R186): a
run in which it does is refused (U8). -/
def hostWriteIn (a : Nat) (b : Byte) (s : State) : Result :=
  if s.status = .busy ∧ a < 128 ∧ s.input.read a ≠ b then .refused .inputChangedWhileBusy
  else .next { s with input := s.input.write a b }

/-- The host writes a register: `CTRL`, which the next step takes (log 11), or `LEN`, which it must not change while
`BUSY` (R186). It may write no other (R27). -/
def hostWrite (r : HostReg) (v : Nat) (s : State) : Result :=
  match r with
  | .ctrl => .next { s with ctrl := BitVec.ofNat 2 v }
  | .len => if s.status = .busy ∧ s.len ≠ v then .refused .inputChangedWhileBusy else .next { s with len := v }
  | .status | .errCode | .recValid | .record _ => .refused .readOnlyRegister

end Sys2Proof.Machine
end

