-- ==== Sys2Proof/Machine/Sequencer.lean ====
section
/-! DEFINITION. The sequencer: fetching the operation at the cursor and running it, taking a `CTRL` write, and the
host's events between the block's steps. -/

namespace Sys2Proof.Machine

/-- The operation at the sequencer's place: its format's bytes stand in the snapshot from the cursor on (R12, R61;
DTD.FLG's byte is 17 above it). -/
def fetch (s : State) : Except Reject Instr :=
  decode (.sched s.seq) (s.snap.drop (s.cur.toNat + s.seq.skip))

/-- Runs what the sequencer stands at: the end row of R61, or the fetched operation. -/
def runPlace (s : State) : Result :=
  match s.seq with
  | .finish => .next s.finishDecode
  | .row _ | .branch _ _ =>
    match fetch s with
    | .ok i => exec i s
    | .error r => .fault (.fetchFailed r)

/-- One step of the block: an operation of the decode in progress. "When no decode is running it is simply idle"
(R172). -/
def blockStep (s : State) : Result :=
  if s.status = .busy then runPlace s else .next s

/-- Takes the pending `CTRL` write: RESET, or START (R11, R152). -/
def takeCtrl (s : State) : Result :=
  match decode (.ctl s.ctrl) [] with
  | .ok i => exec i s
  | .error r => .fault (.fetchFailed r)

/-- The host's event, already taken off the list. -/
def hostStep (e : HostEvent) (s : State) : Result :=
  match e with
  | .wait => blockStep s
  | .writeIn a b => hostWriteIn a b s
  | .write r v => hostWrite r v s
  | .read r => .next (hostRead r s)
  | .assertReset => exec .reset s

/-- One step of the machine: a pending `CTRL` write first, then the host's next event; with no event left the block
runs on. -/
def machineStep (s : State) : Result :=
  if s.ctrl ≠ 0 then takeCtrl s
  else
    match s.host with
    | [] => blockStep s
    | e :: es => hostStep e { s with host := es }

/-- The snapshot with the bytes `bs` at offset `a`, 128 bytes long. -/
def patchSnapshot (snap : List Byte) (a : Nat) (bs : List Byte) : List Byte :=
  (List.range 128).map fun x => if a ≤ x ∧ x < a + bs.length then bs.getD (x - a) 0 else snap.getD x 0

end Sys2Proof.Machine
end

