-- ==== Sys2Proof/Machine/Step.lean ====
section
/-! DEFINITION. One step, and an instruction put where the next step fetches. -/

namespace Sys2Proof.Machine

/-- One step of EDIDDEC and its host. -/
def step : State → Host.Outcome State Fault Refusal := machineStep

/-- `s` in the middle of a decode, with the table word `w` of `nbits` bits in the snapshot at the place of the schedule
where it is selected: what START and the schedule do to bring the sequencer there, so that the next step runs it. A
host-selected word is put into `CTRL`. Log 19. -/
def State.withFetchWord (s : State) (nbits w : Nat) : State :=
  match tableSlot nbits w with
  | some (.sched p) =>
    { s with
      ctrl := 0, host := [], status := .busy, seq := p, cur := BitVec.ofNat 8 p.cursor, lenLatched := 128
      snap := patchSnapshot s.snap (p.cursor + p.skip) (tableBytes nbits w) }
  | some (.ctl v) => { s with ctrl := v }
  | none => s

end Sys2Proof.Machine
end

