-- ==== Sys2Proof/Machine/Transaction.lean ====
section
/-! DEFINITION. The pure function of R2 and R153, `DECODE : bytes -> Result<EdidRecord, DecodeError>`: each register of
the record as a function of the input bytes at the absolute offsets of R46 (R154 "a model may define the record as a
tuple of independent functions of the input"). It knows no cursor, no schedule and no step. -/

namespace Sys2Proof.Machine

/-- The one error kind (R160). -/
inductive DecodeError where
  | insufficientData
  deriving DecidableEq, Repr

/-- A bit slice `v[hi:lo]` of a byte, as a number (R7). -/
def bits (v : Byte) (hi lo : Nat) : Nat := v.toNat / 2 ^ lo % 2 ^ (hi + 1 - lo)

/-- The bytes `IN[a]` to `IN[a + n - 1]`. -/
def span (inp : Nat → Byte) (a n : Nat) : List Byte := (List.range n).map fun j => inp (a + j)

/-- The chromaticity coordinate number `i`, in the closed form of R111: `L[i] = 25 + i/4`, `S[i] = 6 - 2 (i mod 4)`,
`M[i] = 27 + i`. -/
def chromaAt (inp : Nat → Byte) (i : Nat) : BitVec 10 :=
  BitVec.ofNat 10 ((inp (27 + i)).toNat * 4 + (inp (25 + i / 4)).toNat / 2 ^ (6 - 2 * (i % 4)) % 4)

/-- `EST_MASK`: index `i` is bit `7 - i mod 8` of byte `35 + i/8` (R18). -/
def estMaskOf (inp : Nat → Byte) : BitVec 17 :=
  BitVec.ofNat 17 (((List.range 17).map fun i => if (inp (35 + i / 8)).getLsbD (7 - i % 8) then 2 ^ i else 0).sum)

/-- The standard timing of entry `k` (R120). -/
def stdOf (inp : Nat → Byte) (k : Nat) : StdEntry :=
  let w := ((inp (38 + 2 * k)).toNat + 31) * 8
  let a := bits (inp (39 + 2 * k)) 7 6
  let r := romAspect.toList.getD a (1, 1)
  { w := BitVec.ofNat 12 w, h := BitVec.ofNat 11 (w * r.2 / r.1), aspect := BitVec.ofNat 2 a
    refresh := BitVec.ofNat 7 (bits (inp (39 + 2 * k)) 5 0 + 60) }

/-- What a descriptor block contributes (R125, R127): "a tagged variant (sum type)". -/
inductive Contribution where
  | timing (e : DtdEntry)
  | serial (t : List Byte)
  | name (t : List Byte)
  | range (e : RngEntry)
  | nothing
  deriving DecidableEq, Repr

/-- The stereo code of R135 from the stereo field and the low bit, by the rule's table. -/
def stereoOf (s z : Nat) : BitVec 3 :=
  if s = 0 then 0
  else if z = 0 then (if s = 1 then 1 else if s = 2 then 2 else 5)
  else (if s = 1 then 3 else if s = 2 then 4 else 6)

/-- The detailed timing of a block `d` (R128, R129, R134). -/
def timingOf (d : Nat → Byte) : DtdEntry :=
  let f := d 17
  let separate := bits f 4 3 = 3
  { pixclkKhz := BitVec.ofNat 20 (((d 0).toNat + (d 1).toNat * 256) * 10)
    hactive := BitVec.ofNat 12 (bits (d 4) 7 4 * 256 + (d 2).toNat)
    hblank := BitVec.ofNat 12 (bits (d 4) 3 0 * 256 + (d 3).toNat)
    vactive := BitVec.ofNat 12 (bits (d 7) 7 4 * 256 + (d 5).toNat)
    vblank := BitVec.ofNat 12 (bits (d 7) 3 0 * 256 + (d 6).toNat)
    hsyncOff := BitVec.ofNat 10 (bits (d 11) 7 6 * 256 + (d 8).toNat)
    hsyncPw := BitVec.ofNat 10 (bits (d 11) 5 4 * 256 + (d 9).toNat)
    vsyncOff := BitVec.ofNat 6 (bits (d 11) 3 2 * 16 + bits (d 10) 7 4)
    vsyncPw := BitVec.ofNat 6 (bits (d 11) 1 0 * 16 + bits (d 10) 3 0)
    hsizeMm := BitVec.ofNat 12 (bits (d 14) 7 4 * 256 + (d 12).toNat)
    vsizeMm := BitVec.ofNat 12 (bits (d 14) 3 0 * 256 + (d 13).toNat)
    hborder := d 15
    vborder := d 16
    interlaced := BitVec.ofNat 1 (bits f 7 7)
    stereo := stereoOf (bits f 6 5) (bits f 0 0)
    syncType := BitVec.ofNat 2 (bits f 4 3)
    vsyncPol := if separate then BitVec.ofNat 1 (bits f 2 2) else 0
    hsyncPol := if separate then BitVec.ofNat 1 (bits f 1 1) else 0 }

/-- The contribution of a block `d` (R125). -/
def contribution (p : Config.Params) (d : Nat → Byte) : Contribution :=
  if (d 0).toNat + (d 1).toNat * 256 ≠ 0 then .timing (timingOf d)
  else if d 3 = 0xFF then .serial (span d 5 13)
  else if d 3 = 0xFC then .name (stripTrim p (span d 5 13))
  else if d 3 = 0xFD then
    .range { vminHz := d 5, vmaxHz := d 6, hminKhz := d 7, hmaxKhz := d 8, maxclkMhz := BitVec.ofNat 12 ((d 9).toNat * 10) }
  else .nothing

/-- The contributions of the four blocks, in input order (R126). -/
def contributions (p : Config.Params) (inp : Nat → Byte) : List Contribution :=
  (List.range 4).map fun k => contribution p fun j => inp (54 + 18 * k + j)

/-- The detailed timings, in block order (R22). -/
def timingsOf (cs : List Contribution) : List DtdEntry :=
  cs.filterMap fun c => match c with | .timing e => some e | _ => none

/-- The range limits, in block order (R22). -/
def rangesOf (cs : List Contribution) : List RngEntry :=
  cs.filterMap fun c => match c with | .range e => some e | _ => none

/-- The name texts, in block order. -/
def namesOf (cs : List Contribution) : List (List Byte) :=
  cs.filterMap fun c => match c with | .name t => some t | _ => none

/-- The serial texts, in block order. -/
def serialsOf (cs : List Contribution) : List (List Byte) :=
  cs.filterMap fun c => match c with | .serial t => some t | _ => none

/-- The text a slot keeps (R146): the empty text where there is none. -/
def keptText (p : Config.Params) (ts : List (List Byte)) : List Byte :=
  match p.namePolicy with
  | .last => ts.getLast?.getD []
  | .first => ts.head?.getD []

/-- The manufacturer letter number `i` (R91): 5 bits of the big-endian pair `IN[8] ++ IN[9]`. -/
def mfgOf (p : Config.Params) (inp : Nat → Byte) (i : Nat) : Byte :=
  letter p (BitVec.ofNat 5 (((inp 8).toNat * 256 + (inp 9).toNat) / 2 ^ (10 - 5 * i) % 32))

/-- The record of an input of at least 128 bytes. -/
def recordOf (p : Config.Params) (inp : Nat → Byte) : Record :=
  let cs := contributions p inp
  let digital := bits (inp 20) 7 7 = 1
  let name := keptText p (namesOf cs)
  let serial := keptText p (serialsOf cs)
  { header := Vector.ofFn fun i => inp i.val
    mfg := Vector.ofFn fun i => mfgOf p inp i.val
    product := BitVec.ofNat 16 ((inp 10).toNat + (inp 11).toNat * 256)
    serial := BitVec.ofNat 32 ((inp 12).toNat + (inp 13).toNat * 2 ^ 8 + (inp 14).toNat * 2 ^ 16 + (inp 15).toNat * 2 ^ 24)
    week := inp 16
    year := BitVec.ofNat 12 ((inp 17).toNat + 1990)
    version := inp 18
    revision := inp 19
    isDigital := if digital then 1 else 0
    dfp := if digital then BitVec.ofNat 1 (bits (inp 20) 0 0) else 0
    compositeSync := if digital then 0 else BitVec.ofNat 1 (bits (inp 20) 2 2)
    syncOnGreen := if digital then 0 else BitVec.ofNat 1 (bits (inp 20) 1 1)
    hsizeCm := inp 21
    vsizeCm := inp 22
    gammaX100 := BitVec.ofNat 9 ((inp 23).toNat + 100)
    dpmsStandby := BitVec.ofNat 1 (bits (inp 24) 7 7)
    dpmsSuspend := BitVec.ofNat 1 (bits (inp 24) 6 6)
    dpmsActiveoff := BitVec.ofNat 1 (bits (inp 24) 5 5)
    displayType := BitVec.ofNat 2 (bits (inp 24) 4 3)
    redX := chromaAt inp 0, redY := chromaAt inp 1, greenX := chromaAt inp 2, greenY := chromaAt inp 3
    blueX := chromaAt inp 4, blueY := chromaAt inp 5, whiteX := chromaAt inp 6, whiteY := chromaAt inp 7
    estMask := estMaskOf inp
    std := Vector.ofFn fun k => stdOf inp k.val
    dtd := Vector.ofFn fun e => (timingsOf cs).getD e.val .reset
    dtdCount := BitVec.ofNat 3 (timingsOf cs).length
    rng := Vector.ofFn fun e => (rangesOf cs).getD e.val .reset
    rngCount := BitVec.ofNat 3 (rangesOf cs).length
    name := textReg name
    nameLen := BitVec.ofNat 4 name.length
    sertxt := textReg serial
    sertxtLen := BitVec.ofNat 4 serial.length
    extCount := inp 126
    checksumOk := if ((span inp 0 128).map BitVec.toNat).sum % 256 = 0 then 1 else 0 }

/-- `DECODE` (R2, R153): the outcome on an input, by its length and its first 128 bytes (R49, R156). -/
def decodeInput (p : Config.Params) (inp : List Byte) : Except DecodeError Record :=
  if inp.length < 128 then .error .insufficientData else .ok (recordOf p fun a => inp.getD a 0)

end Sys2Proof.Machine
end

