-- ==== Sys2Proof/Machine/Views.lean ====
section
/-! DEFINITION. What the record means to a reader (R106, R107, R118, R137, and the exact fractions of R15 and R17):
functions of the record, no state of their own. -/

namespace Sys2Proof.Machine

/-- The gamma value `GAMMA_X100 / 100`, exactly (R104). -/
def Record.gamma (r : Record) : ℚ := (r.gammaX100.toNat : ℚ) / 100

/-- A chromaticity coordinate: `register / 1024`, exactly (R17, R110). -/
def coordinate (v : BitVec 10) : ℚ := (v.toNat : ℚ) / 1024

/-- The input signal with the fields its kind has (R14): the conditional registers only under their condition. -/
inductive Signal where
  | digital (dfp : Bit)
  | analog (compositeSync syncOnGreen : Bit)
  deriving DecidableEq, Repr

/-- The signal a record holds, read from the stored predicate `IS_DIGITAL` (R25). -/
def Record.signal (r : Record) : Signal :=
  if r.isDigital = 1 then .digital r.dfp else .analog r.compositeSync r.syncOnGreen

/-- The enumerated display type: the pair (`IS_DIGITAL`, `DISPLAY_TYPE`), eight variants (R106). -/
inductive DisplayVariant where
  | analog (t : BitVec 2)
  | digital (t : BitVec 2)
  deriving DecidableEq, Repr

/-- The two-stage decode of R107: an explicit branch on the stored `IS_DIGITAL`. -/
def Record.displayVariant (r : Record) : DisplayVariant :=
  if r.isDigital = 1 then .digital r.displayType else .analog r.displayType

/-- The label of a display variant (R106, `DISPLAY_TYPE_NAME`). -/
def DisplayVariant.label (p : Config.Params) : DisplayVariant → String
  | .analog t => p.displayTypeName[0][t.toNat]'t.isLt
  | .digital t => p.displayTypeName[1][t.toNat]'t.isLt

/-- The indices of the supported established timings in table-scan order (R118). -/
def Record.estIndices (r : Record) : List (Fin 17) :=
  (List.finRange 17).filter fun i => r.estMask.getLsbD i.val

/-- `EST_LIST` (R118): the names of the supported modes in table-scan order. -/
def Record.estList (p : Config.Params) (r : Record) : List String := r.estIndices.map fun i => p.estName[i]

/-- The sync of a detailed timing with the polarities the digital separate type alone has (R137). -/
inductive Sync where
  | analogComposite
  | bipolarAnalogComposite
  | digitalComposite
  | digitalSeparate (vsyncPol hsyncPol : Bit)
  deriving DecidableEq, Repr

/-- The sync type of an entry (R136, R137). -/
def DtdEntry.sync (e : DtdEntry) : Sync :=
  if e.syncType = 0 then .analogComposite
  else if e.syncType = 1 then .bipolarAnalogComposite
  else if e.syncType = 2 then .digitalComposite
  else .digitalSeparate e.vsyncPol e.hsyncPol

/-- The valid detailed timings, in block order (R20, R22, R157). -/
def Record.timings (r : Record) : List DtdEntry := r.dtd.toList.take r.dtdCount.toNat

/-- The valid range limits, in block order (R21, R22, R157). -/
def Record.ranges (r : Record) : List RngEntry := r.rng.toList.take r.rngCount.toNat

/-- The monitor name (R23). -/
def Record.nameText (r : Record) : List Byte := r.name.toList.take r.nameLen.toNat

/-- The serial-number text (R23). -/
def Record.serialText (r : Record) : List Byte := r.sertxt.toList.take r.sertxtLen.toNat

end Sys2Proof.Machine
end

