-- ==== Sys2Proof/Safety.lean ====
section
/-! DEFINITION. What a safe run is: the invariant that every reachable state meets, in parts with names, and the
conditions under which a step stops. -/

namespace Sys2Proof.Safety

open Sys2Proof.Machine

/-! ### The status registers -/

/-- `REC_VALID` is 1 exactly when `STATUS = DONE` (R11), and `ERR_CODE` is 1 exactly when `STATUS = ERR` (R11 "0
otherwise"). -/
def StatusAgrees (s : State) : Prop :=
  (s.recValid = 1 ↔ s.status = .done) ∧ (s.errCode = 1 ↔ s.status = .err)

/-! ### The cursor and the snapshot -/

/-- While a decode runs the cursor is the offset R61 gives the sequencer's place; otherwise the sequencer stands at its
row 0 and the cursor is 128 after a completed decode, and 0 after reset and after an error (R12). -/
def CursorAgrees (s : State) : Prop :=
  match s.status with
  | .busy => s.cur.toNat = s.seq.cursor
  | .done => s.cur = 128 ∧ s.seq = .row .lenchk
  | .idle | .err => s.cur = 0 ∧ s.seq = .row .lenchk

/-- The snapshot has the first `min(LEN, 128)` bytes (R49), and past LENCHK the latched length is at least 128 (R47,
R80). -/
def SnapshotLong (s : State) : Prop :=
  s.snap.length = min s.lenLatched 128 ∧
  (s.status = .busy → s.seq ≠ .row .lenchk → 128 ≤ s.lenLatched) ∧
  (s.status = .done → 128 ≤ s.lenLatched)

/-- The branch of R65 that a place stands for: DTD.FLG belongs to the detailed timing branch. -/
def branchKind : Branch → Branch
  | .flg => .geo
  | b => b

/-- The sequencer stands at the branch that the block's bytes select (R52). -/
def BranchSelected (s : State) : Prop :=
  ∀ k b, s.status = .busy → s.seq = .branch k b → branchKind b = branchAt s.snap k.val

/-! ### The record -/

/-- How many descriptor blocks a decode has finished when the sequencer stands at a place. -/
def blocksDone : Place → Nat
  | .row (.desc k) => k.val
  | .branch k _ => k.val
  | .row .extc | .finish => 4
  | .row _ => 0

/-- The most entries the two register files can hold together (R22). -/
def entryBound (s : State) : Nat := if s.status = .done then 4 else blocksDone s.seq

/-- `DTD_COUNT + RNG_COUNT` is at most the number of blocks done, so neither file overflows (R22), and entries at or
above a count hold reset values (R20, R21); between DTD.GEO and DTD.FLG the entry at `DTD_COUNT` is being filled. -/
def FilesBounded (s : State) : Prop :=
  s.record.dtdCount.toNat + s.record.rngCount.toNat ≤ entryBound s ∧
  (∀ e : Fin 4, s.record.dtdCount.toNat ≤ e.val →
    s.record.dtd[e] = .reset ∨ (e.val = s.record.dtdCount.toNat ∧ ∃ k, s.status = .busy ∧ s.seq = .branch k .flg)) ∧
  (∀ e : Fin 4, s.record.rngCount.toNat ≤ e.val → s.record.rng[e] = .reset)

/-- No record outside a decode and after an error (R29, R163, R164), nor before LENCHK has passed. -/
def RecordAbsent (s : State) : Prop :=
  s.status = .idle ∨ s.status = .err ∨ (s.status = .busy ∧ s.seq = .row .lenchk) → s.record = .reset

/-- The text registers (R23): a length of at most 13, zero bytes at and above it; the serial text has length 0 or 13. -/
def TextsPadded (r : Record) : Prop :=
  r.nameLen.toNat ≤ 13 ∧ (∀ j : Fin 13, r.nameLen.toNat ≤ j.val → r.name[j] = 0) ∧
  (r.sertxtLen = 13 ∨ (r.sertxtLen = 0 ∧ r.sertxt = .replicate 13 0))

/-- The range columns of R13, R15, R19 and R21 (a register that no decode has written is 0, R28). -/
def InRanges (r : Record) : Prop :=
  (∀ i : Fin 3, r.mfg[i] = 0 ∨ (0x40 ≤ r.mfg[i].toNat ∧ r.mfg[i].toNat ≤ 0x5F)) ∧
  (r.year = 0 ∨ (1990 ≤ r.year.toNat ∧ r.year.toNat ≤ 2245)) ∧
  (r.gammaX100 = 0 ∨ (100 ≤ r.gammaX100.toNat ∧ r.gammaX100.toNat ≤ 355)) ∧
  (∀ k : Fin 8, r.std[k] = .reset ∨
    (248 ≤ r.std[k].w.toNat ∧ r.std[k].w.toNat ≤ 2288 ∧ r.std[k].w.toNat % 8 = 0 ∧
     139 ≤ r.std[k].h.toNat ∧ r.std[k].h.toNat ≤ 1830 ∧
     60 ≤ r.std[k].refresh.toNat ∧ r.std[k].refresh.toNat ≤ 123)) ∧
  (∀ e : Fin 4, r.rng[e].maxclkMhz.toNat ≤ 2550 ∧ r.rng[e].maxclkMhz.toNat % 10 = 0)

/-- The ranges of R20 for the entries that are valid: a pixel clock of 10 to 655350 kHz, a multiple of 10; a stereo code
of 0 to 6; polarities 0 unless the sync type is digital separate (R137). -/
def TimingsInRanges (r : Record) : Prop :=
  ∀ e : Fin 4, e.val < r.dtdCount.toNat →
    10 ≤ r.dtd[e].pixclkKhz.toNat ∧ r.dtd[e].pixclkKhz.toNat ≤ 655350 ∧ r.dtd[e].pixclkKhz.toNat % 10 = 0 ∧
    r.dtd[e].stereo.toNat ≤ 6 ∧
    (r.dtd[e].syncType ≠ 3 → r.dtd[e].vsyncPol = 0 ∧ r.dtd[e].hsyncPol = 0)

/-- Between DTD.GEO and DTD.FLG the entry being filled already has its pixel clock. -/
def GeometryFilled (s : State) : Prop :=
  ∀ k, s.status = .busy → s.seq = .branch k .flg → ∀ e : Fin 4, e.val = s.record.dtdCount.toNat →
    10 ≤ s.record.dtd[e].pixclkKhz.toNat ∧ s.record.dtd[e].pixclkKhz.toNat ≤ 655350 ∧
    s.record.dtd[e].pixclkKhz.toNat % 10 = 0

/-- The invariant of every run. -/
structure Inv (s : State) : Prop where
  memory : s.input.wf = true
  status : StatusAgrees s
  cursor : CursorAgrees s
  snapshot : SnapshotLong s
  branch : BranchSelected s
  files : FilesBounded s
  absent : RecordAbsent s
  texts : TextsPadded s.record
  ranges : InRanges s.record
  geometry : GeometryFilled s
  timings : TimingsInRanges s.record

/-! ### The rules' own words over a state -/

/-- `IN[a]` of the decode in progress: byte `a` of the snapshot (R8, R49). -/
def byteAt (s : State) (a : Nat) : Byte := s.snap.getD a 0

/-- A decode stands at place `p` of the schedule, past the length check, and the host leaves it alone. -/
def StandsAt (s : State) (p : Place) : Prop :=
  s.ctrl = 0 ∧ s.host = [] ∧ s.status = .busy ∧ s.seq = p ∧ s.cur.toNat = p.cursor ∧ s.snap.length = 128

/-- Whether a field of a detailed timing is one of the five that DTD.FLG writes (R134); DTD.GEO writes the others
(R128). -/
def isFlagField : DtdField → Bool
  | .interlaced | .stereo | .syncType | .vsyncPol | .hsyncPol => true
  | .pixclkKhz | .hactive | .hblank | .vactive | .vblank | .hsyncOff | .hsyncPw | .vsyncOff | .vsyncPw | .hsizeMm
  | .vsizeMm | .hborder | .vborder => false

/-- Whether a record register is one that an operation writes: the "writes" column of spec/opcode_table.json. LENCHK, DESC
and DSKIP write none; START and RESET write every one. -/
def writes (i : Instr) (r : Record) (g : RecReg) : Bool :=
  match i with
  | .lenchk | .desc _ _ _ _ _ _ | .dskip _ _ _ _ => false
  | .cksum _ => g == .checksumOk
  | .hdr _ => match g with | .header _ => true | _ => false
  | .mfgid _ _ _ _ => match g with | .mfg _ => true | _ => false
  | .prod _ _ => g == .product
  | .sernum _ _ _ _ => g == .serial
  | .mweek _ => g == .week
  | .myear _ => g == .year
  | .ever _ => g == .version
  | .erev _ => g == .revision
  | .vidinD _ _ | .vidinA _ _ _ _ => g == .isDigital || g == .dfp || g == .compositeSync || g == .syncOnGreen
  | .hsize _ => g == .hsizeCm
  | .vsize _ => g == .vsizeCm
  | .gamma _ => g == .gammaX100
  | .feat _ _ _ _ _ => g == .dpmsStandby || g == .dpmsSuspend || g == .dpmsActiveoff || g == .displayType
  | .chroma _ =>
    g == .redX || g == .redY || g == .greenX || g == .greenY || g == .blueX || g == .blueY || g == .whiteX || g == .whiteY
  | .est1 _ | .est2 _ | .est3 _ _ => g == .estMask
  | .stdt k _ _ _ => match g with | .std j _ => j == k | _ => false
  | .dtdGeo _ _ => match g with | .dtd e f => e.val == r.dtdCount.toNat && !isFlagField f | _ => false
  | .dtdFlg _ _ _ _ _ _ _ =>
    match g with
    | .dtd e f => e.val == r.dtdCount.toNat && isFlagField f
    | .dtdCount => true
    | _ => false
  | .mser _ _ _ _ => match g with | .sertxt _ | .sertxtLen => true | _ => false
  | .mname _ _ _ _ => match g with | .name _ | .nameLen => true | _ => false
  | .mrl _ _ _ _ _ _ _ _ _ => match g with | .rng e _ => e.val == r.rngCount.toNat | .rngCount => true | _ => false
  | .extc _ => g == .extCount
  | .start | .reset => true

/-- Whether an operation is one of the schedule's, run by the sequencer and not by the host (R60, R72). -/
def scheduled (i : Instr) : Bool :=
  match i.slot with
  | .sched _ => true
  | .ctl _ => false

/-- What a descriptor block does to the record (R125, R127, R146): it appends to one of the two files, overwrites one of the
two text slots, or does nothing. -/
def absorb (r : Record) (c : Contribution) : Record :=
  match c with
  | .timing e =>
    { r with dtd := Vector.ofFn fun j => if j.val = r.dtdCount.toNat then e else r.dtd[j], dtdCount := r.dtdCount + 1 }
  | .serial t => { r with sertxt := textReg t, sertxtLen := BitVec.ofNat 4 t.length }
  | .name t => { r with name := textReg t, nameLen := BitVec.ofNat 4 t.length }
  | .range e =>
    { r with rng := Vector.ofFn fun j => if j.val = r.rngCount.toNat then e else r.rng[j], rngCount := r.rngCount + 1 }
  | .nothing => r

/-! ### When a step stops -/

/-- What the host must not do (R27, R186, R188), as the next thing this state does. -/
def HostViolation (s : State) : Refusal → Prop
  | .startWhileBusy => s.ctrl = 1 ∧ s.status = .busy
  | .inputChangedWhileBusy => s.ctrl = 0 ∧ s.status = .busy ∧
      ((∃ a b es, s.host = .writeIn a b :: es ∧ a < 128 ∧ s.input.read a ≠ b) ∨
       (∃ v es, s.host = .write .len v :: es ∧ s.len ≠ v))
  | .readOnlyRegister => s.ctrl = 0 ∧
      ∃ r v es, s.host = .write r v :: es ∧ r ≠ .ctrl ∧ r ≠ .len
  | _ => False

end Sys2Proof.Safety
end

