-- ==== Sys2Proof/Certificates/Slice0/Obligations.lean ====
section
/-! DEFINITION. The statements for the provers. Each docstring names the rule it formalises; `IN[a]` of a decode in
progress is `byteAt s a`, and `StandsAt s p` says that a decode stands at place `p` of the schedule. -/

open Sys2Proof Sys2Proof.Machine Sys2Proof.Safety

/-! ### Reset, START and the host's accesses -/

/-- The reset state of R181 and R28: after RESET every register holds its reset value, and no byte of `IN` changes. The clause on the
sequencer's place is log 2, and that the list of `IN`, the host's events and what the host has read are kept is log 24. -/
def Obligations.ResetPutsEveryRegisterToItsResetValue : Prop :=
  ∀ s : State, ∃ t, exec .reset s = .next t ∧
    t.ctrl = 0 ∧ t.len = 0 ∧ t.status = .idle ∧ t.errCode = 0 ∧ t.recValid = 0 ∧ t.cur = 0 ∧
    (∀ g : RecReg, (t.record.reading g).value = 0) ∧
    t.seq = .row .lenchk ∧ (∀ a, t.input.read a = s.input.read a) ∧
    t.input = s.input ∧ t.host = s.host ∧ t.readData = s.readData ∧ t.draws = s.draws

/-- RESET is caused by `CTRL.RESET` and by the reset input (R180, R152), in every status (R189), and wins over a START written with it
(R11, R152). That the very next step takes the bits of `CTRL`, before any later host event, is log 11, and that the reset input is a host
event is log 8. -/
def Obligations.ResetCausesAndPriority : Prop :=
  ∀ s : State,
    (s.ctrl = 2 ∨ s.ctrl = 3 → step s = exec .reset s) ∧
    (∀ es, s.ctrl = 0 → s.host = .assertReset :: es → step s = exec .reset { s with host := es })

/-- The machine's first state (R28), with the values the model names for what the rule leaves open: the sequencer's place (log 2),
the snapshot (log 5), the other values of logs 6, 7, 8 and 10. -/
def Obligations.FirstStateHoldsResetValues : Prop :=
  State.reset.ctrl = 0 ∧ State.reset.len = 0 ∧ State.reset.status = .idle ∧ State.reset.errCode = 0 ∧
  State.reset.recValid = 0 ∧ State.reset.cur = 0 ∧ (∀ g : RecReg, (State.reset.record.reading g).value = 0) ∧
  State.reset.lenLatched = 0 ∧ State.reset.snap = [] ∧ State.reset.seq = .row .lenchk ∧
  (∀ a, State.reset.input.read a = 0) ∧ State.reset.host = [] ∧ State.reset.readData = ⟨0, 0⟩ ∧ State.reset.draws = 0

/-- START from any status but `BUSY` (R151 up to its last line, "run DECODE", which `DecodeIsThePureFunction` states; that
the decode runs in the steps that follow is log 1). That the input is copied to the snapshot is log 5, the sequencer's place log 2. -/
def Obligations.StartLatchesClearsAndBegins : Prop :=
  ∀ s : State, s.status ≠ .busy → ∃ t, exec .start s = .next t ∧
    t.lenLatched = s.len ∧ t.snap.length = min s.len 128 ∧
    (∀ a, a < min s.len 128 → byteAt t a = s.input.read a) ∧
    (∀ g : RecReg, (t.record.reading g).value = 0) ∧
    t.errCode = 0 ∧ t.recValid = 0 ∧ t.cur = 0 ∧ t.status = .busy ∧ t.ctrl = 0 ∧ t.seq = .row .lenchk ∧
    t.len = s.len ∧ t.input = s.input ∧ t.host = s.host ∧ t.readData = s.readData ∧ t.draws = s.draws

/-- R188: a START while `STATUS = BUSY` is refused; by the very next step, where it was written to `CTRL` (log 11). -/
def Obligations.StartWhileBusyIsRefused : Prop :=
  ∀ s : State, s.status = .busy → exec .start s = .refused .startWhileBusy ∧ (s.ctrl = 1 → step s = .refused .startWhileBusy)

/-- A `CTRL` write of 1 to `START` is taken by the next step, before any later host event (R11, log 11). -/
def Obligations.StepTakesPendingStart : Prop :=
  ∀ s : State, s.ctrl = 1 → step s = exec .start s

/-- The hazard of R186 as log 9 meets it: while a decode runs a host write that changes `LEN` or a byte of `IN[0..127]` is refused
(R186 also lets a model mark the run), and only then: a write that changes neither, or at offset 128 and above, goes through. -/
def Obligations.InputIsStableWhileBusy : Prop :=
  ∀ (s : State) (es : List HostEvent), s.ctrl = 0 → s.status = .busy →
    (∀ a b, s.host = .writeIn a b :: es →
      (a < 128 ∧ s.input.read a ≠ b → step s = .refused .inputChangedWhileBusy) ∧
      (128 ≤ a ∨ s.input.read a = b → step s = .next { s with host := es, input := s.input.write a b })) ∧
    (∀ v, s.host = .write .len v :: es →
      (s.len ≠ v → step s = .refused .inputChangedWhileBusy) ∧ (s.len = v → step s = .next { s with host := es }))

/-- What the host's writes do (R27, R40, R182). In every status a write of `CTRL` puts its two low bits there (R188, R189), for the next
step to take (log 11). Outside a decode `LEN` takes the value, and `IN` changes at the written address alone and keeps the model's
canonical form. -/
def Obligations.HostWritesReachInputLenAndCtrl : Prop :=
  ∀ (s : State) (es : List HostEvent), s.ctrl = 0 →
    (∀ v, s.host = .write .ctrl v :: es → ∃ c : BitVec 2, c.toNat = v % 4 ∧ step s = .next { s with host := es, ctrl := c }) ∧
    (s.status ≠ .busy →
      (∀ v, s.host = .write .len v :: es → step s = .next { s with host := es, len := v }) ∧
      (s.input.wf = true → ∀ a b, s.host = .writeIn a b :: es → ∃ m, step s = .next { s with host := es, input := m } ∧ m.wf = true ∧
        ∀ x, m.read x = if x = a then b else s.input.read x))

/-- A host read has no side effect on the block and returns what the register holds (R157, R27): a record register outside a decode, and
`LEN`, `STATUS`, `ERR_CODE` and `REC_VALID` in every status, so that the host can wait for the end of a decode (R182, R167). `CTRL`
reads as 0 (R11). What was read stands in the model's own field `readData` (log 10). -/
def Obligations.HostReadsReturnTheRegister : Prop :=
  ∀ (s : State) (r : HostReg) (es : List HostEvent), s.ctrl = 0 → (s.status ≠ .busy ∨ ∀ g, r ≠ .record g) → s.host = .read r :: es →
    ∃ v : Reading, step s = .next { s with host := es, readData := v } ∧
      match r with
      | .ctrl => v.value = 0
      | .len => v.value = s.len
      | .status => v.value = match s.status with | .idle => 0 | .busy => 1 | .done => 2 | .err => 3
      | .errCode => v.value = s.errCode.toNat
      | .recValid => v.value = s.recValid.toNat
      | .record g => v = s.record.reading g

/-- A record register read while `STATUS = BUSY` (R29, R187, U9): the block is not affected, and the value is the free value number
`draws`, cut to the register's width; the counter moves on, so that each read draws anew (log 10). It holds whatever the free value is. -/
def Obligations.BusyReadIsAFreeValueOfItsWidth : Prop :=
  ∀ (s : State) (g : RecReg) (es : List HostEvent), s.ctrl = 0 → s.status = .busy → s.host = .read (.record g) :: es →
    ∃ v : Reading, v.width = (s.record.reading g).width ∧ v.value = Config.freeRead s.draws % 2 ^ v.width ∧ v.value < 2 ^ v.width ∧
      step s = .next { s with host := es, readData := v, draws := s.draws + 1 }

/-- R172: when no decode is running, and the host does nothing, the block is idle and every register keeps its value. A host
that only waits is log 8. -/
def Obligations.IdleBlockKeepsItsRegisters : Prop :=
  ∀ s : State, s.status ≠ .busy → s.ctrl = 0 →
    (s.host = [] → step s = .next s) ∧ (∀ es, s.host = .wait :: es → step s = .next { s with host := es })

/-- Outside a decode the record, the status registers and the cursor change only at RESET and at START (R27, R157, R172); every other
step keeps them. That the snapshot and the latched length are kept too is log 23; the reset input as a host event is log 8. -/
def Obligations.RecordIsKeptOutsideADecode : Prop :=
  ∀ s t : State, s.status ≠ .busy → s.ctrl = 0 → (∀ es, s.host ≠ .assertReset :: es) → step s = .next t →
    t.record = s.record ∧ t.status = s.status ∧ t.errCode = s.errCode ∧ t.recValid = s.recValid ∧ t.cur = s.cur ∧
    t.snap = s.snap ∧ t.lenLatched = s.lenLatched

/-! ### The step and the decoder -/

/-- While a decode runs a step is one operation (log 1), the one that the bytes at the cursor decode to (R12, R61); DTD.FLG's byte lies
17 above the cursor (R134). A waiting host lets exactly one operation run (log 8). -/
def Obligations.StepRunsTheDecodedInstruction : Prop :=
  ∀ (s : State) (i : Instr), s.ctrl = 0 → s.status = .busy → s.seq ≠ .finish →
    decode (.sched s.seq) (s.snap.drop (s.cur.toNat + s.seq.skip)) = .ok i →
      (s.host = [] → step s = exec i s) ∧ (∀ es, s.host = .wait :: es → step s = exec i { s with host := es })

/-- The end row of R61 and the last lines of R153, whether the host is silent or waits (log 8). That the sequencer goes back to row 0 is
log 23. -/
def Obligations.EndRowMakesTheRecordValid : Prop :=
  ∀ s : State, StandsAt s .finish →
    step s = .next { s with cur := 128, status := .done, recValid := 1, seq := .row .lenchk } ∧
    ∀ es, step { s with host := .wait :: es } =
      .next { s with host := es, cur := 128, status := .done, recValid := 1, seq := .row .lenchk }

/-- R61: each row begins where the row before it ends, and has the next number; the last row ends at 127. -/
def Obligations.RowsFollowEachOther : Prop :=
  ∀ r : Row, (r.next = .finish ∧ r.number = 31 ∧ r.offset + r.size = 127) ∨
    ∃ q : Row, r.next = .row q ∧ q.number = r.number + 1 ∧ q.offset = r.offset + r.size

/-- R61: at every place of the schedule past LENCHK, whatever the bytes, the decoder finds an operation; at a descriptor branch the
block's prefix word must be the one that selects it (R52, R68). -/
def Obligations.EveryPlaceDecodes : Prop :=
  (∀ (s : State) (r : Row), StandsAt s (.row r) → ∃ i, fetch s = .ok i ∧ i.wf = true ∧ i.slot = .sched (.row r)) ∧
  (∀ (s : State) (k : Fin 4) (b : Branch), StandsAt s (.branch k b) → branchKind b = branchAt s.snap k.val →
    ∃ i, fetch s = .ok i ∧ i.wf = true ∧ i.slot = .sched (.branch k b))

/-- R62, R63: every well-formed instruction is read back from its encoded bytes, whatever follows them. -/
def Obligations.DecodeOfEncodeIsTheInstruction : Prop :=
  ∀ (i : Instr) (rest : List Byte), i.wf = true → decode i.slot (encode i ++ rest) = .ok i

/-- The other direction: what a schedule place decodes is well-formed, belongs to that place, and its encoding is what stood there. -/
def Obligations.EncodeOfDecodeIsTheBytes : Prop :=
  ∀ (p : Place) (bs : List Byte) (i : Instr), decode (.sched p) bs = .ok i →
    i.wf = true ∧ i.slot = .sched p ∧ ∃ rest, bs = encode i ++ rest

/-- R65: the five conditions on the prefix word, in terms of the block's bytes: the little-endian clock and the tag; each branch is
selected exactly on its own condition. -/
def Obligations.ClassifierAgreesWithClockAndTag : Prop :=
  ∀ d0 d1 d2 d3 : Byte,
    let clock := d0.toNat + 256 * d1.toNat
    let b := classify (prefixWord d0 d1 d2 d3)
    (b = .geo ↔ clock ≠ 0) ∧
    (b = .ser ↔ clock = 0 ∧ d3.toNat = 0xFF) ∧
    (b = .name ↔ clock = 0 ∧ d3.toNat = 0xFC) ∧
    (b = .range ↔ clock = 0 ∧ d3.toNat = 0xFD) ∧
    (b = .skip ↔ clock = 0 ∧ d3.toNat ≠ 0xFF ∧ d3.toNat ≠ 0xFC ∧ d3.toNat ≠ 0xFD)

/-- Words written out from the patterns of R62 and R63, and the control word with both bits set, which is RESET (R11, R152): a sanity
check of the decoder. -/
def Obligations.WordsWrittenOutDecode : Prop :=
  decode (.sched (.row .mfgid)) [0b00000100#8, 0b01101101#8] = .ok (.mfgid 0 1 3 13) ∧
  decode (.sched (.row .vidin)) [0b10000001#8] = .ok (.vidinD 0 1) ∧
  decode (.sched (.row .vidin)) [0b00001010#8] = .ok (.vidinA 1 0 1 0) ∧
  decode (.sched (.row .feat)) [0b10101010#8] = .ok (.feat 1 0 1 1 2) ∧
  decode (.sched (.row (.stdt 3))) [0x3F#8, 0b01000000#8] = .ok (.stdt 3 0x3F 1 0) ∧
  decode (.sched (.branch 2 .flg)) [0b11000110#8] = .ok (.dtdFlg 2 1 2 0 1 1 0) ∧
  decode (.ctl 3) [] = .ok .reset

/-! ### Integrity -/

/-- R80, R163: LENCHK raises InsufficientData exactly when the latched length is below 128, the entry writes `STATUS`, `ERR_CODE`,
`REC_VALID` and `cur` and no other register, and nothing more of the schedule runs; otherwise LENCHK writes nothing.
That the sequencer goes back to row 0 after the error is log 23. -/
def Obligations.LenchkRaisesExactlyOnShortInput : Prop :=
  ∀ s : State,
    (s.lenLatched < 128 → exec .lenchk s =
      .next { s with status := .err, errCode := 1, recValid := 0, cur := 0, seq := .row .lenchk }) ∧
    (128 ≤ s.lenLatched → exec .lenchk s = .next { s with seq := .row .cksum }) ∧
    (s.status = .err → s.ctrl = 0 → s.host = [] → step s = .next s)

/-- R81: `CHECKSUM_OK` is 1 exactly when the 128 bytes sum to 0 modulo 256; CKSUM writes nothing else and does not move `cur`. -/
def Obligations.CksumIsTheSumModulo256 : Prop :=
  (∀ (b : Vector Byte 128) (s : State), ∃ c : Bit, (c = 1 ↔ (b.toList.map BitVec.toNat).sum % 256 = 0) ∧
    exec (.cksum b) s = .next { s with record := { s.record with checksumOk := c }, seq := .row .hdr }) ∧
  (∀ s : State, StandsAt s (.row .cksum) → ∃ b : Vector Byte 128, fetch s = .ok (.cksum b) ∧ ∀ a : Fin 128, b[a] = byteAt s a.val)

/-- What the spec derives in R83: inputs that differ only in byte 127 give records that differ at most in `CHECKSUM_OK`, which is 1 for
one value of the byte exactly; the outcome is a record either way (R82). -/
def Obligations.ChecksumByteTouchesTheVerdictOnly : Prop :=
  ∀ inp : List Byte, 128 ≤ inp.length → ∃ r : Record, ∀ x : Byte, ∃ c : Bit,
    decodeInput params (inp.set 127 x) = .ok { r with checksumOk := c } ∧
    (c = 1 ↔ x.toNat = (256 - ((inp.take 127).map BitVec.toNat).sum % 256) % 256)

/-! ### Identity -/

/-- R90: the eight bytes are stored, not checked. -/
def Obligations.HdrStoresTheHeader : Prop :=
  (∀ (h : Vector Byte 8) (s : State),
    exec (.hdr h) s = .next { s with record := { s.record with header := h }, cur := 8, seq := .row .mfgid }) ∧
  (∀ s : State, StandsAt s (.row .hdr) → ∃ h : Vector Byte 8, fetch s = .ok (.hdr h) ∧ ∀ i : Fin 8, h[i] = byteAt s i.val)

/-- The three letters of R91 and R98: `0x40 + f`; for the six field values outside 1 to 26 this is the recommended `MFG_OOR` (log 14).
The fields are the bits 14..10, 9..5 and 4..0 of the pair, the lower address in the high byte; bit 15 is ignored. -/
def Obligations.MfgidGivesThreeLetters : Prop :=
  (∀ (x : Bit) (a b c : BitVec 5) (s : State), ∃ l0 l1 l2 : Byte,
    l0.toNat = 0x40 + a.toNat ∧ l1.toNat = 0x40 + b.toNat ∧ l2.toNat = 0x40 + c.toNat ∧
    exec (.mfgid x a b c) s =
      .next { s with record := { s.record with mfg := #v[l0, l1, l2] }, cur := 10, seq := .row .prod }) ∧
  (∀ s : State, StandsAt s (.row .mfgid) → ∃ (x : Bit) (a b c : BitVec 5), fetch s = .ok (.mfgid x a b c) ∧
    let w := (byteAt s 8).toNat * 256 + (byteAt s 9).toNat
    a.toNat = w / 2 ^ 10 % 2 ^ 5 ∧ b.toNat = w / 2 ^ 5 % 2 ^ 5 ∧ c.toNat = w % 2 ^ 5)

/-- R92: the product code is the little-endian pair. -/
def Obligations.ProdIsLittleEndian : Prop :=
  (∀ (lo hi : Byte) (s : State), ∃ v : BitVec 16, v.toNat = lo.toNat + 2 ^ 8 * hi.toNat ∧
    exec (.prod lo hi) s = .next { s with record := { s.record with product := v }, cur := 12, seq := .row .sernum }) ∧
  (∀ s : State, StandsAt s (.row .prod) → fetch s = .ok (.prod (byteAt s 10) (byteAt s 11)))

/-- R93: the serial number is the little-endian group of four. -/
def Obligations.SernumIsLittleEndian : Prop :=
  (∀ (a b c d : Byte) (s : State), ∃ v : BitVec 32,
    v.toNat = a.toNat + 2 ^ 8 * b.toNat + 2 ^ 16 * c.toNat + 2 ^ 24 * d.toNat ∧
    exec (.sernum a b c d) s = .next { s with record := { s.record with serial := v }, cur := 16, seq := .row .mweek }) ∧
  (∀ s : State, StandsAt s (.row .sernum) →
    fetch s = .ok (.sernum (byteAt s 12) (byteAt s 13) (byteAt s 14) (byteAt s 15)))

/-- R94, R96, R97, R102, R103, R150: the operations that copy one byte to one register, each at its offset. -/
def Obligations.OneByteOperationsCopyTheirByte : Prop :=
  (∀ (v : Byte) (s : State),
    exec (.mweek v) s = .next { s with record := { s.record with week := v }, cur := 17, seq := .row .myear } ∧
    exec (.ever v) s = .next { s with record := { s.record with version := v }, cur := 19, seq := .row .erev } ∧
    exec (.erev v) s = .next { s with record := { s.record with revision := v }, cur := 20, seq := .row .vidin } ∧
    exec (.hsize v) s = .next { s with record := { s.record with hsizeCm := v }, cur := 22, seq := .row .vsize } ∧
    exec (.vsize v) s = .next { s with record := { s.record with vsizeCm := v }, cur := 23, seq := .row .gamma } ∧
    exec (.extc v) s = .next { s with record := { s.record with extCount := v }, cur := 127, seq := .finish }) ∧
  (∀ s : State,
    (StandsAt s (.row .mweek) → fetch s = .ok (.mweek (byteAt s 16))) ∧
    (StandsAt s (.row .ever) → fetch s = .ok (.ever (byteAt s 18))) ∧
    (StandsAt s (.row .erev) → fetch s = .ok (.erev (byteAt s 19))) ∧
    (StandsAt s (.row .hsize) → fetch s = .ok (.hsize (byteAt s 21))) ∧
    (StandsAt s (.row .vsize) → fetch s = .ok (.vsize (byteAt s 22))) ∧
    (StandsAt s (.row .extc) → fetch s = .ok (.extc (byteAt s 126))))

/-- R95: the year is the byte plus 1990, for every byte, 255 included. -/
def Obligations.MyearAdds1990 : Prop :=
  (∀ (v : Byte) (s : State), ∃ y : BitVec 12, y.toNat = v.toNat + 1990 ∧
    exec (.myear v) s = .next { s with record := { s.record with year := y }, cur := 18, seq := .row .ever }) ∧
  (∀ s : State, StandsAt s (.row .myear) → fetch s = .ok (.myear (byteAt s 17)))

/-! ### Basic display parameters -/

/-- R100, R101: bit 7 of byte 20 selects the operation; each writes its own sub-fields and forces the other kind's to 0. -/
def Obligations.VidinSelectsDigitalOrAnalog : Prop :=
  (∀ (x : BitVec 6) (d : Bit) (s : State), exec (.vidinD x d) s =
    .next { s with record := { s.record with isDigital := 1, dfp := d, compositeSync := 0, syncOnGreen := 0 },
                   cur := 21, seq := .row .hsize }) ∧
  (∀ (x : BitVec 4) (c g x0 : Bit) (s : State), exec (.vidinA x c g x0) s =
    .next { s with record := { s.record with isDigital := 0, syncOnGreen := g, compositeSync := c, dfp := 0 },
                   cur := 21, seq := .row .hsize }) ∧
  (∀ s : State, StandsAt s (.row .vidin) →
    ((byteAt s 20).getLsbD 7 = true → ∃ (x : BitVec 6) (d : Bit), fetch s = .ok (.vidinD x d) ∧ d.toNat = bits (byteAt s 20) 0 0) ∧
    ((byteAt s 20).getLsbD 7 = false → ∃ (x : BitVec 4) (c g x0 : Bit), fetch s = .ok (.vidinA x c g x0) ∧
      g.toNat = bits (byteAt s 20) 1 1 ∧ c.toNat = bits (byteAt s 20) 2 2))

/-- R104: the register holds the byte plus 100, and the gamma value is exactly byte / 100 + 1. -/
def Obligations.GammaIsExact : Prop :=
  (∀ (v : Byte) (s : State), ∃ g : BitVec 9, g.toNat = v.toNat + 100 ∧
    (∀ r : Record, ({ r with gammaX100 := g } : Record).gamma = (v.toNat : ℚ) / 100 + 1) ∧
    exec (.gamma v) s = .next { s with record := { s.record with gammaX100 := g }, cur := 24, seq := .row .feat }) ∧
  (∀ s : State, StandsAt s (.row .gamma) → fetch s = .ok (.gamma (byteAt s 23)))

/-- R105: three flags and the raw display type, whatever `IS_DIGITAL` is; the three low bits are ignored. -/
def Obligations.FeatStoresFlagsAndRawType : Prop :=
  (∀ (sb u a : Bit) (t : BitVec 2) (x : BitVec 3) (s : State), exec (.feat sb u a t x) s =
    .next { s with record := { s.record with dpmsStandby := sb, dpmsSuspend := u, dpmsActiveoff := a, displayType := t },
                   cur := 25, seq := .row .chroma }) ∧
  (∀ s : State, StandsAt s (.row .feat) → ∃ (sb u a : Bit) (t : BitVec 2) (x : BitVec 3), fetch s = .ok (.feat sb u a t x) ∧
    sb.toNat = bits (byteAt s 24) 7 7 ∧ u.toNat = bits (byteAt s 24) 6 6 ∧ a.toNat = bits (byteAt s 24) 5 5 ∧
    t.toNat = bits (byteAt s 24) 4 3)

/-- The display type is the pair (R106), resolved from the stored predicate (R107): two records have the same variant exactly when
they agree in both registers. The labels are the model's (log 21). -/
def Obligations.DisplayVariantIsThePair : Prop :=
  ∀ r q : Record, r.displayVariant = q.displayVariant ↔ r.isDigital = q.isDigital ∧ r.displayType = q.displayType

/-! ### Chromaticity and established timings -/

/-- R110, R111: each coordinate register is `4 * MSB + lane`, with the lane's byte and shift from the table, and the coordinate is the
register over 1024; the bounds 1023 and 1023/1024 are those the spec derives in R112. -/
def Obligations.ChromaReassemblesEightCoordinates : Prop :=
  (∀ (c : Chroma) (s : State), ∃ v : Fin 8 → BitVec 10,
    (∀ i : Fin 8, (v i).toNat = 4 * c.m[i].toNat +
      (#v[c.rxLo, c.ryLo, c.gxLo, c.gyLo, c.bxLo, c.byLo, c.wxLo, c.wyLo][i]).toNat ∧ (v i).toNat ≤ 1023 ∧
      coordinate (v i) = ((v i).toNat : ℚ) / 1024 ∧ 0 ≤ coordinate (v i) ∧ coordinate (v i) ≤ 1023 / 1024) ∧
    exec (.chroma c) s = .next { s with
      record := { s.record with
        redX := v 0, redY := v 1, greenX := v 2, greenY := v 3, blueX := v 4, blueY := v 5, whiteX := v 6, whiteY := v 7 },
      cur := 35, seq := .row .est1 }) ∧
  (∀ s : State, StandsAt s (.row .chroma) → ∃ c : Chroma, fetch s = .ok (.chroma c) ∧ ∀ i : Fin 8,
    c.m[i] = byteAt s (27 + i.val) ∧
    (#v[c.rxLo, c.ryLo, c.gxLo, c.gyLo, c.bxLo, c.byLo, c.wxLo, c.wyLo][i]).toNat =
      (byteAt s (25 + i.val / 4)).toNat / 2 ^ (6 - 2 * (i.val % 4)) % 4)

/-- R115, R116, R117: each operation writes its own indices of `EST_MASK`, most significant bit first, and keeps the others. -/
def Obligations.EstablishedTimingsFillTheMask : Prop :=
  (∀ (v : Byte) (s : State), ∃ m : BitVec 17,
    (∀ i, m.getLsbD i = if i < 8 then v.getLsbD (7 - i) else s.record.estMask.getLsbD i) ∧
    exec (.est1 v) s = .next { s with record := { s.record with estMask := m }, cur := 36, seq := .row .est2 }) ∧
  (∀ (v : Byte) (s : State), ∃ m : BitVec 17,
    (∀ i, m.getLsbD i = if 8 ≤ i ∧ i < 16 then v.getLsbD (15 - i) else s.record.estMask.getLsbD i) ∧
    exec (.est2 v) s = .next { s with record := { s.record with estMask := m }, cur := 37, seq := .row .est3 }) ∧
  (∀ (v : Bit) (x : BitVec 7) (s : State), ∃ m : BitVec 17,
    (∀ i, m.getLsbD i = if i = 16 then v.getLsbD 0 else s.record.estMask.getLsbD i) ∧
    exec (.est3 v x) s = .next { s with record := { s.record with estMask := m }, cur := 38, seq := .row (.stdt 0) }) ∧
  (∀ s : State,
    (StandsAt s (.row .est1) → fetch s = .ok (.est1 (byteAt s 35))) ∧
    (StandsAt s (.row .est2) → fetch s = .ok (.est2 (byteAt s 36))) ∧
    (StandsAt s (.row .est3) → ∃ (v : Bit) (x : BitVec 7), fetch s = .ok (.est3 v x) ∧ v.getLsbD 0 = (byteAt s 37).getLsbD 7))

/-- R118: the list of supported modes is in ascending index order, has exactly the indices whose bit is set, and names each from the
table, whatever the labels of the table are. -/
def Obligations.EstablishedListIsInScanOrder : Prop :=
  ∀ (p : Config.Params) (r : Record), ∃ l : List (Fin 17), l.Pairwise (fun i j => i.val < j.val) ∧ (∀ i, i ∈ l ↔ r.estMask.getLsbD i.val = true) ∧
    r.estList p = l.map (fun i => p.estName[i])

/-! ### Standard timings -/

/-- R120, R121, R122: width, height (multiply, then truncate), aspect code and refresh of an entry, for every pair of bytes; the other
entries are kept. -/
def Obligations.StdtComputesTheTiming : Prop :=
  (∀ (k : Fin 8) (w : Byte) (a : BitVec 2) (r : BitVec 6) (s : State), ∃ e : StdEntry,
    e.w.toNat = (w.toNat + 31) * 8 ∧ e.aspect = a ∧ e.refresh.toNat = r.toNat + 60 ∧
    e.h.toNat =
      (if a = 0 then (w.toNat + 31) * 8 * 10 / 16
       else if a = 1 then (w.toNat + 31) * 8 * 3 / 4
       else if a = 2 then (w.toNat + 31) * 8 * 4 / 5
       else (w.toNat + 31) * 8 * 9 / 16) ∧
    exec (.stdt k w a r) s = .next { s with
      record := { s.record with std := s.record.std.set k e }, cur := s.cur + 2,
      seq := if h : k.val < 7 then .row (.stdt ⟨k.val + 1, by omega⟩) else .row (.desc 0) }) ∧
  (∀ (s : State) (k : Fin 8), StandsAt s (.row (.stdt k)) → ∃ (a : BitVec 2) (r : BitVec 6),
    fetch s = .ok (.stdt k (byteAt s (38 + 2 * k.val)) a r) ∧
    a.toNat = bits (byteAt s (39 + 2 * k.val)) 7 6 ∧ r.toNat = bits (byteAt s (39 + 2 * k.val)) 5 0)

/-! ### Descriptors -/

/-- The choice of R125: the 16-bit clock first, the tag only when it is zero. DESC writes no register; its `cur <- cur + 18` is
the end of the branch (log 3, `EachBlockConsumes18Bytes`). -/
def Obligations.DescSelectsTheBranch : Prop :=
  (∀ (k : Fin 4) (p0 p1 x2 t : Byte) (x : Vector Byte 14) (s : State), ∃ b : Branch,
    exec (.desc k p0 p1 x2 t x) s = .next { s with seq := .branch k b } ∧
    (if p0.toNat + 256 * p1.toNat ≠ 0 then b = .geo
     else if t = 0xFF then b = .ser
     else if t = 0xFC then b = .name
     else if t = 0xFD then b = .range
     else b = .skip)) ∧
  (∀ (s : State) (k : Fin 4), StandsAt s (.row (.desc k)) → ∃ x : Vector Byte 14,
    fetch s = .ok (.desc k (byteAt s (54 + 18 * k.val)) (byteAt s (55 + 18 * k.val)) (byteAt s (56 + 18 * k.val))
      (byteAt s (57 + 18 * k.val)) x))

/-- R128, R129: the thirteen geometry fields of the entry at `DTD_COUNT`, and where they lie in the block's bytes; the entry's flag
fields, the other entries and the count are kept. -/
def Obligations.DtdGeoReassemblesTheGeometry : Prop :=
  (∀ (k : Fin 4) (g : Geo) (s : State) (h : s.record.dtdCount.toNat < 4), ∃ e : DtdEntry,
    let old := s.record.dtd[s.record.dtdCount.toNat]
    e.pixclkKhz.toNat = (g.pLo.toNat + 256 * g.pHi.toNat) * 10 ∧
    e.hactive.toNat = g.aHi.toNat * 256 + g.aLo.toNat ∧ e.hblank.toNat = g.bHi.toNat * 256 + g.bLo.toNat ∧
    e.vactive.toNat = g.cHi.toNat * 256 + g.cLo.toNat ∧ e.vblank.toNat = g.dHi.toNat * 256 + g.dLo.toNat ∧
    e.hsyncOff.toNat = g.eHi.toNat * 256 + g.eLo.toNat ∧ e.hsyncPw.toNat = g.fHi.toNat * 256 + g.fLo.toNat ∧
    e.vsyncOff.toNat = g.gHi.toNat * 16 + g.gLo.toNat ∧ e.vsyncPw.toNat = g.hHi.toNat * 16 + g.hLo.toNat ∧
    e.hsizeMm.toNat = g.iHi.toNat * 256 + g.iLo.toNat ∧ e.vsizeMm.toNat = g.jHi.toNat * 256 + g.jLo.toNat ∧
    e.hborder = g.k ∧ e.vborder = g.l ∧
    e.interlaced = old.interlaced ∧ e.stereo = old.stereo ∧ e.syncType = old.syncType ∧ e.vsyncPol = old.vsyncPol ∧
    e.hsyncPol = old.hsyncPol ∧
    exec (.dtdGeo k g) s = .next { s with
      record := { s.record with dtd := s.record.dtd.set s.record.dtdCount.toNat e }, seq := .branch k .flg }) ∧
  (∀ (s : State) (k : Fin 4), StandsAt s (.branch k .geo) → branchAt s.snap k.val = .geo → ∃ g : Geo,
    let d := fun j => byteAt s (54 + 18 * k.val + j)
    fetch s = .ok (.dtdGeo k g) ∧ g.pLo = d 0 ∧ g.pHi = d 1 ∧
    g.aLo = d 2 ∧ g.aHi.toNat = bits (d 4) 7 4 ∧ g.bLo = d 3 ∧ g.bHi.toNat = bits (d 4) 3 0 ∧
    g.cLo = d 5 ∧ g.cHi.toNat = bits (d 7) 7 4 ∧ g.dLo = d 6 ∧ g.dHi.toNat = bits (d 7) 3 0 ∧
    g.eLo = d 8 ∧ g.eHi.toNat = bits (d 11) 7 6 ∧ g.fLo = d 9 ∧ g.fHi.toNat = bits (d 11) 5 4 ∧
    g.gLo.toNat = bits (d 10) 7 4 ∧ g.gHi.toNat = bits (d 11) 3 2 ∧
    g.hLo.toNat = bits (d 10) 3 0 ∧ g.hHi.toNat = bits (d 11) 1 0 ∧
    g.iLo = d 12 ∧ g.iHi.toNat = bits (d 14) 7 4 ∧ g.jLo = d 13 ∧ g.jHi.toNat = bits (d 14) 3 0 ∧
    g.k = d 15 ∧ g.l = d 16)

/-- The five flag fields of the entry at `DTD_COUNT` (R134 to R137), its geometry kept, the count one more. That this last operation of
the branch also runs R125's `cur <- cur + 18` is log 3. -/
def Obligations.DtdFlgDecodesTheFlags : Prop :=
  (∀ (k : Fin 4) (n : Bit) (sf ty : BitVec 2) (u r z : Bit) (s : State) (h : s.record.dtdCount.toNat < 4),
    ∃ (st : BitVec 3) (vp hp : Bit) (c : BitVec 3),
    (sf = 0 → st = 0) ∧ (sf = 1 ∧ z = 0 → st = 1) ∧ (sf = 2 ∧ z = 0 → st = 2) ∧ (sf = 1 ∧ z = 1 → st = 3) ∧
    (sf = 2 ∧ z = 1 → st = 4) ∧ (sf = 3 ∧ z = 0 → st = 5) ∧ (sf = 3 ∧ z = 1 → st = 6) ∧
    (ty = 3 → vp = u ∧ hp = r) ∧ (ty ≠ 3 → vp = 0 ∧ hp = 0) ∧
    c.toNat = s.record.dtdCount.toNat + 1 ∧
    exec (.dtdFlg k n sf ty u r z) s = .next { s with
      record := { s.record with
        dtd := s.record.dtd.set s.record.dtdCount.toNat { s.record.dtd[s.record.dtdCount.toNat] with
          interlaced := n, stereo := st, syncType := ty, vsyncPol := vp, hsyncPol := hp }
        dtdCount := c },
      cur := s.cur + 18, seq := if h : k.val < 3 then .row (.desc ⟨k.val + 1, by omega⟩) else .row .extc }) ∧
  (∀ (s : State) (k : Fin 4), StandsAt s (.branch k .flg) → ∃ (n : Bit) (sf ty : BitVec 2) (u r z : Bit),
    let f := byteAt s (71 + 18 * k.val)
    fetch s = .ok (.dtdFlg k n sf ty u r z) ∧ n.toNat = bits f 7 7 ∧ sf.toNat = bits f 6 5 ∧ ty.toNat = bits f 4 3 ∧
    u.toNat = bits f 2 2 ∧ r.toNat = bits f 1 1 ∧ z.toNat = bits f 0 0)

/-- The 13 bytes of R140 as they are; the name slot is not touched. That a later block overwrites the slot is log 13, and that this
operation also runs R125's `cur <- cur + 18` is log 3. -/
def Obligations.MserStoresTheTextUnchanged : Prop :=
  (∀ (k : Fin 4) (x2 x4 : Byte) (t : Vector Byte 13) (s : State), exec (.mser k x2 x4 t) s = .next { s with
      record := { s.record with sertxt := t, sertxtLen := 13 }, cur := s.cur + 18,
      seq := if h : k.val < 3 then .row (.desc ⟨k.val + 1, by omega⟩) else .row .extc }) ∧
  (∀ (s : State) (k : Fin 4), StandsAt s (.branch k .ser) → branchAt s.snap k.val = .ser → ∃ (x2 x4 : Byte) (t : Vector Byte 13),
    fetch s = .ok (.mser k x2 x4 t) ∧ ∀ j : Fin 13, t[j] = byteAt s (59 + 18 * k.val + j.val))

/-- The stripped and trimmed text of R141, its length, and zero bytes from there on; the serial slot is not touched (R146). The sets of
STRIP_TRIM are log 12, that a later block overwrites the slot is log 13, and that this operation also runs R125's `cur <- cur + 18` is
log 3. -/
def Obligations.MnameStoresTheTrimmedText : Prop :=
  (∀ (k : Fin 4) (x2 x4 : Byte) (t : Vector Byte 13) (s : State), ∃ (n : List Byte) (name : Vector Byte 13) (len : BitVec 4),
    n = stripTrim params t.toList ∧ len.toNat = n.length ∧ n.length ≤ 13 ∧
    (∀ (j : Fin 13) (h : j.val < n.length), name[j] = n[j.val]) ∧ (∀ j : Fin 13, n.length ≤ j.val → name[j] = 0) ∧
    exec (.mname k x2 x4 t) s = .next { s with
      record := { s.record with name := name, nameLen := len }, cur := s.cur + 18,
      seq := if h : k.val < 3 then .row (.desc ⟨k.val + 1, by omega⟩) else .row .extc }) ∧
  (∀ (s : State) (k : Fin 4), StandsAt s (.branch k .name) → branchAt s.snap k.val = .name → ∃ (x2 x4 : Byte) (t : Vector Byte 13),
    fetch s = .ok (.mname k x2 x4 t) ∧ ∀ j : Fin 13, t[j] = byteAt s (59 + 18 * k.val + j.val))

/-- STRIP_TRIM of R142 with the recommended sets (log 12): every newline byte is removed, then whitespace is trimmed from both ends and
from nowhere else. -/
def Obligations.StripTrimRemovesNewlinesAndOuterSpace : Prop :=
  ∀ t : List Byte,
    let ws : List Byte := [0x09, 0x0A, 0x0B, 0x0C, 0x0D, 0x20]
    let out := stripTrim params t
    ∃ front back : List Byte, t.filter (· ≠ 0x0A) = front ++ out ++ back ∧
      (∀ c ∈ front, c ∈ ws) ∧ (∀ c ∈ back, c ∈ ws) ∧ (∀ c, out.head? = some c → c ∉ ws) ∧ (∀ c, out.getLast? = some c → c ∉ ws)

/-- A new range-limit entry at `RNG_COUNT` (R143), the others kept, the count one more. That this operation also runs R125's
`cur <- cur + 18` is log 3. -/
def Obligations.MrlAppendsTheRangeLimits : Prop :=
  (∀ (k : Fin 4) (x2 x4 vmin vmax hmin hmax c : Byte) (x : Vector Byte 8) (s : State) (h : s.record.rngCount.toNat < 4),
    ∃ (m : BitVec 12) (n : BitVec 3), m.toNat = c.toNat * 10 ∧ n.toNat = s.record.rngCount.toNat + 1 ∧
    exec (.mrl k x2 x4 vmin vmax hmin hmax c x) s = .next { s with
      record := { s.record with
        rng := s.record.rng.set s.record.rngCount.toNat
          { vminHz := vmin, vmaxHz := vmax, hminKhz := hmin, hmaxKhz := hmax, maxclkMhz := m }
        rngCount := n },
      cur := s.cur + 18, seq := if h : k.val < 3 then .row (.desc ⟨k.val + 1, by omega⟩) else .row .extc }) ∧
  (∀ (s : State) (k : Fin 4), StandsAt s (.branch k .range) → branchAt s.snap k.val = .range →
    ∃ (x2 x4 : Byte) (x : Vector Byte 8), let d := fun j => byteAt s (54 + 18 * k.val + j)
    fetch s = .ok (.mrl k x2 x4 (d 5) (d 6) (d 7) (d 8) (d 9) x))

/-- R144: a discarded block changes no register but the cursor, which moves by 18. That this operation itself runs R125's
`cur <- cur + 18` is log 3. -/
def Obligations.DskipChangesNoRegister : Prop :=
  (∀ (k : Fin 4) (x2 y : Byte) (x : Vector Byte 14) (s : State), exec (.dskip k x2 y x) s = .next { s with
      cur := s.cur + 18, seq := if h : k.val < 3 then .row (.desc ⟨k.val + 1, by omega⟩) else .row .extc }) ∧
  (∀ (s : State) (k : Fin 4), StandsAt s (.branch k .skip) → branchAt s.snap k.val = .skip →
    ∃ (x2 : Byte) (x : Vector Byte 14), fetch s = .ok (.dskip k x2 (byteAt s (57 + 18 * k.val)) x))

/-- The loop body of R125 to R127, with `NAME_POLICY = last` (log 13) and the recommended text sets (log 12), DESC and its
branch in steps of their own (log 3): from DESC `k` the block runs in two steps, or in three for a detailed timing, to the next row; the
cursor has moved by exactly 18, and the record has absorbed what this block's own bytes give: a new timing, a serial text, a name, a new range
limit, or nothing. -/
def Obligations.EachBlockConsumes18Bytes : Prop :=
  ∀ (s : State) (k : Fin 4), StandsAt s (.row (.desc k)) → s.record.dtdCount.toNat + s.record.rngCount.toNat ≤ k.val →
    let c := contribution params fun j => byteAt s (54 + 18 * k.val + j)
    ∃ n, (n = 2 ∨ n = 3) ∧ Sys2Proof.core.run n s = .next { s with
      record := absorb s.record c, cur := s.cur + 18,
      seq := if h : k.val < 3 then .row (.desc ⟨k.val + 1, by omega⟩) else .row .extc }

/-- With four entries in a register file an append stops (log 18); R22 says that no decode comes there. -/
def Obligations.FullFileStopsAnAppend : Prop :=
  ∀ (s : State) (k : Fin 4),
    (4 ≤ s.record.dtdCount.toNat → (∀ g, exec (.dtdGeo k g) s = .fault .fileFull) ∧
      ∀ n sf ty u r z, exec (.dtdFlg k n sf ty u r z) s = .fault .fileFull) ∧
    (4 ≤ s.record.rngCount.toNat → ∀ x2 x4 vmin vmax hmin hmax c x, exec (.mrl k x2 x4 vmin vmax hmin hmax c x) s = .fault .fileFull)

/-! ### Frames -/

/-- Every operation of the schedule leaves `CTRL`, `LEN`, the latched length, the snapshot, the host's side and every byte of `IN` as
they were (R41), and all but LENCHK leave the status registers. -/
def Obligations.ScheduleFrame : Prop :=
  ∀ (i : Instr) (s t : State), scheduled i = true → exec i s = .next t →
    t.ctrl = s.ctrl ∧ t.len = s.len ∧ t.lenLatched = s.lenLatched ∧ t.snap = s.snap ∧ t.host = s.host ∧
    t.readData = s.readData ∧ t.draws = s.draws ∧ (∀ a, t.input.read a = s.input.read a) ∧
    (i ≠ .lenchk → t.status = s.status ∧ t.errCode = s.errCode ∧ t.recValid = s.recValid)

/-- Every operation leaves each record register that it is not said to write (R27, the "writes" column of the opcode table). -/
def Obligations.RecordRegistersKeepTheirWriters : Prop :=
  ∀ (i : Instr) (s t : State) (g : RecReg), exec i s = .next t → writes i s.record g = false →
    t.record.reading g = s.record.reading g

/-- R41: no step but the host's own write changes a byte of `IN`. -/
def Obligations.OnlyTheHostWritesInput : Prop :=
  ∀ s t : State, step s = .next t → (∀ a b es, s.ctrl = 0 → s.host ≠ .writeIn a b :: es) →
    t.input = s.input ∧ ∀ a, t.input.read a = s.input.read a

/-- R154: two operations after LENCHK run in either order with the same record, unless they are of one row, or both are operations of
descriptor branches. -/
def Obligations.OrderOfOperationsDoesNotMatter : Prop :=
  ∀ (i j : Instr) (s t u : State), scheduled i = true → scheduled j = true → i ≠ .lenchk → j ≠ .lenchk → i.slot ≠ j.slot →
    ¬((∃ k b, i.slot = .sched (.branch k b)) ∧ ∃ k b, j.slot = .sched (.branch k b)) →
    exec i s = .next t → exec j t = .next u →
    ∃ t' u', exec j s = .next t' ∧ exec i t' = .next u' ∧ u'.record = u.record

/-! ### The whole machine -/

/-- The invariant holds in the machine's first state. -/
def Obligations.InvariantHoldsAtReset : Prop := Safety.Inv State.reset

/-- Every step keeps the invariant: the canonical form of memory, the agreement of the status registers, the cursor of R61, the
register files of R20 to R22, the texts of R23, the absent record of R164, and the range columns of R13, R15, R19, R20, R21. -/
def Obligations.InvariantIsKeptByEveryStep : Prop := ∀ s t : State, Safety.Inv s → step s = .next t → Safety.Inv t

/-- R47, R52, R22: under the invariant no step faults. -/
def Obligations.NoStepFaults : Prop := ∀ s : State, Safety.Inv s → ∀ f : Fault, step s ≠ .fault f

/-- A step is refused exactly when the host breaks its protocol (R27, R186, R188), in the sense of log 9: a changing write of `LEN` or
`IN[0..127]` while `BUSY`, a START while `BUSY`, a write of a register other than `CTRL` and `LEN`. -/
def Obligations.RefusalsAreHostViolations : Prop :=
  ∀ (s : State) (r : Refusal), step s = .refused r ↔ HostViolation s r

/-- Every decode ends, in `DONE` or in `ERR` (R156). The bound of 41 steps is the model's: one operation a step (log 1), with DESC and
its branch in steps of their own (log 3), the host silent (log 8). -/
def Obligations.EveryDecodeEnds : Prop :=
  ∀ s : State, Safety.Inv s → s.status = .busy → s.ctrl = 0 → s.host = [] →
    ∃ n t, n ≤ 41 ∧ Sys2Proof.core.run n s = .next t ∧ (t.status = .done ∨ t.status = .err)

/-- The transaction of R151, R153 and R163, one operation a step (log 1), with the recommended parameters (logs 12, 13, 14): a START and
the steps that follow compute the pure function `DECODE` of the length and the input, register by register, and change nothing else.
The first step takes the START (log 11) and copies the input to the snapshot (log 5); that the sequencer ends at row 0, with the snapshot
and the latched length kept, is log 23. -/
def Obligations.DecodeIsThePureFunction : Prop :=
  ∀ s : State, s.status ≠ .busy → s.ctrl = 1 → s.host = [] →
    Sys2Proof.core.run 42 s = .next
      (match decodeInput params (s.input.bytes s.len) with
       | .ok r => { s with ctrl := 0, status := .done, errCode := 0, recValid := 1, cur := 128, record := r, lenLatched := s.len,
                           snap := s.input.bytes 128, seq := .row .lenchk }
       | .error _ => { s with ctrl := 0, status := .err, errCode := 1, recValid := 0, cur := 0, record := .reset,
                              lenLatched := s.len, snap := s.input.bytes s.len, seq := .row .lenchk })

/-- R183, R156: the first and every later decode behave alike; two decodes, each of one operation a step (log 1) after the step that takes
its START (log 11), whose lengths are equal, or both at least 128, and whose first 128 bytes agree within the length give equal outcomes,
whatever the machine did before. -/
def Obligations.OutcomeDependsOnTheInputAlone : Prop :=
  ∀ s s' : State, s.status ≠ .busy → s'.status ≠ .busy → s.ctrl = 1 → s'.ctrl = 1 → s.host = [] → s'.host = [] →
    min s.len 128 = min s'.len 128 → (∀ a, a < min s.len 128 → s.input.read a = s'.input.read a) →
    ∃ t t', Sys2Proof.core.run 42 s = .next t ∧ Sys2Proof.core.run 42 s' = .next t' ∧
    t.record = t'.record ∧ t.status = t'.status ∧ t.errCode = t'.errCode ∧ t.recValid = t'.recValid ∧ t.cur = t'.cur
end

