-- ==== Sys2Proof/Laws/Decode.lean ====
section
/-! SUPPORT. The laws of the decoder: the byte patterns of R62 read back field by field, the classifier in terms of the
bytes, and decoding after encoding, one lemma per constructor (the family RoundTrip of Laws/PerInstr.lean). -/

namespace Sys2Proof.Laws

/-! ### Repeat groups -/

@[simp] theorem withBytes_append {n : Nat} (v : Vector Byte n) (rest : List Byte) (f : Vector Byte n → Instr) :
    withBytes n (v.toList ++ rest) f = .ok (f v) := by
  obtain ⟨a, ha⟩ := v
  subst ha
  simp [withBytes, Vector.toList]

/-! ### Byte patterns, most significant field first -/

theorem byte_1_5_2 : ∀ (x : BitVec 1) (a : BitVec 5) (e : BitVec 2),
    (x ++ a ++ e).extractLsb' 7 1 = x ∧ (x ++ a ++ e).extractLsb' 2 5 = a ∧ (x ++ a ++ e).extractLsb' 0 2 = e := by
  decide

theorem byte_3_5 : ∀ (e : BitVec 3) (c : BitVec 5), (e ++ c).extractLsb' 5 3 = e ∧ (e ++ c).extractLsb' 0 5 = c := by
  decide

theorem join_2_3 : ∀ b : BitVec 5, b.extractLsb' 3 2 ++ b.extractLsb' 0 3 = b := by decide

theorem byte_1_6_1 : ∀ (y : BitVec 1) (x : BitVec 6) (d : BitVec 1),
    (y ++ x ++ d).extractLsb' 7 1 = y ∧ (y ++ x ++ d).extractLsb' 1 6 = x ∧ (y ++ x ++ d).extractLsb' 0 1 = d := by
  decide

theorem byte_1_4_1_1_1 : ∀ (y : BitVec 1) (x : BitVec 4) (c g z : BitVec 1),
    (y ++ x ++ c ++ g ++ z).extractLsb' 7 1 = y ∧ (y ++ x ++ c ++ g ++ z).extractLsb' 3 4 = x ∧
    (y ++ x ++ c ++ g ++ z).extractLsb' 2 1 = c ∧ (y ++ x ++ c ++ g ++ z).extractLsb' 1 1 = g ∧
    (y ++ x ++ c ++ g ++ z).extractLsb' 0 1 = z := by
  decide

theorem byte_1_1_1_2_3 : ∀ (s u a : BitVec 1) (t : BitVec 2) (x : BitVec 3),
    (s ++ u ++ a ++ t ++ x).extractLsb' 7 1 = s ∧ (s ++ u ++ a ++ t ++ x).extractLsb' 6 1 = u ∧
    (s ++ u ++ a ++ t ++ x).extractLsb' 5 1 = a ∧ (s ++ u ++ a ++ t ++ x).extractLsb' 3 2 = t ∧
    (s ++ u ++ a ++ t ++ x).extractLsb' 0 3 = x := by
  decide

theorem byte_2_2_2_2 : ∀ a b c d : BitVec 2,
    (a ++ b ++ c ++ d).extractLsb' 6 2 = a ∧ (a ++ b ++ c ++ d).extractLsb' 4 2 = b ∧
    (a ++ b ++ c ++ d).extractLsb' 2 2 = c ∧ (a ++ b ++ c ++ d).extractLsb' 0 2 = d := by
  decide

theorem byte_1_7 : ∀ (v : BitVec 1) (x : BitVec 7), (v ++ x).extractLsb' 7 1 = v ∧ (v ++ x).extractLsb' 0 7 = x := by
  decide

theorem byte_2_6 : ∀ (a : BitVec 2) (r : BitVec 6), (a ++ r).extractLsb' 6 2 = a ∧ (a ++ r).extractLsb' 0 6 = r := by
  decide

theorem byte_4_4 : ∀ a b : BitVec 4, (a ++ b).extractLsb' 4 4 = a ∧ (a ++ b).extractLsb' 0 4 = b := by decide

theorem byte_1_2_2_1_1_1 : ∀ (n : BitVec 1) (s t : BitVec 2) (u r z : BitVec 1),
    (n ++ s ++ t ++ u ++ r ++ z).extractLsb' 7 1 = n ∧ (n ++ s ++ t ++ u ++ r ++ z).extractLsb' 5 2 = s ∧
    (n ++ s ++ t ++ u ++ r ++ z).extractLsb' 3 2 = t ∧ (n ++ s ++ t ++ u ++ r ++ z).extractLsb' 2 1 = u ∧
    (n ++ s ++ t ++ u ++ r ++ z).extractLsb' 1 1 = r ∧ (n ++ s ++ t ++ u ++ r ++ z).extractLsb' 0 1 = z := by
  decide

/-! ### The classifier -/

theorem append_inj {n m : Nat} {a c : BitVec n} {b d : BitVec m} : a ++ b = c ++ d ↔ a = c ∧ b = d := by
  refine ⟨fun h => ?_, fun h => by rw [h.1, h.2]⟩
  have e1 : (a ++ b).extractLsb' m n = (c ++ d).extractLsb' m n := by rw [h]
  have e2 : (a ++ b).extractLsb' 0 m = (c ++ d).extractLsb' 0 m := by rw [h]
  rw [BitVec.extractLsb'_append_eq_of_le (le_refl m), BitVec.extractLsb'_append_eq_of_le (le_refl m)] at e1
  rw [BitVec.extractLsb'_append_eq_of_add_le (by omega), BitVec.extractLsb'_append_eq_of_add_le (by omega)] at e2
  simp only [Nat.sub_self, BitVec.extractLsb'_eq_self] at e1 e2
  exact ⟨e1, e2⟩

/-- The mask of the detailed timing branch keeps `D[0]` and `D[1]` alone. -/
theorem prefixWord_clock (d0 d1 d2 d3 : Byte) :
    prefixWord d0 d1 d2 d3 &&& 0xFFFF0000#32 = 0#32 ↔ d0 = 0 ∧ d1 = 0 := by
  have e : prefixWord d0 d1 d2 d3 &&& 0xFFFF0000#32 = d0 ++ d1 ++ 0#8 ++ 0#8 := by
    show ((d0 ++ d1 ++ d2 ++ d3) &&& (0xFF#8 ++ 0xFF#8 ++ 0#8 ++ 0#8) : BitVec (8 + 8 + 8 + 8)) = (d0 ++ d1 ++ 0#8 ++ 0#8)
    rw [BitVec.and_append, BitVec.and_append, BitVec.and_append]
    simp [show ∀ d : Byte, d &&& 0xFF#8 = d from by decide]
  rw [e]
  show (d0 ++ d1 ++ 0#8 ++ 0#8 : BitVec (8 + 8 + 8 + 8)) = 0#8 ++ 0#8 ++ 0#8 ++ 0#8 ↔ _
  rw [append_inj, append_inj, append_inj]
  simp

/-- The mask of the monitor branches keeps `D[0]`, `D[1]` and the tag `D[3]`. -/
theorem prefixWord_tag (d0 d1 d2 d3 t : Byte) :
    prefixWord d0 d1 d2 d3 &&& 0xFFFF00FF#32 = 0#24 ++ t ↔ d0 = 0 ∧ d1 = 0 ∧ d3 = t := by
  have e : prefixWord d0 d1 d2 d3 &&& 0xFFFF00FF#32 = d0 ++ d1 ++ 0#8 ++ d3 := by
    show ((d0 ++ d1 ++ d2 ++ d3) &&& (0xFF#8 ++ 0xFF#8 ++ 0#8 ++ 0xFF#8) : BitVec (8 + 8 + 8 + 8)) = (d0 ++ d1 ++ 0#8 ++ d3)
    rw [BitVec.and_append, BitVec.and_append, BitVec.and_append]
    simp [show ∀ d : Byte, d &&& 0xFF#8 = d from by decide]
  have z : (0#24 ++ t : BitVec 32) = (0#8 ++ 0#8 ++ 0#8 ++ t : BitVec (8 + 8 + 8 + 8)) := by
    rw [show (0#8 ++ 0#8 ++ 0#8 : BitVec (8 + 8 + 8)) = 0#24 from rfl]
  rw [e, z]
  show (d0 ++ d1 ++ 0#8 ++ d3 : BitVec (8 + 8 + 8 + 8)) = 0#8 ++ 0#8 ++ 0#8 ++ t ↔ _
  rw [append_inj, append_inj, append_inj]
  simp [and_assoc]

/-- The classifier of R65 byte by byte. -/
theorem classify_prefixWord (d0 d1 d2 d3 : Byte) :
    classify (prefixWord d0 d1 d2 d3) =
      if d0 = 0 ∧ d1 = 0 then
        if d3 = 0xFF then .ser else if d3 = 0xFC then .name else if d3 = 0xFD then .range else .skip
      else .geo := by
  have tag (t : Byte) (h : d0 = 0 ∧ d1 = 0) :
      prefixWord d0 d1 d2 d3 &&& 0xFFFF00FF#32 = 0#24 ++ t ↔ d3 = t := by
    rw [prefixWord_tag]; tauto
  unfold classify
  by_cases h : d0 = 0 ∧ d1 = 0
  · rw [if_neg (by simpa using (prefixWord_clock d0 d1 d2 d3).2 h), if_pos h]
    have e1 := tag 0xFF h
    have e2 := tag 0xFC h
    have e3 := tag 0xFD h
    simp only [show (0#24 ++ (0xFF : Byte) : BitVec 32) = 0x000000FF#32 from rfl,
      show (0#24 ++ (0xFC : Byte) : BitVec 32) = 0x000000FC#32 from rfl,
      show (0#24 ++ (0xFD : Byte) : BitVec 32) = 0x000000FD#32 from rfl] at e1 e2 e3
    simp only [e1, e2, e3]
  · rw [if_pos (fun h' => h ((prefixWord_clock d0 d1 d2 d3).1 h')), if_neg h]

end Sys2Proof.Laws
end

