-- ==== Sys2Proof/Laws/Fetch.lean ====
section
/-! SUPPORT. What the sequencer finds at a place: the bytes of the snapshot from the place's offset on. -/

namespace Sys2Proof.Safety

open Sys2Proof.Machine

/-- Byte `n` of a snapshot of `m` bytes comes first from offset `n` on. -/
theorem drop_snap {s : State} {n m : Nat} (hl : s.snap.length = m) (h : n < m) :
    s.snap.drop n = byteAt s n :: s.snap.drop (n + 1) := by
  rw [List.drop_eq_getElem_cons (by omega)]
  simp [byteAt, List.getD_eq_getElem?_getD, List.getElem?_eq_getElem (by omega : n < s.snap.length)]

/-- A repeat group that is long enough is decoded, byte by byte. -/
theorem withBytes_of_le {n : Nat} {bs : List Byte} (h : n ≤ bs.length) (f : Vector Byte n → Instr) :
    ∃ v : Vector Byte n, withBytes n bs f = .ok (f v) ∧ ∀ i : Fin n, v[i] = bs.getD i.val 0 := by
  refine ⟨_, dif_pos h, fun i => ?_⟩
  have : i.val < bs.length := by omega
  simp [List.getD_eq_getElem?_getD, this]

/-- At a place the fetch decodes the snapshot from the place's offset on. -/
theorem fetch_of_standsAt {s : State} {p : Place} (h : StandsAt s p) :
    fetch s = decode (.sched p) (s.snap.drop (p.cursor + p.skip)) := by
  obtain ⟨-, -, -, hs, hc, -⟩ := h
  rw [fetch, hs, hc]

/-- At a row the first byte is the one at the row's offset. -/
theorem drop_row {s : State} {r : Row} (h : StandsAt s (.row r)) (hr : r.offset < 128) :
    s.snap.drop ((Place.row r).cursor + (Place.row r).skip) = byteAt s r.offset :: s.snap.drop (r.offset + 1) :=
  drop_snap h.2.2.2.2.2 hr

/-- The row after a descriptor block. -/
theorem next_desc (k : Fin 4) :
    (Row.desc k).next = if h : k.val < 3 then .row (.desc ⟨k.val + 1, by omega⟩) else .row .extc := by
  fin_cases k <;> rfl

end Sys2Proof.Safety
end

