-- ==== Sys2Proof/Laws/Memory.lean ====
section
/-! SUPPORT. The laws of the input space: reading after writing, and that writing keeps the canonical form. -/

namespace Sys2Proof.Machine.Memory

@[simp] theorem wf_nil : Memory.wf [] = true := rfl

theorem wf_cons {a : Nat} {b : Byte} {m : Memory} :
    Memory.wf ((a, b) :: m) = true ↔ b ≠ Memory.unlisted ∧ (∀ c ∈ m, a < c.1) ∧ Memory.wf m = true := by
  simp [Memory.wf, and_assoc]

/-- An address below every listed one reads as unlisted. -/
theorem read_below {m : Memory} {a : Nat} (h : ∀ c ∈ m, a < c.1) : m.read a = Memory.unlisted := by
  induction m with
  | nil => rfl
  | cons x m ih =>
    have hx : a < x.1 := h x (by simp)
    have : x.1 ≠ a := by omega
    simp only [Memory.read, this, if_false]
    exact ih fun c hc => h c (by simp [hc])

/-- A write changes no address but its own, and gives that one the byte written. -/
theorem read_write {m : Memory} (hm : m.wf = true) (a x : Nat) (b : Byte) :
    (m.write a b).read x = if x = a then b else m.read x := by
  induction m with
  | nil =>
    by_cases hb : b = Memory.unlisted
    · simp [Memory.write, Memory.read, hb]
    · simp [Memory.write, Memory.read, hb, eq_comm]
  | cons y m ih =>
    obtain ⟨y, c⟩ := y
    obtain ⟨-, hlt, hwf⟩ := wf_cons.1 hm
    have below {z : Nat} (hz : z ≤ y) : Memory.read m z = Memory.unlisted :=
      read_below fun c hc => by have := hlt c hc; omega
    rcases lt_trichotomy a y with h | h | h
    · by_cases hb : b = Memory.unlisted <;> by_cases hx : x = a
      · subst hx
        have hne : y ≠ x := by omega
        simp [Memory.write, Memory.read, h, hne, hb, below (by omega : x ≤ y)]
      · simp [Memory.write, h, hb, hx]
      · simp [Memory.write, Memory.read, h, hb, hx]
      · simp [Memory.write, Memory.read, h, hb, hx, Ne.symm hx]
    · subst h
      by_cases hb : b = Memory.unlisted <;> by_cases hx : x = a
      · subst hx; simp [Memory.write, hb, below (le_refl x)]
      · simp [Memory.write, Memory.read, hb, hx, Ne.symm hx]
      · subst hx; simp [Memory.write, Memory.read, hb]
      · simp [Memory.write, Memory.read, hb, hx, Ne.symm hx]
    · have h1 : ¬ a < y := by omega
      have h2 : a ≠ y := by omega
      by_cases hx : x = a
      · subst hx
        simp [Memory.write, Memory.read, h1, h2, Ne.symm h2, ih hwf]
      · simp [Memory.write, Memory.read, h1, h2, ih hwf, hx]

/-- Every address a write lists was listed or is the written one. -/
theorem mem_write {m : Memory} {a : Nat} {b : Byte} {c : Host.Cell} (h : c ∈ m.write a b) : c ∈ m ∨ c = (a, b) := by
  induction m with
  | nil =>
    unfold Memory.write at h
    split_ifs at h <;> simp_all
  | cons y m ih =>
    obtain ⟨y, d⟩ := y
    unfold Memory.write at h
    split_ifs at h <;> simp only [List.mem_cons] at h ⊢ <;> tauto

/-- A write keeps the canonical form. -/
theorem wf_write {m : Memory} (hm : m.wf = true) (a : Nat) (b : Byte) : (m.write a b).wf = true := by
  induction m with
  | nil => by_cases hb : b = Memory.unlisted <;> simp [Memory.write, Memory.wf, hb]
  | cons y m ih =>
    obtain ⟨y, c⟩ := y
    obtain ⟨hc, hlt, hwf⟩ := wf_cons.1 hm
    rcases lt_trichotomy a y with h | h | h
    · by_cases hb : b = Memory.unlisted
      · simpa [Memory.write, h, hb] using hm
      · simp only [Memory.write, h, hb, if_true, if_false]
        refine wf_cons.2 ⟨hb, fun d hd => ?_, hm⟩
        rcases List.mem_cons.1 hd with rfl | hd
        · exact h
        · exact lt_trans h (hlt d hd)
    · subst h
      by_cases hb : b = Memory.unlisted
      · simpa [Memory.write, hb] using hwf
      · simp only [Memory.write, lt_irrefl, hb, if_true, if_false]
        exact wf_cons.2 ⟨hb, hlt, hwf⟩
    · have h1 : ¬ a < y := by omega
      have h2 : a ≠ y := by omega
      simp only [Memory.write, h1, h2, if_false]
      refine wf_cons.2 ⟨hc, fun d hd => ?_, ih hwf⟩
      rcases mem_write hd with hd | rfl
      · exact hlt d hd
      · exact h

@[simp] theorem length_bytes (m : Memory) (n : Nat) : (m.bytes n).length = n := by simp [Memory.bytes]

theorem getD_bytes (m : Memory) {n a : Nat} (h : a < n) : (m.bytes n).getD a 0 = m.read a := by
  simp [Memory.bytes, List.getD, h]

end Sys2Proof.Machine.Memory
end

