-- ==== Sys2Proof/Laws/Operands.lean ====
section
/-! SUPPORT. The shared computations in numbers: one lemma per function of Machine/Operands.lean and Machine/Flags.lean. -/

namespace Sys2Proof.Machine

/-! ### Bits and joins -/

/-- A concatenation in numbers. -/
theorem toNat_join {n m : Nat} (x : BitVec n) (y : BitVec m) : (x ++ y).toNat = x.toNat * 2 ^ m + y.toNat := by
  rw [BitVec.toNat_append, Nat.shiftLeft_eq, ← Nat.shiftLeft_eq, Nat.shiftLeft_add_eq_or_of_lt y.isLt]

/-- A bit slice in numbers. -/
theorem toNat_slice {w : Nat} (v : BitVec w) (lo n : Nat) : (v.extractLsb' lo n).toNat = v.toNat / 2 ^ lo % 2 ^ n := by
  simp [BitVec.extractLsb'_toNat, Nat.shiftRight_eq_div_pow]

theorem toNat_le16 (b0 b1 : Byte) : (le16 b0 b1).toNat = b0.toNat + 2 ^ 8 * b1.toNat := by
  rw [le16, toNat_join]; omega

theorem toNat_le32 (b0 b1 b2 b3 : Byte) :
    (le32 b0 b1 b2 b3).toNat = b0.toNat + 2 ^ 8 * b1.toNat + 2 ^ 16 * b2.toNat + 2 ^ 24 * b3.toNat := by
  rw [le32, toNat_join, toNat_join, toNat_join]; omega

theorem toNat_splitJoin {h n : Nat} (high : BitVec h) (low : BitVec n) :
    (splitJoin high low).toNat = high.toNat * 2 ^ n + low.toNat := toNat_join high low

theorem toNat_offsetBy {n w : Nat} {v : BitVec n} {k : Nat} (h : v.toNat + k < 2 ^ w) : (offsetBy w v k).toNat = v.toNat + k := by
  rw [offsetBy, BitVec.toNat_ofNat, Nat.mod_eq_of_lt h]

theorem toNat_scaleBy {n w : Nat} {v : BitVec n} {k : Nat} (h : v.toNat * k < 2 ^ w) : (scaleBy w v k).toNat = v.toNat * k := by
  rw [scaleBy, BitVec.toNat_ofNat, Nat.mod_eq_of_lt h]

/-! ### Letters, timings, flags -/

/-- The recommended `MFG_OOR` makes the letter formula uniform over all 32 values. -/
theorem toNat_letter : ∀ f : BitVec 5, (letter params f).toNat = 0x40 + f.toNat := by decide

theorem toNat_stdWidth (w : Byte) : (stdWidth w).toNat = (w.toNat + 31) * 8 := by
  have := w.isLt
  rw [stdWidth, BitVec.toNat_ofNat]; omega

theorem stereoCode_table : ∀ z : Bit,
    stereoCode 0 z = 0 ∧ stereoCode 1 z = (if z = 0 then 1 else 3) ∧ stereoCode 2 z = (if z = 0 then 2 else 4) ∧
    stereoCode 3 z = (if z = 0 then 5 else 6) := by
  decide

theorem stereoCode_le : ∀ (s : BitVec 2) (z : Bit), (stereoCode s z).toNat ≤ 6 := by decide

/-- The accumulator of CKSUM in numbers. -/
theorem toNat_byteSum (bs : List Byte) : (byteSum bs).toNat = (bs.map BitVec.toNat).sum % 256 := by
  have key : ∀ (bs : List Byte) (c : Byte),
      (bs.foldl (fun s b => s + b) c).toNat = (c.toNat + (bs.map BitVec.toNat).sum) % 256 := by
    intro bs
    induction bs with
    | nil => intro c; have := c.isLt; simp; omega
    | cons x bs ih => intro c; rw [List.foldl_cons, ih]; simp; omega
  have h := key bs 0
  rwa [show (0 : Byte).toNat = 0 from rfl, Nat.zero_add] at h

/-! ### Established timings -/

theorem reverse_getLsbD (v : Byte) {i : Nat} (h : i < 8) : v.reverse.getLsbD i = v.getLsbD (7 - i) := by
  rw [BitVec.getLsbD_reverse, BitVec.getMsbD]; simp [h]

theorem estFirst_getLsbD (m : BitVec 17) (v : Byte) (i : Nat) :
    (estFirst m v).getLsbD i = if i < 8 then v.getLsbD (7 - i) else m.getLsbD i := by
  rw [estFirst, BitVec.getLsbD_append]
  split
  · exact reverse_getLsbD _ ‹_›
  · rw [BitVec.getLsbD_extractLsb']
    by_cases h : i - 8 < 9
    · simp only [h, decide_true, Bool.true_and]; congr 1; omega
    · rw [BitVec.getLsbD_of_ge m i (by omega)]; simp [h]

/-! ### Texts -/

/-- `trimFront` cuts a front of set members and leaves a list that does not begin with one. -/
theorem trimFront_spec (set t : List Byte) :
    ∃ front, t = front ++ trimFront set t ∧ (∀ c ∈ front, c ∈ set) ∧ ∀ c, (trimFront set t).head? = some c → c ∉ set := by
  induction t with
  | nil => exact ⟨[], rfl, by simp, by simp [trimFront]⟩
  | cons c t ih =>
    obtain ⟨front, h1, h2, h3⟩ := ih
    by_cases h : c ∈ set
    · refine ⟨c :: front, ?_, by simpa [h] using h2, by simpa [trimFront, h] using h3⟩
      simp only [trimFront, h, if_true, List.cons_append, ← h1]
    · exact ⟨[], by simp [trimFront, h], by simp, by simp [trimFront, h]⟩

theorem length_trimFront_le (set t : List Byte) : (trimFront set t).length ≤ t.length := by
  obtain ⟨front, h, -⟩ := trimFront_spec set t
  have := congrArg List.length h
  simp at this
  omega

/-- Stripping and trimming never makes a text longer. -/
theorem length_stripTrim_le (p : Config.Params) (t : List Byte) : (stripTrim p t).length ≤ t.length := by
  have h1 := length_trimFront_le p.wsSet (trimFront p.wsSet (t.filter fun c => !p.nlSet.contains c)).reverse
  have h2 := length_trimFront_le p.wsSet (t.filter fun c => !p.nlSet.contains c)
  have h3 := List.length_filter_le (fun c => !p.nlSet.contains c) t
  rw [List.length_reverse] at h1
  show (trimFront p.wsSet (trimFront p.wsSet (t.filter fun c => !p.nlSet.contains c)).reverse).reverse.length ≤ _
  rw [List.length_reverse]
  exact h1.trans (h2.trans h3)

/-- A text register byte by byte. -/
theorem textReg_getElem (t : List Byte) (j : Fin 13) : (textReg t)[j] = t.getD j.val 0 := by simp [textReg]

end Sys2Proof.Machine
end

