-- ==== Sys2Proof/Laws/PerInstr.lean ====
section
/-! SUPPORT. The per-instruction family RoundTrip: decoding the encoded bytes of a well-formed instruction, with any
bytes after them, gives the instruction back, every operand at every value its format admits (R62, R63). -/

namespace Sys2Proof.Laws.RoundTrip

/-- What the family says of one instruction. -/
def Statement (i : Instr) : Prop :=
  ∀ rest : List Byte, i.wf = true → decode i.slot (encode i ++ rest) = .ok i

/-- A block whose prefix word selects the branch `b` is read as that branch. -/
theorem blockOf_cons {b : Branch} {d0 d1 d2 d3 : Byte} {rest : List Byte}
    {f : Byte → Byte → List Byte → Except Reject Instr} (h : classify (prefixWord d0 d1 d2 d3) = b) :
    blockOf b (d0 :: d1 :: d2 :: d3 :: rest) f = f d2 d3 rest := by
  simp [blockOf, h]

theorem lenchk : Statement .lenchk := fun _ _ => rfl

theorem cksum (s : Vector Byte 128) : Statement (.cksum s) := fun rest _ => withBytes_append s rest _

theorem hdr (h : Vector Byte 8) : Statement (.hdr h) := fun rest _ => withBytes_append h rest _

theorem mfgid (x : Bit) (a b c : BitVec 5) : Statement (.mfgid x a b c) := fun rest _ => by
  obtain ⟨h1, h2, h3⟩ := byte_1_5_2 x a (b.extractLsb' 3 2)
  obtain ⟨h4, h5⟩ := byte_3_5 (b.extractLsb' 0 3) c
  show Except.ok (Instr.mfgid _ _ _ _) = _
  rw [h1, h2, h3, h4, h5, join_2_3]

theorem prod (lo hi : Byte) : Statement (.prod lo hi) := fun _ _ => rfl

theorem sernum (a b c d : Byte) : Statement (.sernum a b c d) := fun _ _ => rfl

theorem mweek (v : Byte) : Statement (.mweek v) := fun _ _ => rfl

theorem myear (v : Byte) : Statement (.myear v) := fun _ _ => rfl

theorem ever (v : Byte) : Statement (.ever v) := fun _ _ => rfl

theorem erev (v : Byte) : Statement (.erev v) := fun _ _ => rfl

theorem vidinD (x : BitVec 6) (d : Bit) : Statement (.vidinD x d) := fun rest _ => by
  obtain ⟨h1, h2, h3⟩ := byte_1_6_1 1#1 x d
  show Except.ok (ite _ _ _) = _
  rw [if_pos h1, h2, h3]

theorem vidinA (x : BitVec 4) (c g x0 : Bit) : Statement (.vidinA x c g x0) := fun rest _ => by
  obtain ⟨h1, h2, h3, h4, h5⟩ := byte_1_4_1_1_1 0#1 x c g x0
  show Except.ok (ite _ _ _) = _
  rw [if_neg (by rw [h1]; decide), h2, h3, h4, h5]

theorem hsize (v : Byte) : Statement (.hsize v) := fun _ _ => rfl

theorem vsize (v : Byte) : Statement (.vsize v) := fun _ _ => rfl

theorem gamma (v : Byte) : Statement (.gamma v) := fun _ _ => rfl

theorem feat (s u a : Bit) (t : BitVec 2) (x : BitVec 3) : Statement (.feat s u a t x) := fun rest _ => by
  obtain ⟨h1, h2, h3, h4, h5⟩ := byte_1_1_1_2_3 s u a t x
  show Except.ok (Instr.feat _ _ _ _ _) = _
  rw [h1, h2, h3, h4, h5]

theorem chroma (c : Chroma) : Statement (.chroma c) := fun rest _ => by
  obtain ⟨h1, h2, h3, h4⟩ := byte_2_2_2_2 c.rxLo c.ryLo c.gxLo c.gyLo
  obtain ⟨h5, h6, h7, h8⟩ := byte_2_2_2_2 c.bxLo c.byLo c.wxLo c.wyLo
  simp only [decode, decodeRow, encode, Instr.slot, List.cons_append, List.nil_append]
  rw [withBytes_append, h1, h2, h3, h4, h5, h6, h7, h8]

theorem est1 (v : Byte) : Statement (.est1 v) := fun _ _ => rfl

theorem est2 (v : Byte) : Statement (.est2 v) := fun _ _ => rfl

theorem est3 (v : Bit) (x : BitVec 7) : Statement (.est3 v x) := fun rest _ => by
  obtain ⟨h1, h2⟩ := byte_1_7 v x
  show Except.ok (Instr.est3 _ _) = _
  rw [h1, h2]

theorem stdt (k : Fin 8) (w : Byte) (a : BitVec 2) (r : BitVec 6) : Statement (.stdt k w a r) := fun rest _ => by
  obtain ⟨h1, h2⟩ := byte_2_6 a r
  show Except.ok (Instr.stdt _ _ _ _) = _
  rw [h1, h2]

theorem desc (k : Fin 4) (p0 p1 x2 t : Byte) (x : Vector Byte 14) : Statement (.desc k p0 p1 x2 t x) :=
  fun rest _ => withBytes_append x rest _

theorem dtdGeo (k : Fin 4) (g : Geo) : Statement (.dtdGeo k g) := fun rest hwf => by
  have hne : ¬ (g.pLo = 0 ∧ g.pHi = 0) := by
    intro h
    simp [Instr.wf, h.1, h.2] at hwf
  have hc : classify (prefixWord g.pLo g.pHi g.aLo g.bLo) = .geo := by rw [classify_prefixWord, if_neg hne]
  obtain ⟨a1, a2⟩ := byte_4_4 g.aHi g.bHi
  obtain ⟨a3, a4⟩ := byte_4_4 g.cHi g.dHi
  obtain ⟨a5, a6⟩ := byte_4_4 g.gLo g.hLo
  obtain ⟨a7, a8, a9, a10⟩ := byte_2_2_2_2 g.eHi g.fHi g.gHi g.hHi
  obtain ⟨a11, a12⟩ := byte_4_4 g.iHi g.jHi
  simp only [decode, decodeBranch, encode, Geo.bytes, Instr.slot, List.cons_append, List.nil_append]
  rw [blockOf_cons hc]
  simp only [geoFields]
  rw [a1, a2, a3, a4, a5, a6, a7, a8, a9, a10, a11, a12]

theorem dtdFlg (k : Fin 4) (n : Bit) (s t : BitVec 2) (u r z : Bit) : Statement (.dtdFlg k n s t u r z) := fun rest _ => by
  obtain ⟨h1, h2, h3, h4, h5, h6⟩ := byte_1_2_2_1_1_1 n s t u r z
  show Except.ok (Instr.dtdFlg k _ _ _ _ _ _) = _
  rw [h1, h2, h3, h4, h5, h6]

theorem mser (k : Fin 4) (x2 x4 : Byte) (t : Vector Byte 13) : Statement (.mser k x2 x4 t) := fun rest _ => by
  simp only [decode, decodeBranch, encode, Instr.slot, List.cons_append, List.nil_append]
  rw [blockOf_cons (by rw [classify_prefixWord]; rfl)]
  exact withBytes_append _ rest _

theorem mname (k : Fin 4) (x2 x4 : Byte) (t : Vector Byte 13) : Statement (.mname k x2 x4 t) := fun rest _ => by
  simp only [decode, decodeBranch, encode, Instr.slot, List.cons_append, List.nil_append]
  rw [blockOf_cons (by rw [classify_prefixWord]; rfl)]
  exact withBytes_append _ rest _

theorem mrl (k : Fin 4) (x2 x4 vmin vmax hmin hmax c : Byte) (x : Vector Byte 8) :
    Statement (.mrl k x2 x4 vmin vmax hmin hmax c x) := fun rest _ => by
  simp only [decode, decodeBranch, encode, Instr.slot, List.cons_append, List.nil_append]
  rw [blockOf_cons (by rw [classify_prefixWord]; rfl)]
  exact withBytes_append _ rest _

theorem dskip (k : Fin 4) (x2 y : Byte) (x : Vector Byte 14) : Statement (.dskip k x2 y x) := fun rest hwf => by
  simp only [Instr.wf, retainedTags, Bool.not_eq_true', List.contains_eq_mem, List.mem_cons, List.not_mem_nil, or_false,
    decide_eq_false_iff_not, not_or] at hwf
  obtain ⟨h1, h2, h3⟩ := hwf
  have hc : classify (prefixWord 0x00 0x00 x2 y) = .skip := by
    rw [classify_prefixWord, if_pos ⟨rfl, rfl⟩]
    exact (if_neg h1).trans ((if_neg h2).trans (if_neg h3))
  simp only [decode, decodeBranch, encode, Instr.slot, List.cons_append, List.nil_append]
  rw [blockOf_cons hc, withBytes_append]

theorem extc (v : Byte) : Statement (.extc v) := fun _ _ => rfl

theorem start : Statement .start := fun _ _ => rfl

theorem reset : Statement .reset := fun _ _ => rfl

end Sys2Proof.Laws.RoundTrip
end

