-- ==== Sys2Proof/Laws/State.lean ====
section
/-! SUPPORT. What each named update of the state leaves in each field: one lemma per field per update, so that no later
proof unfolds a record update. -/

namespace Sys2Proof.Machine.State

variable (s : State)

@[simp] theorem endRow_ctrl (r : Row) (c : BitVec 8) : (s.endRow r c).ctrl = s.ctrl := rfl
@[simp] theorem endRow_len (r : Row) (c : BitVec 8) : (s.endRow r c).len = s.len := rfl
@[simp] theorem endRow_status (r : Row) (c : BitVec 8) : (s.endRow r c).status = s.status := rfl
@[simp] theorem endRow_errCode (r : Row) (c : BitVec 8) : (s.endRow r c).errCode = s.errCode := rfl
@[simp] theorem endRow_recValid (r : Row) (c : BitVec 8) : (s.endRow r c).recValid = s.recValid := rfl
@[simp] theorem endRow_cur (r : Row) (c : BitVec 8) : (s.endRow r c).cur = c := rfl
@[simp] theorem endRow_record (r : Row) (c : BitVec 8) : (s.endRow r c).record = s.record := rfl
@[simp] theorem endRow_lenLatched (r : Row) (c : BitVec 8) : (s.endRow r c).lenLatched = s.lenLatched := rfl
@[simp] theorem endRow_snap (r : Row) (c : BitVec 8) : (s.endRow r c).snap = s.snap := rfl
@[simp] theorem endRow_seq (r : Row) (c : BitVec 8) : (s.endRow r c).seq = r.next := rfl
@[simp] theorem endRow_input (r : Row) (c : BitVec 8) : (s.endRow r c).input = s.input := rfl
@[simp] theorem endRow_host (r : Row) (c : BitVec 8) : (s.endRow r c).host = s.host := rfl
@[simp] theorem endRow_readData (r : Row) (c : BitVec 8) : (s.endRow r c).readData = s.readData := rfl
@[simp] theorem endRow_draws (r : Row) (c : BitVec 8) : (s.endRow r c).draws = s.draws := rfl

@[simp] theorem endBlock_ctrl (k : Fin 4) : (s.endBlock k).ctrl = s.ctrl := rfl
@[simp] theorem endBlock_len (k : Fin 4) : (s.endBlock k).len = s.len := rfl
@[simp] theorem endBlock_status (k : Fin 4) : (s.endBlock k).status = s.status := rfl
@[simp] theorem endBlock_errCode (k : Fin 4) : (s.endBlock k).errCode = s.errCode := rfl
@[simp] theorem endBlock_recValid (k : Fin 4) : (s.endBlock k).recValid = s.recValid := rfl
@[simp] theorem endBlock_cur (k : Fin 4) : (s.endBlock k).cur = s.cur + 18 := rfl
@[simp] theorem endBlock_record (k : Fin 4) : (s.endBlock k).record = s.record := rfl
@[simp] theorem endBlock_lenLatched (k : Fin 4) : (s.endBlock k).lenLatched = s.lenLatched := rfl
@[simp] theorem endBlock_snap (k : Fin 4) : (s.endBlock k).snap = s.snap := rfl
@[simp] theorem endBlock_seq (k : Fin 4) : (s.endBlock k).seq = (Row.desc k).next := rfl
@[simp] theorem endBlock_input (k : Fin 4) : (s.endBlock k).input = s.input := rfl
@[simp] theorem endBlock_host (k : Fin 4) : (s.endBlock k).host = s.host := rfl
@[simp] theorem endBlock_readData (k : Fin 4) : (s.endBlock k).readData = s.readData := rfl
@[simp] theorem endBlock_draws (k : Fin 4) : (s.endBlock k).draws = s.draws := rfl

@[simp] theorem finishDecode_ctrl : (s.finishDecode).ctrl = s.ctrl := rfl
@[simp] theorem finishDecode_len : (s.finishDecode).len = s.len := rfl
@[simp] theorem finishDecode_status : (s.finishDecode).status = .done := rfl
@[simp] theorem finishDecode_errCode : (s.finishDecode).errCode = s.errCode := rfl
@[simp] theorem finishDecode_recValid : (s.finishDecode).recValid = 1 := rfl
@[simp] theorem finishDecode_cur : (s.finishDecode).cur = 128 := rfl
@[simp] theorem finishDecode_record : (s.finishDecode).record = s.record := rfl
@[simp] theorem finishDecode_lenLatched : (s.finishDecode).lenLatched = s.lenLatched := rfl
@[simp] theorem finishDecode_snap : (s.finishDecode).snap = s.snap := rfl
@[simp] theorem finishDecode_seq : (s.finishDecode).seq = .row .lenchk := rfl
@[simp] theorem finishDecode_input : (s.finishDecode).input = s.input := rfl
@[simp] theorem finishDecode_host : (s.finishDecode).host = s.host := rfl
@[simp] theorem finishDecode_readData : (s.finishDecode).readData = s.readData := rfl
@[simp] theorem finishDecode_draws : (s.finishDecode).draws = s.draws := rfl

@[simp] theorem raiseInsufficientData_ctrl (p : Config.Params) : (s.raiseInsufficientData p).ctrl = s.ctrl := rfl
@[simp] theorem raiseInsufficientData_len (p : Config.Params) : (s.raiseInsufficientData p).len = s.len := rfl
@[simp] theorem raiseInsufficientData_status (p : Config.Params) : (s.raiseInsufficientData p).status = .err := rfl
@[simp] theorem raiseInsufficientData_errCode (p : Config.Params) : (s.raiseInsufficientData p).errCode = p.errCodeInsufficient := rfl
@[simp] theorem raiseInsufficientData_recValid (p : Config.Params) : (s.raiseInsufficientData p).recValid = 0 := rfl
@[simp] theorem raiseInsufficientData_cur (p : Config.Params) : (s.raiseInsufficientData p).cur = 0 := rfl
@[simp] theorem raiseInsufficientData_record (p : Config.Params) : (s.raiseInsufficientData p).record = s.record := rfl
@[simp] theorem raiseInsufficientData_lenLatched (p : Config.Params) : (s.raiseInsufficientData p).lenLatched = s.lenLatched := rfl
@[simp] theorem raiseInsufficientData_snap (p : Config.Params) : (s.raiseInsufficientData p).snap = s.snap := rfl
@[simp] theorem raiseInsufficientData_seq (p : Config.Params) : (s.raiseInsufficientData p).seq = .row .lenchk := rfl
@[simp] theorem raiseInsufficientData_input (p : Config.Params) : (s.raiseInsufficientData p).input = s.input := rfl
@[simp] theorem raiseInsufficientData_host (p : Config.Params) : (s.raiseInsufficientData p).host = s.host := rfl
@[simp] theorem raiseInsufficientData_readData (p : Config.Params) : (s.raiseInsufficientData p).readData = s.readData := rfl
@[simp] theorem raiseInsufficientData_draws (p : Config.Params) : (s.raiseInsufficientData p).draws = s.draws := rfl

@[simp] theorem latchInput_ctrl : (s.latchInput).ctrl = s.ctrl := rfl
@[simp] theorem latchInput_len : (s.latchInput).len = s.len := rfl
@[simp] theorem latchInput_status : (s.latchInput).status = s.status := rfl
@[simp] theorem latchInput_errCode : (s.latchInput).errCode = s.errCode := rfl
@[simp] theorem latchInput_recValid : (s.latchInput).recValid = s.recValid := rfl
@[simp] theorem latchInput_cur : (s.latchInput).cur = s.cur := rfl
@[simp] theorem latchInput_record : (s.latchInput).record = s.record := rfl
@[simp] theorem latchInput_lenLatched : (s.latchInput).lenLatched = s.len := rfl
@[simp] theorem latchInput_snap : (s.latchInput).snap = s.input.bytes (min s.len 128) := rfl
@[simp] theorem latchInput_seq : (s.latchInput).seq = s.seq := rfl
@[simp] theorem latchInput_input : (s.latchInput).input = s.input := rfl
@[simp] theorem latchInput_host : (s.latchInput).host = s.host := rfl
@[simp] theorem latchInput_readData : (s.latchInput).readData = s.readData := rfl
@[simp] theorem latchInput_draws : (s.latchInput).draws = s.draws := rfl

@[simp] theorem beginDecode_ctrl : (s.beginDecode).ctrl = 0 := rfl
@[simp] theorem beginDecode_len : (s.beginDecode).len = s.len := rfl
@[simp] theorem beginDecode_status : (s.beginDecode).status = .busy := rfl
@[simp] theorem beginDecode_errCode : (s.beginDecode).errCode = 0 := rfl
@[simp] theorem beginDecode_recValid : (s.beginDecode).recValid = 0 := rfl
@[simp] theorem beginDecode_cur : (s.beginDecode).cur = 0 := rfl
@[simp] theorem beginDecode_record : (s.beginDecode).record = .reset := rfl
@[simp] theorem beginDecode_lenLatched : (s.beginDecode).lenLatched = s.len := rfl
@[simp] theorem beginDecode_snap : (s.beginDecode).snap = s.input.bytes (min s.len 128) := rfl
@[simp] theorem beginDecode_seq : (s.beginDecode).seq = .row .lenchk := rfl
@[simp] theorem beginDecode_input : (s.beginDecode).input = s.input := rfl
@[simp] theorem beginDecode_host : (s.beginDecode).host = s.host := rfl
@[simp] theorem beginDecode_readData : (s.beginDecode).readData = s.readData := rfl
@[simp] theorem beginDecode_draws : (s.beginDecode).draws = s.draws := rfl

@[simp] theorem resetRegisters_ctrl : (s.resetRegisters).ctrl = 0 := rfl
@[simp] theorem resetRegisters_len : (s.resetRegisters).len = 0 := rfl
@[simp] theorem resetRegisters_status : (s.resetRegisters).status = .idle := rfl
@[simp] theorem resetRegisters_errCode : (s.resetRegisters).errCode = 0 := rfl
@[simp] theorem resetRegisters_recValid : (s.resetRegisters).recValid = 0 := rfl
@[simp] theorem resetRegisters_cur : (s.resetRegisters).cur = 0 := rfl
@[simp] theorem resetRegisters_record : (s.resetRegisters).record = .reset := rfl
@[simp] theorem resetRegisters_lenLatched : (s.resetRegisters).lenLatched = 0 := rfl
@[simp] theorem resetRegisters_snap : (s.resetRegisters).snap = [] := rfl
@[simp] theorem resetRegisters_seq : (s.resetRegisters).seq = .row .lenchk := rfl
@[simp] theorem resetRegisters_input : (s.resetRegisters).input = s.input := rfl
@[simp] theorem resetRegisters_host : (s.resetRegisters).host = s.host := rfl
@[simp] theorem resetRegisters_readData : (s.resetRegisters).readData = s.readData := rfl
@[simp] theorem resetRegisters_draws : (s.resetRegisters).draws = s.draws := rfl

end Sys2Proof.Machine.State
end

