-- ==== Sys2Proof/Laws/Step.lean ====
section
/-! SUPPORT. What the shared operations and a step can do: one lemma each, which later proofs cite instead of unfolding
the operation. -/

namespace Sys2Proof.Machine

/-! ### Shared operations -/

/-- An append that answers a next state found a free entry. -/
theorem atEntry_next {c : BitVec 3} {f : Fin 4 → Result} {t : State} (h : atEntry c f = .next t) :
    ∃ hc : c.toNat < 4, f ⟨c.toNat, hc⟩ = .next t := by
  unfold atEntry at h
  split at h
  · exact ⟨_, h⟩
  · cases h

/-- With a free entry an append runs on it. -/
theorem atEntry_of_lt {c : BitVec 3} {f : Fin 4 → Result} (hc : c.toNat < 4) : atEntry c f = f ⟨c.toNat, hc⟩ :=
  dif_pos hc

/-- Without a free entry an append faults. -/
theorem atEntry_full {c : BitVec 3} {f : Fin 4 → Result} (hc : 4 ≤ c.toNat) : atEntry c f = .fault .fileFull :=
  dif_neg (by omega)

/-- Under the recommended policy `last` no block keeps an earlier text. -/
@[simp] theorem keepsEarlier_params (s : State) (k : Fin 4) (b : Branch) : keepsEarlier params s k b = false := rfl

/-! ### The sequencer -/

/-- A pending `CTRL` write is RESET or START, and RESET wins. -/
theorem takeCtrl_eq {s : State} (h : s.ctrl ≠ 0) : takeCtrl s = if s.ctrl = 1 then execStart s else execReset s := by
  have key : ∀ c : BitVec 2, c ≠ 0 →
      decode (.ctl c) [] = if c = 1 then .ok .start else .ok .reset := by decide
  unfold takeCtrl
  rw [key s.ctrl h]
  by_cases h1 : s.ctrl = 1
  · rw [if_pos h1, if_pos h1]; rfl
  · rw [if_neg h1, if_neg h1]; rfl

/-- The block idles when no decode runs. -/
theorem blockStep_idle {s : State} (h : s.status ≠ .busy) : blockStep s = .next s := by simp [blockStep, h]

/-- While a decode runs, a block step runs the place. -/
theorem blockStep_busy {s : State} (h : s.status = .busy) : blockStep s = runPlace s := by simp [blockStep, h]

/-- At the end row the decode ends. -/
theorem runPlace_finish {s : State} (h : s.seq = .finish) : runPlace s = .next s.finishDecode := by simp [runPlace, h]

/-- At any other place the fetched operation runs. -/
theorem runPlace_fetch {s : State} {i : Instr} (h : fetch s = .ok i) : runPlace s = exec i s := by
  unfold runPlace
  split
  · next hs => simp [fetch, hs, decode] at h
  all_goals rw [h]

/-- A place that answers a next state is the end row, or its operation was fetched and run. -/
theorem runPlace_next {s t : State} (h : runPlace s = .next t) :
    (s.seq = .finish ∧ t = s.finishDecode) ∨ ∃ i, fetch s = .ok i ∧ exec i s = .next t := by
  unfold runPlace at h
  split at h
  · next hs => cases h; exact .inl ⟨hs, rfl⟩
  all_goals
    split at h
    · next i hi => exact .inr ⟨i, hi, h⟩
    · cases h

/-- The three shapes of a step: a pending `CTRL` write, the block alone, or a host event. -/
theorem step_cases (s : State) :
    (s.ctrl ≠ 0 ∧ step s = takeCtrl s) ∨
    (s.ctrl = 0 ∧ s.host = [] ∧ step s = blockStep s) ∨
    (s.ctrl = 0 ∧ ∃ e es, s.host = e :: es ∧ step s = hostStep e { s with host := es }) := by
  unfold step machineStep
  by_cases hc : s.ctrl = 0
  · cases hh : s.host with
    | nil => exact .inr (.inl ⟨hc, rfl, by simp [hc]⟩)
    | cons e es => exact .inr (.inr ⟨hc, e, es, rfl, by simp [hc]⟩)
  · exact .inl ⟨hc, if_pos hc⟩

/-- What an accepted write of `IN` changes: that one byte of `IN`. -/
theorem hostWriteIn_next {a : Nat} {b : Byte} {s t : State} (h : hostWriteIn a b s = .next t) :
    t = { s with input := s.input.write a b } := by
  unfold hostWriteIn at h
  split at h
  · cases h
  · cases h; rfl

/-- What an accepted register write changes: `CTRL`, or `LEN`. -/
theorem hostWrite_next {r : HostReg} {v : Nat} {s t : State} (h : hostWrite r v s = .next t) :
    (r = .ctrl ∧ t = { s with ctrl := BitVec.ofNat 2 v }) ∨ (r = .len ∧ t = { s with len := v }) := by
  unfold hostWrite at h
  split at h
  · cases h; exact .inl ⟨rfl, rfl⟩
  · split at h
    · cases h
    · cases h; exact .inr ⟨rfl, rfl⟩
  all_goals cases h

end Sys2Proof.Machine
end

