-- ==== Sys2Proof/Tests/Slice0.lean ====
section
/-! SUPPORT. The model's own tests: expected values from the rules and from the vectors of spec/95_test_vectors.md, named in
each docstring; and a witness for the hypotheses of each statement. -/

namespace Sys2Proof.Tests

open Sys2Proof.Machine Sys2Proof.Safety

/-! ### Small states -/

/-- A decode that stands at place `p` with the bytes `bs` where the place's operation reads, zeros elsewhere. -/
def busyAt (p : Place) (bs : List Byte) : State :=
  { State.reset with
    status := .busy, seq := p, cur := BitVec.ofNat 8 p.cursor, len := 128, lenLatched := 128
    snap := patchSnapshot [] (p.cursor + p.skip) bs }

/-- What one step gives of a next state. -/
def after {α : Type} (s : State) (f : State → α) : Option α :=
  match step s with
  | .next t => some (f t)
  | _ => none

/-- A decoder's answer. -/
def read (sl : Slot) (bs : List Byte) : Option Instr :=
  match decode sl bs with
  | .ok i => some i
  | .error _ => none

/-! ### WellFormed refuses ill-formed terms (R62) -/

/-- A geometry of zeros but for its clock bytes and one field. -/
def geoWithClock (lo hi : Byte) : Geo :=
  { pLo := lo, pHi := hi, aLo := 0x80, aHi := 7, bLo := 0, bHi := 0, cLo := 0, cHi := 0, dLo := 0, dHi := 0, eLo := 0, eHi := 0, fLo := 0,
    fHi := 0, gLo := 0, gHi := 0, hLo := 0, hHi := 0, iLo := 0, iHi := 0, jLo := 0, jHi := 0, k := 0, l := 0 }

theorem test_wf_refuses_zero_clock : (Instr.dtdGeo 0 (geoWithClock 0 0)).wf = false := by decide

theorem test_wf_accepts_one_clock_bit :
    (Instr.dtdGeo 0 (geoWithClock 1 0)).wf = true ∧ (Instr.dtdGeo 0 (geoWithClock 0 1)).wf = true := by decide

theorem test_wf_refuses_retained_tags :
    (Instr.dskip 1 0 0xFF (.replicate 14 0)).wf = false ∧ (Instr.dskip 1 0 0xFC (.replicate 14 0)).wf = false ∧
    (Instr.dskip 1 0 0xFD (.replicate 14 0)).wf = false ∧ (Instr.dskip 1 0 0xFE (.replicate 14 0)).wf = true := by decide

/-! ### Words written out from the patterns of R62, one for every constructor -/

/-- `xaaaaabb bbbccccc` = `0 00001 00 011 01101`. -/
theorem test_decode_mfgid : read (.sched (.row .mfgid)) [0b00000100, 0b01101101] = some (.mfgid 0 1 3 13) := by decide

theorem test_decode_lenchk : read (.sched (.row .lenchk)) [] = some .lenchk := by decide

theorem test_decode_hdr :
    read (.sched (.row .hdr)) [1, 2, 3, 4, 5, 6, 7, 8] = some (.hdr #v[1, 2, 3, 4, 5, 6, 7, 8]) := by decide

set_option maxRecDepth 4096 in
theorem test_decode_cksum : read (.sched (.row .cksum)) (List.replicate 128 7) = some (.cksum (.replicate 128 7)) := by decide

/-- `llllllll LLLLLLLL` and `aaaaaaaa bbbbbbbb cccccccc dddddddd`. -/
theorem test_decode_prod_sernum :
    read (.sched (.row .prod)) [0x34, 0x12] = some (.prod 0x34 0x12) ∧
    read (.sched (.row .sernum)) [4, 3, 2, 1] = some (.sernum 4 3 2 1) := by decide

/-- `vvvvvvvv`, eight operations. -/
theorem test_decode_u8 :
    read (.sched (.row .mweek)) [0x17] = some (.mweek 0x17) ∧ read (.sched (.row .myear)) [0x11] = some (.myear 0x11) ∧
    read (.sched (.row .ever)) [1] = some (.ever 1) ∧ read (.sched (.row .erev)) [3] = some (.erev 3) ∧
    read (.sched (.row .hsize)) [0x22] = some (.hsize 0x22) ∧ read (.sched (.row .vsize)) [0x1B] = some (.vsize 0x1B) ∧
    read (.sched (.row .gamma)) [0x78] = some (.gamma 0x78) ∧ read (.sched (.row .extc)) [1] = some (.extc 1) := by decide

/-- `1xxxxxxd` = `1 000000 1` and `0xxxxcgx` = `0 0001 0 1 0`. -/
theorem test_decode_vidin :
    read (.sched (.row .vidin)) [0b10000001] = some (.vidinD 0 1) ∧
    read (.sched (.row .vidin)) [0b00001010] = some (.vidinA 1 0 1 0) := by decide

/-- `suattxxx` = `1 0 1 01 010`. -/
theorem test_decode_feat : read (.sched (.row .feat)) [0b10101010] = some (.feat 1 0 1 1 2) := by decide

/-- `rrRRggGG bbBBwwWW` = `11 10 11 10 10 01 01 01`, then eight MSB bytes. -/
theorem test_decode_chroma :
    read (.sched (.row .chroma)) [0b11101110, 0b10010101, 0xA3, 0x54, 0x4C, 0x99, 0x26, 0x0F, 0x50, 0x54] =
      some (.chroma { rxLo := 3, ryLo := 2, gxLo := 3, gyLo := 2, bxLo := 2, byLo := 1, wxLo := 1, wyLo := 1
                      m := #v[0xA3, 0x54, 0x4C, 0x99, 0x26, 0x0F, 0x50, 0x54] }) := by decide

/-- `76543210` twice, and `vxxxxxxx` = `1 0000000`. -/
theorem test_decode_est :
    read (.sched (.row .est1)) [0b10100101] = some (.est1 0xA5) ∧ read (.sched (.row .est2)) [0b01001011] = some (.est2 0x4B) ∧
    read (.sched (.row .est3)) [0b10000000] = some (.est3 1 0) := by decide

/-- `wwwwwwww aarrrrrr` = `00111111 01 000000`. -/
theorem test_decode_stdt : read (.sched (.row (.stdt 3))) [0x3F, 0b01000000] = some (.stdt 3 0x3F 1 0) := by decide

/-- The block of R128's example. -/
def exampleTiming : List Byte :=
  [0x02, 0x3A, 0x80, 0x18, 0x71, 0x38, 0x2D, 0x40, 0x58, 0x2C, 0x45, 0x00, 0x0F, 0x28, 0x21, 0x00, 0x00, 0x1E]

theorem test_decode_desc :
    read (.sched (.row (.desc 1))) exampleTiming = some (.desc 1 0x02 0x3A 0x80 0x18
      #v[0x71, 0x38, 0x2D, 0x40, 0x58, 0x2C, 0x45, 0x00, 0x0F, 0x28, 0x21, 0x00, 0x00, 0x1E]) := by decide

theorem test_decode_dtdGeo :
    read (.sched (.branch 1 .geo)) exampleTiming = some (.dtdGeo 1
      { pLo := 0x02, pHi := 0x3A, aLo := 0x80, aHi := 7, bLo := 0x18, bHi := 1, cLo := 0x38, cHi := 4, dLo := 0x2D, dHi := 0, eLo := 0x58,
        eHi := 0, fLo := 0x2C, fHi := 0, gLo := 4, gHi := 0, hLo := 5, hHi := 0, iLo := 0x0F, iHi := 2, jLo := 0x28, jHi := 1,
        k := 0, l := 0 }) := by decide

/-- `nsstturz` = `1 10 00 1 1 0`. -/
theorem test_decode_dtdFlg : read (.sched (.branch 2 .flg)) [0b11000110] = some (.dtdFlg 2 1 2 0 1 1 0) := by decide

/-- `DB.S` and `DB.N`: bytes 2 and 4 are ignored (R69). -/
theorem test_decode_texts :
    read (.sched (.branch 0 .ser)) ([0, 0, 0xAA, 0xFF, 0x55] ++ List.replicate 13 0x41) = some (.mser 0 0xAA 0x55 (.replicate 13 0x41)) ∧
    read (.sched (.branch 0 .name)) ([0, 0, 0xAA, 0xFC, 0x55] ++ List.replicate 13 0x41) = some (.mname 0 0xAA 0x55 (.replicate 13 0x41)) := by
  decide

theorem test_decode_mrl :
    read (.sched (.branch 3 .range)) ([0, 0, 0, 0xFD, 0, 0x32, 0x46, 0x1E, 0xA0, 0x64] ++ List.replicate 8 9) =
      some (.mrl 3 0 0 0x32 0x46 0x1E 0xA0 0x64 (.replicate 8 9)) := by decide

theorem test_decode_dskip :
    read (.sched (.branch 3 .skip)) ([0, 0, 0, 0x10] ++ List.replicate 14 9) = some (.dskip 3 0 0x10 (.replicate 14 9)) := by decide

/-- `CTRL` bit 0 is START, bit 1 RESET; both bits are RESET only; no bit is nothing (R11). -/
theorem test_decode_ctrl :
    read (.ctl 1) [] = some .start ∧ read (.ctl 2) [] = some .reset ∧ read (.ctl 3) [] = some .reset ∧ read (.ctl 0) [] = none := by decide

/-- A name block (`FC`) at the serial branch, and a monitor block at the timing branch, are rejected by name. -/
theorem test_decode_rejects_other_branch :
    decode (.sched (.branch 0 .ser)) ([0, 0, 0, 0xFC, 0] ++ List.replicate 13 0) = .error .branchMismatch ∧
    decode (.sched (.branch 0 .geo)) (List.replicate 18 0) = .error .branchMismatch ∧
    decode (.sched (.row .sernum)) [1, 2, 3] = .error .tooFewBytes ∧ decode (.sched .finish) [0] = .error .noOperation := by
  refine ⟨rfl, rfl, rfl, rfl⟩

/-! ### The opcode table's words -/

/-- Rows VIDIN.A and VIDIN.D (8 bits), and the six prefix words of R65 (32 bits). -/
theorem test_decodeTableWord :
    decodeTableWord 8 0x0A = some (.vidinA 1 0 1 0) ∧ decodeTableWord 8 0x81 = some (.vidinD 0 1) ∧
    decodeTableWord 32 0x000000FF = some (.mser 0 0 0 (.replicate 13 0)) ∧
    decodeTableWord 32 0x000000FC = some (.mname 0 0 0 (.replicate 13 0)) ∧
    decodeTableWord 32 0x000000FD = some (.mrl 0 0 0 0 0 0 0 0 (.replicate 8 0)) ∧
    decodeTableWord 32 0x00000010 = some (.dskip 0 0 0x10 (.replicate 14 0)) ∧
    (decodeTableWord 32 0x00010000).isSome = true ∧ decodeTableWord 16 0 = none := by decide

theorem test_withFetchWord_runs_it :
    after (State.reset.withFetchWord 8 0x81) (fun t => (t.record.isDigital, t.record.dfp)) = some (1, 1) ∧
    after (State.reset.withFetchWord 32 0x000000FF) (fun t => (t.record.sertxtLen, t.cur)) = some (13, 72) := by decide

/-! ### One step each -/

/-- V-LN-2, V-LN-3: 127 raises, 128 passes. -/
theorem test_lenchk :
    after { busyAt (.row .lenchk) [] with lenLatched := 127 } (fun t => (t.status, t.errCode, t.recValid)) = some (.err, 1, 0) ∧
    after (busyAt (.row .lenchk) []) (fun t => (t.status, t.seq)) = some (.busy, .row .cksum) := by decide

set_option maxRecDepth 4096 in
/-- V-CK-5, V-CK-4: the sum wraps; one byte of 1 is no multiple of 256. -/
theorem test_cksum :
    after (busyAt (.row .cksum) [0x80, 0x80]) (·.record.checksumOk) = some 1 ∧
    after (busyAt (.row .cksum) [1]) (·.record.checksumOk) = some 0 := by decide

set_option maxRecDepth 2048 in
/-- V-ID-13. -/
theorem test_hdr : after (busyAt (.row .hdr) [1, 2, 3, 4, 5, 6, 7, 8]) (·.record.header) = some #v[1, 2, 3, 4, 5, 6, 7, 8] := by decide

/-- V-ID-3 ("ACM") and V-ID-6. -/
theorem test_mfgid :
    after (busyAt (.row .mfgid) [0x04, 0x6D]) (·.record.mfg) = some #v[0x41, 0x43, 0x4D] ∧
    after (busyAt (.row .mfgid) [0x6C, 0x1B]) (·.record.mfg) = some #v[0x5B, 0x40, 0x5B] := by decide

/-- V-ID-8, V-ID-9. -/
theorem test_prod_sernum :
    after (busyAt (.row .prod) [0x34, 0x12]) (·.record.product) = some 0x1234 ∧
    after (busyAt (.row .sernum) [0x04, 0x03, 0x02, 0x01]) (·.record.serial) = some 0x01020304 := by decide

/-- V-ID-10, V-ID-11, V-ID-12. -/
theorem test_dates_and_versions :
    after (busyAt (.row .mweek) [0x17]) (·.record.week) = some 23 ∧
    after (busyAt (.row .myear) [0xFF]) (·.record.year) = some 2245 ∧
    after (busyAt (.row .ever) [2]) (·.record.version) = some 2 ∧ after (busyAt (.row .erev) [3]) (·.record.revision) = some 3 := by decide

/-- V-BD-4, V-BD-9. -/
theorem test_vidin :
    after (busyAt (.row .vidin) [0x86]) (fun t => (t.record.isDigital, t.record.dfp, t.record.syncOnGreen, t.record.compositeSync)) =
      some (1, 0, 0, 0) ∧
    after (busyAt (.row .vidin) [0x7F]) (fun t => (t.record.isDigital, t.record.dfp, t.record.syncOnGreen, t.record.compositeSync)) =
      some (0, 0, 1, 1) := by decide

/-- V-BD-10, V-BD-11. -/
theorem test_sizes_and_gamma :
    after (busyAt (.row .hsize) [0x22]) (·.record.hsizeCm) = some 34 ∧ after (busyAt (.row .vsize) [0x1B]) (·.record.vsizeCm) = some 27 ∧
    after (busyAt (.row .gamma) [0xFF]) (·.record.gammaX100) = some 355 := by decide

/-- V-BD-13. -/
theorem test_feat :
    after (busyAt (.row .feat) [0x56])
      (fun t => (t.record.dpmsStandby, t.record.dpmsSuspend, t.record.dpmsActiveoff, t.record.displayType)) = some (0, 1, 0, 2) := by decide

/-- V-CH-8. -/
theorem test_chroma :
    after (busyAt (.row .chroma) [0x1B, 0xE4, 0x80, 0x80, 0x80, 0x80, 0x80, 0x80, 0x80, 0x80])
      (fun t => [t.record.redX, t.record.redY, t.record.greenX, t.record.greenY, t.record.blueX, t.record.blueY, t.record.whiteX,
        t.record.whiteY]) = some [512, 513, 514, 515, 515, 514, 513, 512] := by decide

/-- V-ES-9, operation by operation: indices 0, 2, 5, 7; 9, 12, 14, 15; 16. -/
theorem test_est :
    after (busyAt (.row .est1) [0xA5]) (·.record.estMask) = some 0b0_00000000_10100101 ∧
    after (busyAt (.row .est2) [0x4B]) (·.record.estMask) = some 0b0_11010010_00000000 ∧
    after (busyAt (.row .est3) [0x80]) (·.record.estMask) = some 0b1_00000000_00000000 := by decide

/-- V-ES-10: the list in scan order. -/
theorem test_estList :
    ({ Record.reset with estMask := 0b0_00010000_10000100 } : Record).estIndices.map Fin.val = [2, 7, 12] := by decide

/-- V-ST-1 and R120's truncation example (`W = 504`, 16:9). -/
theorem test_stdt :
    after (busyAt (.row (.stdt 3)) [0x3F, 0x40]) (·.record.std[3]) = some ⟨752, 564, 1, 60⟩ ∧
    after (busyAt (.row (.stdt 7)) [0x20, 0xC0]) (fun t => (t.record.std[7], t.cur)) = some (⟨504, 283, 3, 60⟩, 54) := by decide

/-- V-DS-3: a clock of 256 units is a timing although byte 3 is `FC`. -/
theorem test_desc :
    after (busyAt (.row (.desc 2)) [0x00, 0x01, 0x00, 0xFC]) (fun t => (t.seq, t.cur)) = some (.branch 2 .geo, 90) ∧
    after (busyAt (.row (.desc 2)) [0x00, 0x00, 0xAA, 0xFC, 0x55]) (·.seq) = some (.branch 2 .name) := by decide

/-- R128's example. -/
theorem test_dtdGeo :
    after (busyAt (.branch 0 .geo) exampleTiming)
      (fun t => (t.record.dtd[0].pixclkKhz, t.record.dtd[0].hactive, t.record.dtd[0].vactive, t.record.dtd[0].vsyncPw,
        t.record.dtd[0].hsizeMm, t.record.dtd[0].vsizeMm)) = some (148500, 1920, 1080, 5, 527, 296) := by decide

/-- R134's two examples. -/
theorem test_dtdFlg :
    after (busyAt (.branch 3 .flg) [0x1E]) (fun t => (t.record.dtd[0].syncType, t.record.dtd[0].vsyncPol, t.record.dtdCount, t.cur)) =
      some (3, 1, 1, 126) ∧
    after (busyAt (.branch 3 .flg) [0xC6]) (fun t => (t.record.dtd[0].stereo, t.record.dtd[0].vsyncPol, t.record.dtd[0].hsyncPol)) =
      some (2, 0, 0) := by decide

/-- S3: `"ACME Display" 0A`; and the serial text keeps its newline. -/
theorem test_texts :
    after (busyAt (.branch 0 .name)
      [0, 0, 0, 0xFC, 0, 0x41, 0x43, 0x4D, 0x45, 0x20, 0x44, 0x69, 0x73, 0x70, 0x6C, 0x61, 0x79, 0x0A])
      (fun t => (t.record.nameLen, t.record.nameText)) =
      some (12, [0x41, 0x43, 0x4D, 0x45, 0x20, 0x44, 0x69, 0x73, 0x70, 0x6C, 0x61, 0x79]) ∧
    after (busyAt (.branch 0 .ser) [0, 0, 0, 0xFF, 0, 0x41, 0x0A]) (fun t => (t.record.sertxtLen, t.record.sertxt[1])) = some (13, 0x0A) := by
  decide

/-- S4. -/
theorem test_mrl :
    after (busyAt (.branch 1 .range) [0, 0, 0, 0xFD, 0, 0x32, 0x46, 0x1E, 0xA0, 0x64])
      (fun t => (t.record.rng[0], t.record.rngCount)) = some (⟨50, 70, 30, 160, 1000⟩, 1) := by decide

/-- R144's example. -/
theorem test_dskip :
    after (busyAt (.branch 1 .skip) [0, 0, 0, 0x10]) (fun t => (t.record, t.cur)) = some (Record.reset, 90) := by decide

/-- R150's example, and the end row. -/
theorem test_extc :
    after (busyAt (.row .extc) [1]) (fun t => (t.record.extCount, t.seq)) = some (1, .finish) ∧
    after (busyAt .finish []) (fun t => (t.status, t.recValid, t.cur)) = some (.done, 1, 128) := by decide

/-- START latches and begins, RESET ends (R151, R152). -/
theorem test_control :
    after { State.reset with ctrl := 1, len := 3, input := [(1, 7), (200, 9)] } (fun t => (t.status, t.snap, t.ctrl)) =
      some (.busy, [0, 7, 0], 0) ∧
    after { busyAt (.row .gamma) [] with ctrl := 3 } (fun t => (t.status, t.len, t.cur)) = some (.idle, 0, 0) := by decide

/-- The canonical form of `IN`: sorted, and a zero removes the entry. -/
theorem test_memory :
    Memory.write [(1, 7), (5, 9)] 3 2 = [(1, 7), (3, 2), (5, 9)] ∧ Memory.write [(1, 7), (5, 9)] 5 0 = [(1, 7)] ∧
    Memory.wf [(5, 9), (1, 7)] = false ∧ Memory.wf [(1, 0)] = false := by decide

/-! ### Witnesses: states and operands that meet the hypotheses of the statements -/

/-- Every place up to the end row has a state that stands there. -/
theorem standsAt_busyAt {p : Place} (bs : List Byte) (h : p.cursor < 256) : StandsAt (busyAt p bs) p := by
  refine ⟨rfl, rfl, rfl, rfl, ?_, ?_⟩
  · show (BitVec.ofNat 8 p.cursor).toNat = _
    rw [BitVec.toNat_ofNat, Nat.mod_eq_of_lt h]
  · simp [busyAt, patchSnapshot]

/-- ResetCausesAndPriority: each bit pattern, and the reset input. -/
theorem witness_reset_causes :
    ({ busyAt (.row .gamma) [] with ctrl := 2 } : State).ctrl = 2 ∧ ({ State.reset with ctrl := 3 } : State).ctrl = 3 ∧
    ({ State.reset with host := [.assertReset] } : State).ctrl = 0 ∧
    ({ State.reset with host := [.assertReset] } : State).host = .assertReset :: [] := by decide

/-- StartLatchesClearsAndBegins, StepTakesPendingStart, DecodeIsThePureFunction: from `IDLE`, `DONE` and `ERR`, one byte short and
just long enough. -/
theorem witness_start :
    ({ State.reset with ctrl := 1, len := 127 } : State).status ≠ .busy ∧ ({ State.reset with ctrl := 1, len := 127 } : State).ctrl = 1 ∧
    ({ State.reset with ctrl := 1, status := .done, recValid := 1, len := 128 } : State).status ≠ .busy ∧
    ({ State.reset with ctrl := 1, status := .err, errCode := 1, len := 0 } : State).status ≠ .busy ∧
    ({ State.reset with ctrl := 1, len := 127 } : State).host = [] := by decide

/-- StartWhileBusyIsRefused. -/
theorem witness_start_while_busy :
    ({ busyAt (.row .est1) [] with ctrl := 1 } : State).status = .busy ∧ ({ busyAt (.row .est1) [] with ctrl := 1 } : State).ctrl = 1 := by
  decide

/-- InputIsStableWhileBusy: a changing write at 127, one at 128, one that changes nothing; `LEN` changed and kept. -/
theorem witness_input_stable :
    (busyAt (.row .est1) []).ctrl = 0 ∧ (busyAt (.row .est1) []).status = .busy ∧
    ({ busyAt (.row .est1) [] with host := [.writeIn 127 1] } : State).host = .writeIn 127 1 :: [] ∧
    (127 < 128 ∧ (busyAt (.row .est1) []).input.read 127 ≠ 1) ∧ 128 ≤ 128 ∧ (busyAt (.row .est1) []).input.read 127 = 0 ∧
    ({ busyAt (.row .est1) [] with host := [.write .len 127] } : State).host = .write .len 127 :: [] ∧
    (busyAt (.row .est1) []).len ≠ 127 ∧ (busyAt (.row .est1) []).len = 128 := by decide

/-- HostWritesReachInputLenAndCtrl: one state for each clause, the `CTRL` clause outside a decode and while `BUSY`. -/
theorem witness_host_writes :
    State.reset.status ≠ .busy ∧ State.reset.input.wf = true ∧
    ({ State.reset with host := [.writeIn 0 0xFF] } : State).host = .writeIn 0 0xFF :: [] ∧
    ({ State.reset with host := [.write .len 128] } : State).host = .write .len 128 :: [] ∧
    ({ State.reset with host := [.write .ctrl 5] } : State).host = .write .ctrl 5 :: [] ∧
    ({ busyAt (.row .est1) [] with host := [.write .ctrl 2] } : State).ctrl = 0 ∧
    ({ busyAt (.row .est1) [] with host := [.write .ctrl 2] } : State).status = .busy ∧
    ({ busyAt (.row .est1) [] with host := [.write .ctrl 2] } : State).host = .write .ctrl 2 :: [] := by decide

/-- HostReadsReturnTheRegister: a record register outside a decode, and `STATUS` while `BUSY`. -/
theorem witness_host_reads :
    ({ State.reset with host := [.read (.record .year)] } : State).ctrl = 0 ∧
    (({ State.reset with host := [.read (.record .year)] } : State).status ≠ .busy ∨ ∀ g, HostReg.record .year ≠ .record g) ∧
    ({ State.reset with host := [.read (.record .year)] } : State).host = .read (.record .year) :: [] ∧
    ({ busyAt (.row .est1) [] with host := [.read .status] } : State).ctrl = 0 ∧
    ({ busyAt (.row .est1) [] with host := [.read .status] } : State).status = .busy ∧ (∀ g, HostReg.status ≠ .record g) ∧
    ({ busyAt (.row .est1) [] with host := [.read .status] } : State).host = .read .status :: [] := by
  refine ⟨rfl, .inl (by decide), rfl, rfl, rfl, ?_, rfl⟩
  intro g h
  cases h

/-- BusyReadIsAFreeValueOfItsWidth. -/
theorem witness_busy_read :
    ({ busyAt (.row .est1) [] with host := [.read (.record .year)] } : State).ctrl = 0 ∧
    ({ busyAt (.row .est1) [] with host := [.read (.record .year)] } : State).status = .busy ∧
    ({ busyAt (.row .est1) [] with host := [.read (.record .year)] } : State).host = .read (.record .year) :: [] := by decide

/-- R182, R189: while a decode runs `STATUS` reads as 1 (`BUSY`), and a written `CTRL.RESET` reaches `CTRL`. -/
theorem test_host_while_busy :
    after { busyAt (.row .est1) [] with host := [.read .status] } (·.readData) = some ⟨2, 1⟩ ∧
    after { busyAt (.row .est1) [] with host := [.write .ctrl 2] } (fun t => (t.ctrl, t.status)) = some (2, .busy) := by decide

/-- IdleBlockKeepsItsRegisters, RecordIsKeptOutsideADecode, OnlyTheHostWritesInput: an idle block with a waiting host steps. -/
theorem witness_idle :
    State.reset.status ≠ .busy ∧ State.reset.ctrl = 0 ∧ State.reset.host = [] ∧
    ({ State.reset with host := [.wait] } : State).host = .wait :: [] ∧
    (∀ es, ({ State.reset with host := [.wait] } : State).host ≠ .assertReset :: es) ∧
    (∀ a b es, State.reset.ctrl = 0 → ({ State.reset with host := [.wait] } : State).host ≠ .writeIn a b :: es) ∧
    step { State.reset with host := [.wait] } = .next State.reset := by
  refine ⟨by decide, rfl, rfl, rfl, ?_, ?_, rfl⟩ <;> simp

/-- StepRunsTheDecodedInstruction: with no event, and with a waiting host. -/
theorem witness_step_runs :
    (busyAt (.row .myear) [0x11]).ctrl = 0 ∧ (busyAt (.row .myear) [0x11]).status = .busy ∧
    (busyAt (.row .myear) [0x11]).seq ≠ .finish ∧ (busyAt (.row .myear) [0x11]).host = [] ∧
    ({ busyAt (.row .myear) [0x11] with host := [.wait] } : State).host = .wait :: [] ∧
    (fetch (busyAt (.row .myear) [0x11])).toOption = some (.myear 0x11) := by decide

/-- EndRowMakesTheRecordValid. -/
theorem witness_end_row : StandsAt (busyAt .finish []) .finish := standsAt_busyAt [] (by decide)

/-- The fetch clauses of the operations at the first, a middle and the last row, and at the edges of the indexed rows. -/
theorem witness_rows :
    StandsAt (busyAt (.row .lenchk) []) (.row .lenchk) ∧ StandsAt (busyAt (.row .cksum) []) (.row .cksum) ∧
    StandsAt (busyAt (.row .hdr) []) (.row .hdr) ∧ StandsAt (busyAt (.row .mfgid) []) (.row .mfgid) ∧
    StandsAt (busyAt (.row .prod) []) (.row .prod) ∧ StandsAt (busyAt (.row .sernum) []) (.row .sernum) ∧
    StandsAt (busyAt (.row .mweek) []) (.row .mweek) ∧ StandsAt (busyAt (.row .myear) []) (.row .myear) ∧
    StandsAt (busyAt (.row .ever) []) (.row .ever) ∧ StandsAt (busyAt (.row .erev) []) (.row .erev) ∧
    StandsAt (busyAt (.row .hsize) []) (.row .hsize) ∧ StandsAt (busyAt (.row .vsize) []) (.row .vsize) ∧
    StandsAt (busyAt (.row .gamma) []) (.row .gamma) ∧ StandsAt (busyAt (.row .feat) []) (.row .feat) ∧
    StandsAt (busyAt (.row .chroma) []) (.row .chroma) ∧ StandsAt (busyAt (.row .est1) []) (.row .est1) ∧
    StandsAt (busyAt (.row .est2) []) (.row .est2) ∧ StandsAt (busyAt (.row .est3) []) (.row .est3) ∧
    StandsAt (busyAt (.row (.stdt 0)) []) (.row (.stdt 0)) ∧ StandsAt (busyAt (.row (.stdt 7)) []) (.row (.stdt 7)) ∧
    StandsAt (busyAt (.row (.desc 0)) []) (.row (.desc 0)) ∧ StandsAt (busyAt (.row (.desc 3)) []) (.row (.desc 3)) ∧
    StandsAt (busyAt (.row .extc) []) (.row .extc) := by
  refine ⟨?_, ?_, ?_, ?_, ?_, ?_, ?_, ?_, ?_, ?_, ?_, ?_, ?_, ?_, ?_, ?_, ?_, ?_, ?_, ?_, ?_, ?_, ?_⟩ <;>
    exact standsAt_busyAt [] (by decide)

/-- VidinSelectsDigitalOrAnalog: both values of bit 7. -/
theorem witness_vidin :
    (StandsAt (busyAt (.row .vidin) [0x80]) (.row .vidin) ∧ (byteAt (busyAt (.row .vidin) [0x80]) 20).getLsbD 7 = true) ∧
    (StandsAt (busyAt (.row .vidin) [0x7F]) (.row .vidin) ∧ (byteAt (busyAt (.row .vidin) [0x7F]) 20).getLsbD 7 = false) :=
  ⟨⟨standsAt_busyAt _ (by decide), by decide⟩, standsAt_busyAt _ (by decide), by decide⟩

/-- EveryPlaceDecodes and the fetch clauses of the branch operations: each branch, with the block that selects it. -/
theorem witness_branches :
    (StandsAt (busyAt (.branch 0 .geo) [1]) (.branch 0 .geo) ∧ branchAt (busyAt (.branch 0 .geo) [1]).snap 0 = .geo) ∧
    (StandsAt (busyAt (.branch 3 .ser) [0, 0, 0, 0xFF]) (.branch 3 .ser) ∧ branchAt (busyAt (.branch 3 .ser) [0, 0, 0, 0xFF]).snap 3 = .ser) ∧
    (StandsAt (busyAt (.branch 1 .name) [0, 0, 0, 0xFC]) (.branch 1 .name) ∧ branchAt (busyAt (.branch 1 .name) [0, 0, 0, 0xFC]).snap 1 = .name) ∧
    (StandsAt (busyAt (.branch 2 .range) [0, 0, 0, 0xFD]) (.branch 2 .range) ∧
      branchAt (busyAt (.branch 2 .range) [0, 0, 0, 0xFD]).snap 2 = .range) ∧
    (StandsAt (busyAt (.branch 3 .skip) []) (.branch 3 .skip) ∧ branchAt (busyAt (.branch 3 .skip) []).snap 3 = .skip) ∧
    StandsAt (busyAt (.branch 3 .flg) [0x1E]) (.branch 3 .flg) ∧
    StandsAt { busyAt (.branch 0 .flg) [] with snap := patchSnapshot [] 54 exampleTiming } (.branch 0 .flg) ∧
    branchKind .flg = branchAt (patchSnapshot [] 54 exampleTiming) 0 := by
  refine ⟨⟨standsAt_busyAt _ (by decide), by decide⟩, ⟨standsAt_busyAt _ (by decide), by decide⟩,
    ⟨standsAt_busyAt _ (by decide), by decide⟩, ⟨standsAt_busyAt _ (by decide), by decide⟩,
    ⟨standsAt_busyAt _ (by decide), by decide⟩, standsAt_busyAt _ (by decide),
    ⟨rfl, rfl, rfl, rfl, by decide, by simp [patchSnapshot]⟩, by decide⟩

/-- DecodeOfEncodeIsTheInstruction: at the edges of the two side conditions. -/
theorem witness_wf : (Instr.dtdGeo 3 (geoWithClock 0 1)).wf = true ∧ (Instr.dskip 3 0 0xFE (.replicate 14 0)).wf = true := by decide

/-- EncodeOfDecodeIsTheBytes. -/
theorem witness_decode : decode (.sched (.row .prod)) [0x34, 0x12, 0x56] = .ok (.prod 0x34 0x12) := rfl

/-- LenchkRaisesExactlyOnShortInput: 127, 128, and a block in `ERR`. -/
theorem witness_lenchk :
    ({ busyAt (.row .lenchk) [] with lenLatched := 127 } : State).lenLatched < 128 ∧ 128 ≤ (busyAt (.row .lenchk) []).lenLatched ∧
    ({ State.reset with status := .err, errCode := 1 } : State).status = .err ∧
    ({ State.reset with status := .err, errCode := 1 } : State).ctrl = 0 ∧
    ({ State.reset with status := .err, errCode := 1 } : State).host = [] := by decide

/-- ChecksumByteTouchesTheVerdictOnly. -/
theorem witness_input_long_enough : 128 ≤ (List.replicate 128 (0x55 : Byte)).length := by simp

/-- DtdGeoReassemblesTheGeometry, DtdFlgDecodesTheFlags, MrlAppendsTheRangeLimits: the last free entry; FullFileStopsAnAppend: none. -/
theorem witness_counts :
    ({ Record.reset with dtdCount := 3 } : Record).dtdCount.toNat < 4 ∧ ({ Record.reset with rngCount := 3 } : Record).rngCount.toNat < 4 ∧
    4 ≤ ({ Record.reset with dtdCount := 4 } : Record).dtdCount.toNat ∧ 4 ≤ ({ Record.reset with rngCount := 4 } : Record).rngCount.toNat := by
  decide

/-- EachBlockConsumes18Bytes: the last block, with three entries already in the files. -/
theorem witness_block :
    StandsAt { busyAt (.row (.desc 3)) exampleTiming with record := { Record.reset with dtdCount := 2, rngCount := 1 } } (.row (.desc 3)) ∧
    ({ Record.reset with dtdCount := 2, rngCount := 1 } : Record).dtdCount.toNat +
      ({ Record.reset with dtdCount := 2, rngCount := 1 } : Record).rngCount.toNat ≤ (3 : Fin 4).val :=
  ⟨standsAt_busyAt exampleTiming (by decide), by decide⟩

/-- ScheduleFrame and RecordRegistersKeepTheirWriters. -/
theorem witness_frame :
    scheduled (.mweek 3) = true ∧ Instr.mweek 3 ≠ .lenchk ∧ writes (.mweek 3) Record.reset .year = false ∧
    exec (.mweek 3) (busyAt (.row .mweek) [3]) =
      .next { busyAt (.row .mweek) [3] with record := { Record.reset with week := 3 }, cur := 17, seq := .row .myear } :=
  ⟨by decide, by decide, by decide, rfl⟩

/-- OrderOfOperationsDoesNotMatter: two operations on one register, and a branch operation with a row. -/
theorem witness_order :
    scheduled (.est1 0xA5) = true ∧ scheduled (.est3 1 0) = true ∧ Instr.est1 0xA5 ≠ .lenchk ∧ (Instr.est1 0xA5).slot ≠ (Instr.est3 1 0).slot ∧
    ¬((∃ k b, (Instr.est1 0xA5).slot = .sched (.branch k b)) ∧ ∃ k b, (Instr.est3 1 0).slot = .sched (.branch k b)) ∧
    (∃ t u, exec (.est1 0xA5) State.reset = .next t ∧ exec (.est3 1 0) t = .next u) ∧
    (∃ t u, exec (.dtdGeo 0 (geoWithClock 1 0)) State.reset = .next t ∧ exec (.extc 1) t = .next u) := by
  refine ⟨by decide, by decide, by decide, by decide, ?_, ⟨_, _, rfl, rfl⟩, _, _, rfl, rfl⟩
  rintro ⟨⟨k, b, h⟩, -⟩
  cases h

/-- A state before START, and a decode about to check its length, meet the invariant (InvariantIsKeptByEveryStep, NoStepFaults,
EveryDecodeEnds). -/
theorem witness_invariant :
    Inv { State.reset with ctrl := 1, len := 128 } ∧
    (∃ t, step { State.reset with ctrl := 1, len := 128 } = .next t) ∧
    Inv { State.reset with status := .busy, len := 128 } ∧
    ({ State.reset with status := .busy, len := 128 } : State).status = .busy ∧
    ({ State.reset with status := .busy, len := 128 } : State).ctrl = 0 ∧ ({ State.reset with status := .busy, len := 128 } : State).host = [] := by
  have texts : TextsPadded Record.reset := ⟨by decide, by decide, .inr ⟨rfl, rfl⟩⟩
  have ranges : InRanges Record.reset :=
    ⟨fun i => .inl (by revert i; decide), .inl rfl, .inl rfl, fun k => .inl (by revert k; decide), by decide⟩
  have timings : TimingsInRanges Record.reset := fun e h => absurd h (by simp [Record.reset])
  refine ⟨?_, ⟨_, rfl⟩, ?_, rfl, rfl, rfl⟩
  · exact {
      memory := rfl
      status := ⟨by decide, by decide⟩
      cursor := ⟨rfl, rfl⟩
      snapshot := ⟨rfl, by decide, by decide⟩
      branch := by intro _ _ h; cases h
      files := ⟨by decide, fun e _ => .inl (by revert e; decide), fun e _ => by revert e; decide⟩
      absent := fun _ => rfl
      texts := texts
      ranges := ranges
      geometry := by intro _ h; cases h
      timings := timings }
  · exact {
      memory := rfl
      status := ⟨by decide, by decide⟩
      cursor := rfl
      snapshot := ⟨rfl, by decide, by decide⟩
      branch := by intro _ _ _ h; cases h
      files := ⟨by decide, fun e _ => .inl (by revert e; decide), fun e _ => by revert e; decide⟩
      absent := fun _ => rfl
      texts := texts
      ranges := ranges
      geometry := by intro _ _ h; cases h
      timings := timings }

/-- OutcomeDependsOnTheInputAlone: an idle block and one that has decoded before, lengths 128 and 256, inputs that agree below 128. -/
theorem witness_outcome :
    ({ State.reset with ctrl := 1, len := 128 } : State).status ≠ .busy ∧
    ({ State.reset with ctrl := 1, len := 256, status := .done, input := [(128, 7)] } : State).status ≠ .busy ∧
    min ({ State.reset with ctrl := 1, len := 128 } : State).len 128 =
      min ({ State.reset with ctrl := 1, len := 256, status := .done, input := [(128, 7)] } : State).len 128 ∧
    (∀ a, a < 128 → State.reset.input.read a = Memory.read [(128, 7)] a) := by
  refine ⟨by decide, by decide, by decide, fun a h => ?_⟩
  have : ¬ 128 = a := by omega
  simp [Memory.read, State.reset, this]

end Sys2Proof.Tests
end

/-! What the decoder can answer: one inversion lemma per way of reading bytes, the slot an operation decoded at a place belongs to,
and the bytes that DESC and DTD.GEO were read from. -/

namespace Sys2Proof.Laws

theorem withBytes_ok {n : Nat} {bs : List Byte} {f : Vector Byte n → Instr} {i : Instr} (h : withBytes n bs f = .ok i) :
    ∃ v, i = f v := by
  unfold withBytes at h
  split at h
  · cases h; exact ⟨_, rfl⟩
  · cases h

theorem oneByte_ok {bs : List Byte} {f : Byte → Instr} {i : Instr} (h : oneByte bs f = .ok i) : ∃ v, i = f v := by
  cases bs with
  | nil => cases h
  | cons v bs => cases h; exact ⟨v, rfl⟩

theorem blockOf_ok {b : Branch} {bs : List Byte} {f : Byte → Byte → List Byte → Except Reject Instr} {i : Instr}
    (h : blockOf b bs f = .ok i) :
    ∃ d0 d1 d2 d3 rest, bs = d0 :: d1 :: d2 :: d3 :: rest ∧ classify (prefixWord d0 d1 d2 d3) = b ∧ f d2 d3 rest = .ok i := by
  unfold blockOf at h
  split at h
  · split at h
    · exact ⟨_, _, _, _, _, rfl, ‹_›, h⟩
    · cases h
  · cases h

/-- What a row decodes belongs to that row. -/
theorem slot_of_decodeRow {r : Row} {bs : List Byte} {i : Instr} (h : decodeRow r bs = .ok i) : i.slot = .sched (.row r) := by
  cases r
  case lenchk => cases h; rfl
  case cksum | hdr => obtain ⟨v, rfl⟩ := withBytes_ok h; rfl
  case mweek | myear | ever | erev | hsize | vsize | gamma | feat | est1 | est2 | est3 | extc =>
    obtain ⟨v, rfl⟩ := oneByte_ok h; rfl
  case vidin =>
    obtain ⟨v, rfl⟩ := oneByte_ok h
    split <;> rfl
  case mfgid | prod | sernum | stdt =>
    simp only [decodeRow] at h
    split at h
    · cases h; rfl
    · cases h
  case chroma | desc =>
    simp only [decodeRow] at h
    split at h
    · obtain ⟨v, rfl⟩ := withBytes_ok h; rfl
    · cases h

/-- What a branch place decodes belongs to that place. -/
theorem slot_of_decodeBranch {k : Fin 4} {b : Branch} {bs : List Byte} {i : Instr} (h : decodeBranch k b bs = .ok i) :
    i.slot = .sched (.branch k b) := by
  cases b
  case flg => obtain ⟨v, rfl⟩ := oneByte_ok h; rfl
  case skip =>
    obtain ⟨_, _, _, _, _, -, -, h⟩ := blockOf_ok h
    obtain ⟨v, rfl⟩ := withBytes_ok h; rfl
  case geo =>
    obtain ⟨_, _, _, _, _, -, -, h⟩ := blockOf_ok h
    split at h
    · cases h; rfl
    · cases h
  case ser | name | range =>
    obtain ⟨_, _, _, _, _, -, -, h⟩ := blockOf_ok h
    split at h
    · obtain ⟨v, rfl⟩ := withBytes_ok h; rfl
    · cases h

/-- What a place of the schedule decodes belongs to that place (R60, R61). -/
theorem slot_of_decode {p : Place} {bs : List Byte} {i : Instr} (h : decode (.sched p) bs = .ok i) : i.slot = .sched p := by
  cases p with
  | row r => exact slot_of_decodeRow h
  | branch k b => exact slot_of_decodeBranch h
  | finish => cases h

/-- DESC carries the block's leading four bytes as they stand (R65). -/
theorem decode_desc_bytes {q : Place} {bs : List Byte} {k : Fin 4} {p0 p1 x2 t : Byte} {x : Vector Byte 14}
    (h : decode (.sched q) bs = .ok (.desc k p0 p1 x2 t x)) : ∃ rest, bs = p0 :: p1 :: x2 :: t :: rest := by
  cases slot_of_decode h
  simp only [decode, decodeRow] at h
  split at h
  · obtain ⟨v, hv⟩ := withBytes_ok h
    cases hv; exact ⟨_, rfl⟩
  · cases h

/-- DTD.GEO is decoded from a block with a clock only (R62 "with (P ++ p) not 0"). -/
theorem decode_dtdGeo_clock {q : Place} {bs : List Byte} {k : Fin 4} {g : Geo}
    (h : decode (.sched q) bs = .ok (.dtdGeo k g)) : ¬ (g.pLo = 0 ∧ g.pHi = 0) := by
  cases slot_of_decode h
  obtain ⟨d0, d1, d2, d3, rest, rfl, hc, h⟩ := blockOf_ok h
  rw [classify_prefixWord] at hc
  split at h
  · next g' hg =>
    cases h
    unfold geoFields at hg
    split at hg
    · next heq =>
      cases heq; cases hg
      intro hz
      rw [if_pos hz] at hc
      split_ifs at hc
    · cases hg
  · cases h

theorem le16_eq_zero {lo hi : Byte} : Machine.le16 lo hi = 0 ↔ lo = 0 ∧ hi = 0 := by
  rw [Machine.le16, show (0 : BitVec 16) = (0#8 ++ 0#8 : BitVec (8 + 8)) from rfl]
  exact append_inj.trans and_comm

/-- DESC selects the branch that the classifier of R65 gives the block. -/
theorem descBranch_eq_classify (p0 p1 x2 t : Byte) : Machine.descBranch p0 p1 t = classify (prefixWord p0 p1 x2 t) := by
  rw [classify_prefixWord, Machine.descBranch]
  by_cases h : p0 = 0 ∧ p1 = 0
  · rw [if_pos h, if_neg (not_not.2 (le16_eq_zero.2 h))]
  · rw [if_neg h, if_pos (fun hc => h (le16_eq_zero.1 hc))]

/-- The branch of a block, from the four bytes at its offset. -/
theorem branchAt_of_drop {snap : List Byte} {k : Nat} {d0 d1 d2 d3 : Byte} {rest : List Byte}
    (h : snap.drop (54 + 18 * k) = d0 :: d1 :: d2 :: d3 :: rest) :
    Machine.branchAt snap k = classify (prefixWord d0 d1 d2 d3) := by
  have byte (j : Nat) : snap.getD (54 + 18 * k + j) 0 = (d0 :: d1 :: d2 :: d3 :: rest).getD j 0 := by
    rw [← h, List.getD_eq_getElem?_getD, List.getD_eq_getElem?_getD, List.getElem?_drop]
  simp only [Machine.branchAt, byte]
  rfl

end Sys2Proof.Laws

/-! The host's side of a step and the schedule in numbers. -/

namespace Sys2Proof.Machine

/-! ### The host's side -/

/-- A host event other than a wait and the reset input reaches only the fields outside the decode, and keeps the canonical form
of `IN`. -/
theorem hostStep_next {e : HostEvent} {s t : State} (hw : e ≠ .wait) (hr : e ≠ .assertReset) (h : hostStep e s = .next t) :
    ∃ c l m rd n, t = { s with ctrl := c, len := l, input := m, readData := rd, draws := n } ∧
      (s.input.wf = true → m.wf = true) := by
  cases e with
  | wait => exact absurd rfl hw
  | assertReset => exact absurd rfl hr
  | writeIn a b =>
    obtain rfl := hostWriteIn_next h
    exact ⟨_, _, _, _, _, rfl, fun hm => Memory.wf_write hm a b⟩
  | write r v => obtain ⟨-, rfl⟩ | ⟨-, rfl⟩ := hostWrite_next h <;> exact ⟨_, _, _, _, _, rfl, id⟩
  | read r => cases h; exact ⟨_, _, _, _, _, rfl, id⟩

/-- With no pending `CTRL` write and no host event the block runs on. -/
theorem step_silent {s : State} (hc : s.ctrl = 0) (hh : s.host = []) : step s = blockStep s := by
  simp [step, machineStep, hc, hh]

/-- With no pending `CTRL` write the host's next event happens. -/
theorem step_event {s : State} {e : HostEvent} {es : List HostEvent} (hc : s.ctrl = 0) (hh : s.host = e :: es) :
    step s = hostStep e { s with host := es } := by
  simp [step, machineStep, hc, hh]

/-- A pending `CTRL` write comes before everything else. -/
theorem step_ctrl {s : State} (hc : s.ctrl ≠ 0) : step s = if s.ctrl = 1 then execStart s else execReset s :=
  (if_pos hc).trans (takeCtrl_eq hc)

/-! ### LENCHK and the register files -/

theorem updateDtd_same (r : Record) (e : Fin 4) (f : DtdEntry → DtdEntry) : (r.updateDtd e f).dtd[e] = f r.dtd[e] := by
  simp [Record.updateDtd]

theorem updateDtd_other (r : Record) {e j : Fin 4} (h : j ≠ e) (f : DtdEntry → DtdEntry) :
    (r.updateDtd e f).dtd[j] = r.dtd[j] :=
  Vector.getElem_set_ne e.isLt j.isLt fun he => h (Fin.ext he.symm)

/-- LENCHK raises InsufficientData, or passes to the next row (R80). -/
theorem exec_lenchk_next {s t : State} (h : exec .lenchk s = .next t) :
    (s.lenLatched < 128 ∧ t = s.raiseInsufficientData params) ∨ (128 ≤ s.lenLatched ∧ t = s.endRow .lenchk s.cur) := by
  change execLenchk s = _ at h
  unfold execLenchk at h
  split at h
  · cases h; exact .inl ⟨‹_›, rfl⟩
  · cases h; exact .inr ⟨by omega, rfl⟩

/-- DTD.GEO that answers a next state has filled the geometry of the free entry at `DTD_COUNT` (R128). -/
theorem exec_dtdGeo_next {k : Fin 4} {g : Geo} {s t : State} (h : exec (.dtdGeo k g) s = .next t) :
    ∃ e : Fin 4, e.val = s.record.dtdCount.toNat ∧
      t = { s with record := s.record.updateDtd e (geometry g), seq := .branch k .flg } := by
  change execDtdGeo k g s = _ at h
  obtain ⟨hc, h⟩ := atEntry_next h
  cases h; exact ⟨_, rfl, rfl⟩

/-- DTD.FLG that answers a next state has filled the flags of that entry and counted it (R134). -/
theorem exec_dtdFlg_next {k : Fin 4} {n : Bit} {sf ty : BitVec 2} {u r z : Bit} {s t : State}
    (h : exec (.dtdFlg k n sf ty u r z) s = .next t) :
    ∃ e : Fin 4, e.val = s.record.dtdCount.toNat ∧
      t = { s with record := { s.record.updateDtd e (timingFlags n sf ty u r z) with
              dtdCount := s.record.dtdCount + 1 } }.endBlock k := by
  change execDtdFlg k n sf ty u r z s = _ at h
  obtain ⟨hc, h⟩ := atEntry_next h
  cases h; exact ⟨_, rfl, rfl⟩

/-- MRL that answers a next state has filled the free entry at `RNG_COUNT` and counted it (R143). -/
theorem exec_mrl_next {k : Fin 4} {x2 x4 vmin vmax hmin hmax c : Byte} {x : Vector Byte 8} {s t : State}
    (h : exec (.mrl k x2 x4 vmin vmax hmin hmax c x) s = .next t) :
    ∃ e : Fin 4, e.val = s.record.rngCount.toNat ∧
      t = { s with record := { s.record with
              rng := s.record.rng.set e (rngEntry vmin vmax hmin hmax c)
              rngCount := s.record.rngCount + 1 } }.endBlock k := by
  change execMrl k x2 x4 vmin vmax hmin hmax c x s = _ at h
  obtain ⟨hc, h⟩ := atEntry_next h
  cases h; exact ⟨_, rfl, rfl⟩

/-! ### The schedule (R61) -/

/-- A row ends where the row after it begins. -/
theorem next_cursor (r : Row) : r.next.cursor = r.offset + r.size := by
  cases r
  case stdt k => fin_cases k <;> rfl
  case desc k => fin_cases k <;> rfl
  all_goals rfl

/-- A row is followed by a row or by the end row, never by a branch operation. -/
theorem next_ne_branch (r : Row) (k : Fin 4) (b : Branch) : r.next ≠ .branch k b := by
  cases r
  case stdt j => rw [Row.next]; split <;> exact nofun
  case desc j => rw [Row.next]; split <;> exact nofun
  all_goals exact nofun

/-- Row 0 comes after no row. -/
theorem next_ne_lenchk (r : Row) : r.next ≠ .row .lenchk := by
  cases r
  case stdt j => rw [Row.next]; split <;> exact nofun
  case desc j => rw [Row.next]; split <;> exact nofun
  all_goals exact nofun

end Sys2Proof.Machine

/-! The invariant: the part that speaks of the record alone, the places where no entry is being filled, and one lemma per way a
step moves the block. -/

namespace Sys2Proof.Safety

open Sys2Proof.Machine Sys2Proof.Laws

/-! ### The record's part of the invariant -/

/-- What the invariant says of a record in which no entry is being filled, when `n` descriptor blocks are done. -/
def RecordOk (n : Nat) (r : Record) : Prop :=
  r.dtdCount.toNat + r.rngCount.toNat ≤ n ∧
  (∀ e : Fin 4, r.dtdCount.toNat ≤ e.val → r.dtd[e] = .reset) ∧
  (∀ e : Fin 4, r.rngCount.toNat ≤ e.val → r.rng[e] = .reset) ∧
  TextsPadded r ∧ InRanges r ∧ TimingsInRanges r

theorem recordOk_reset : RecordOk 0 .reset :=
  ⟨by decide, fun e _ => by revert e; decide, fun e _ => by revert e; decide, ⟨by decide, by decide, .inr ⟨rfl, rfl⟩⟩,
    ⟨fun i => .inl (by revert i; decide), .inl rfl, .inl rfl, fun k => .inl (by revert k; decide), by decide⟩,
    fun e h => absurd h (by simp [Record.reset])⟩

theorem RecordOk.mono {n m : Nat} {r : Record} (h : RecordOk n r) (hnm : n ≤ m) : RecordOk m r :=
  ⟨h.1.trans hnm, h.2⟩

variable {n : Nat} {r : Record}

/-- R91, R98: letters lie in the range column of R13. -/
theorem RecordOk.setMfg (h : RecordOk n r) (a b c : BitVec 5) :
    RecordOk n { r with mfg := #v[letter params a, letter params b, letter params c] } := by
  obtain ⟨hn, hd, hr, ht, ⟨-, hy, hg, hs, hm⟩, htim⟩ := h
  have range (f : BitVec 5) : 0x40 ≤ (letter params f).toNat ∧ (letter params f).toNat ≤ 0x5F := by
    have := f.isLt
    rw [toNat_letter]; omega
  refine ⟨hn, hd, hr, ht, ⟨fun i => .inr ?_, hy, hg, hs, hm⟩, htim⟩
  match i with
  | 0 => exact range a
  | 1 => exact range b
  | 2 => exact range c

/-- R95: the year lies in the range column of R13. -/
theorem year_range (v : Byte) : 1990 ≤ (offsetBy 12 v 1990).toNat ∧ (offsetBy 12 v 1990).toNat ≤ 2245 := by
  have := v.isLt
  rw [toNat_offsetBy (by omega)]; omega

/-- R104: the gamma numerator lies in the range column of R15. -/
theorem gamma_range (v : Byte) : 100 ≤ (offsetBy 9 v 100).toNat ∧ (offsetBy 9 v 100).toNat ≤ 355 := by
  have := v.isLt
  rw [toNat_offsetBy (by omega)]; omega

theorem RecordOk.setYear (h : RecordOk n r) {y : BitVec 12} (hrange : 1990 ≤ y.toNat ∧ y.toNat ≤ 2245) :
    RecordOk n { r with year := y } := by
  obtain ⟨hn, hd, hr, ht, ⟨hm, -, hg, hs, hx⟩, htim⟩ := h
  exact ⟨hn, hd, hr, ht, ⟨hm, .inr hrange, hg, hs, hx⟩, htim⟩

theorem RecordOk.setGamma (h : RecordOk n r) {v : BitVec 9} (hrange : 100 ≤ v.toNat ∧ v.toNat ≤ 355) :
    RecordOk n { r with gammaX100 := v } := by
  obtain ⟨hn, hd, hr, ht, ⟨hm, hy, -, hs, hx⟩, htim⟩ := h
  exact ⟨hn, hd, hr, ht, ⟨hm, hy, .inr hrange, hs, hx⟩, htim⟩

/-- Every ratio of R121 takes the least width of R19 to at least 139 lines and the greatest to less than 1831. -/
theorem romAspect_bounds : ∀ a : BitVec 2,
    let r := romAspect[a.toNat]'a.isLt
    0 < r.1 ∧ 139 * r.1 ≤ 248 * r.2 ∧ 2288 * r.2 < 1831 * r.1 := by
  decide

/-- R120: the quotient before it is narrowed. -/
theorem stdQuotient_range {w : Nat} (hlo : 248 ≤ w) (hhi : w ≤ 2288) (a : BitVec 2) :
    let r := romAspect[a.toNat]'a.isLt
    139 ≤ w * r.2 / r.1 ∧ w * r.2 / r.1 < 1831 := by
  obtain ⟨hpos, h1, h2⟩ := romAspect_bounds a
  exact ⟨(Nat.le_div_iff_mul_le hpos).2 (h1.trans (Nat.mul_le_mul_right _ hlo)),
    (Nat.div_lt_iff_lt_mul hpos).2 ((Nat.mul_le_mul_right _ hhi).trans_lt h2)⟩

/-- R120: the height fits its register, so nothing is cut off. -/
theorem toNat_stdHeight {w : BitVec 12} (hlo : 248 ≤ w.toNat) (hhi : w.toNat ≤ 2288) (a : BitVec 2) :
    (stdHeight w a).toNat = w.toNat * (romAspect[a.toNat]'a.isLt).2 / (romAspect[a.toNat]'a.isLt).1 := by
  have := (stdQuotient_range hlo hhi a).2
  exact (BitVec.toNat_ofNat ..).trans (Nat.mod_eq_of_lt (by omega))

/-- R120: a decoded standard timing lies in the range columns of R19. -/
theorem stdEntry_ranges (w : Byte) (a : BitVec 2) (f : BitVec 6) :
    let e := stdEntry w a f
    248 ≤ e.w.toNat ∧ e.w.toNat ≤ 2288 ∧ e.w.toNat % 8 = 0 ∧ 139 ≤ e.h.toNat ∧ e.h.toNat ≤ 1830 ∧
    60 ≤ e.refresh.toNat ∧ e.refresh.toNat ≤ 123 := by
  have hw := w.isLt
  have hf := f.isLt
  have ew := toNat_stdWidth w
  have eh := toNat_stdHeight (w := stdWidth w) (by omega) (by omega) a
  have er : (offsetBy 7 f 60).toNat = f.toNat + 60 := toNat_offsetBy (by omega)
  have := stdQuotient_range (w := (stdWidth w).toNat) (by omega) (by omega) a
  simp only [stdEntry]
  omega

theorem RecordOk.setStd (h : RecordOk n r) (k : Fin 8) (w : Byte) (a : BitVec 2) (f : BitVec 6) :
    RecordOk n { r with std := r.std.set k (stdEntry w a f) } := by
  obtain ⟨hn, hd, hr, ht, ⟨hm, hy, hg, hs, hx⟩, htim⟩ := h
  refine ⟨hn, hd, hr, ht, ⟨hm, hy, hg, fun j => ?_, hx⟩, htim⟩
  by_cases hj : k.val = j.val
  · refine .inr ?_
    simp only [Fin.getElem_fin, ← hj, Vector.getElem_set_self]
    exact stdEntry_ranges w a f
  · simpa only [Fin.getElem_fin, Vector.getElem_set_ne _ _ hj] using hs j

/-- R140: the serial text fills its register. -/
theorem RecordOk.setSertxt (h : RecordOk n r) (t : Vector Byte 13) : RecordOk n { r with sertxt := t, sertxtLen := 13 } := by
  obtain ⟨hn, hd, hr, ⟨hl, hz, -⟩, hrest⟩ := h
  exact ⟨hn, hd, hr, ⟨hl, hz, .inl rfl⟩, hrest⟩

/-- R141: a text of at most 13 bytes is padded with zeros. -/
theorem RecordOk.setName (h : RecordOk n r) {t : List Byte} (ht : t.length ≤ 13) :
    RecordOk n { r with name := textReg t, nameLen := BitVec.ofNat 4 t.length } := by
  obtain ⟨hn, hd, hr, ⟨-, -, hs⟩, hrest⟩ := h
  have e : (BitVec.ofNat 4 t.length).toNat = t.length := by rw [BitVec.toNat_ofNat]; omega
  refine ⟨hn, hd, hr, ⟨e.trans_le ht, fun j hj => ?_, hs⟩, hrest⟩
  rw [textReg_getElem, List.getD_eq_default _ _ (e.symm.trans_le hj)]

/-- R143: a new range limit counts as one more block, and its clock lies in the range column of R21. -/
theorem RecordOk.appendRng (h : RecordOk n r) {e : Fin 4} (he : e.val = r.rngCount.toNat) (vmin vmax hmin hmax c : Byte) :
    RecordOk (n + 1) { r with rng := r.rng.set e (rngEntry vmin vmax hmin hmax c), rngCount := r.rngCount + 1 } := by
  obtain ⟨hn, hd, hr, ht, ⟨hm, hy, hg, hs, hx⟩, htim⟩ := h
  have ec : (r.rngCount + 1).toNat = r.rngCount.toNat + 1 := BitVec.toNat_add_of_lt (by simp; omega)
  refine ⟨by simp only [ec]; omega, hd, fun j hj => ?_, ht, ⟨hm, hy, hg, hs, fun j => ?_⟩, htim⟩
  · simp only [ec] at hj
    simpa only [Fin.getElem_fin, Vector.getElem_set_ne _ _ (by omega : e.val ≠ j.val)] using hr j (by omega)
  · by_cases hj : e.val = j.val
    · have hc := c.isLt
      have em : (rngEntry vmin vmax hmin hmax c).maxclkMhz.toNat = c.toNat * 10 := toNat_scaleBy (by omega)
      simp only [Fin.getElem_fin, ← hj, Vector.getElem_set_self, em]
      omega
    · simpa only [Fin.getElem_fin, Vector.getElem_set_ne _ _ hj] using hx j

end Sys2Proof.Safety

/-! The register file of detailed timings between DTD.GEO and DTD.FLG, and the invariant of a state from the invariant of its
record. -/

namespace Sys2Proof.Safety

open Sys2Proof.Machine Sys2Proof.Laws

/-! ### An entry being filled -/

/-- The clock column of R20. -/
def ClockInRange (e : DtdEntry) : Prop :=
  10 ≤ e.pixclkKhz.toNat ∧ e.pixclkKhz.toNat ≤ 655350 ∧ e.pixclkKhz.toNat % 10 = 0

/-- What the invariant says of a record whose entry at `DTD_COUNT` has its geometry and not yet its flags. -/
def FillingOk (n : Nat) (r : Record) : Prop :=
  r.dtdCount.toNat + r.rngCount.toNat ≤ n ∧
  (∀ e : Fin 4, r.dtdCount.toNat < e.val → r.dtd[e] = .reset) ∧
  (∀ e : Fin 4, r.rngCount.toNat ≤ e.val → r.rng[e] = .reset) ∧
  TextsPadded r ∧ InRanges r ∧ TimingsInRanges r ∧ ∀ e : Fin 4, e.val = r.dtdCount.toNat → ClockInRange r.dtd[e]

/-- R128: a clock that is not zero lies in the range column of R20. -/
theorem clockInRange_geometry {g : Geo} (hg : ¬ (g.pLo = 0 ∧ g.pHi = 0)) (e : DtdEntry) : ClockInRange (geometry g e) := by
  have hlt := (le16 g.pLo g.pHi).isLt
  have hpos : (le16 g.pLo g.pHi).toNat ≠ 0 := fun h => hg (le16_eq_zero.1 (BitVec.eq_of_toNat_eq h))
  have e : (geometry g e).pixclkKhz.toNat = (le16 g.pLo g.pHi).toNat * 10 := toNat_scaleBy (by omega)
  rw [ClockInRange, e]; omega

section

variable {n : Nat} {r : Record}

/-- DTD.GEO begins an entry. -/
theorem RecordOk.fill (h : RecordOk n r) {e : Fin 4} (he : e.val = r.dtdCount.toNat) {f : DtdEntry → DtdEntry}
    (hf : ClockInRange (f r.dtd[e])) : FillingOk n (r.updateDtd e f) := by
  obtain ⟨hn, hd, hr, ht, hx, htim⟩ := h
  refine ⟨hn, fun j hj => ?_, hr, ht, hx, fun j hj => ?_, fun j hj => ?_⟩
  · rw [updateDtd_other r (Fin.ne_of_gt (he.trans_lt hj))]; exact hd j hj.le
  · rw [updateDtd_other r (Fin.ne_of_lt (hj.trans_eq he.symm))]; exact htim j hj
  · obtain rfl : j = e := Fin.ext (hj.trans he.symm)
    rw [updateDtd_same]; exact hf

/-- DTD.FLG ends it: one more entry, with the columns of R20 that the flags decide. -/
theorem FillingOk.close (h : FillingOk n r) {e : Fin 4} (he : e.val = r.dtdCount.toNat) (i : Bit) (sf t : BitVec 2) (u v z : Bit) :
    RecordOk (n + 1) { r.updateDtd e (timingFlags i sf t u v z) with dtdCount := r.dtdCount + 1 } := by
  obtain ⟨hn, hd, hr, ht, hx, htim, hclock⟩ := h
  have ec : (r.dtdCount + 1).toNat = r.dtdCount.toNat + 1 := BitVec.toNat_add_of_lt (by simp; omega)
  refine ⟨(congrArg (· + r.rngCount.toNat) ec).trans_le (by omega), fun j hj => ?_, hr, ht, hx, fun j hj => ?_⟩
  · have hj : r.dtdCount.toNat < j.val := ec.symm.trans_le hj
    exact (updateDtd_other r (Fin.ne_of_gt (he.trans_lt hj)) _).trans (hd j hj)
  · have hj : j.val < r.dtdCount.toNat + 1 := hj.trans_eq ec
    dsimp only
    by_cases hlast : j = e
    · obtain ⟨h1, h2, h3⟩ := hclock e he
      rw [hlast, updateDtd_same]
      exact ⟨h1, h2, h3, stereoCode_le sf z, fun hne => ⟨if_neg hne, if_neg hne⟩⟩
    · have : j.val ≠ e.val := fun h => hlast (Fin.ext h)
      rw [updateDtd_other r hlast]
      exact htim j (by omega)

end

/-! ### From the record to the state -/

/-- The sequencer stands between DTD.GEO and DTD.FLG. -/
def Filling (s : State) : Prop := ∃ k, s.status = .busy ∧ s.seq = .branch k .flg

/-! The parts of the invariant for a state in which a decode runs. -/

theorem entryBound_busy {s : State} (hb : s.status = .busy) : entryBound s = blocksDone s.seq := by simp [entryBound, hb]

theorem le_entryBound_busy {s : State} {n : Nat} (hb : s.status = .busy) (hn : n ≤ blocksDone s.seq) : n ≤ entryBound s :=
  hn.trans (entryBound_busy hb).ge

theorem cursorAgrees_busy {s : State} (hb : s.status = .busy) (hc : s.cur.toNat = s.seq.cursor) : CursorAgrees s := by
  rwa [CursorAgrees, hb]

/-- Past LENCHK the record is there. -/
theorem recordAbsent_busy {s : State} (hb : s.status = .busy) (hs : s.seq ≠ .row .lenchk) : RecordAbsent s := by
  rintro (h | h | ⟨-, h⟩)
  · exact absurd (hb.symm.trans h) nofun
  · exact absurd (hb.symm.trans h) nofun
  · exact absurd h hs

/-- Past LENCHK the latched length is at least 128 (R47, R80). -/
theorem Inv.latched_long {s : State} (h : Inv s) (hb : s.status = .busy) (hs : s.seq ≠ .row .lenchk) : 128 ≤ s.lenLatched := by
  obtain ⟨-, hlong, -⟩ := h.snapshot
  exact hlong hb hs

theorem Inv.recordOk {s : State} (h : Inv s) (hf : ¬ Filling s) : RecordOk (entryBound s) s.record := by
  obtain ⟨hn, hd, hr⟩ := h.files
  exact ⟨hn, fun e he => (hd e he).resolve_right fun hx => hf hx.2, hr, h.texts, h.ranges, h.timings⟩

theorem Inv.fillingOk {s : State} (h : Inv s) {k : Fin 4} (hb : s.status = .busy) (hs : s.seq = .branch k .flg) :
    FillingOk k.val s.record := by
  obtain ⟨hn, hd, hr⟩ := h.files
  have hbound : entryBound s = k.val := by rw [entryBound_busy hb, hs, blocksDone]
  refine ⟨hn.trans_eq hbound, fun e he => (hd e he.le).resolve_right fun hx => ?_, hr, h.texts, h.ranges, h.timings,
    h.geometry k hb hs⟩
  exact absurd hx.1 (Nat.ne_of_gt he)

/-- The invariant of a state in which no entry is being filled. -/
theorem inv_of_recordOk {s : State} (hm : s.input.wf = true) (hst : StatusAgrees s) (hc : CursorAgrees s) (hsn : SnapshotLong s)
    (hbr : BranchSelected s) (hab : RecordAbsent s) (hf : ¬ Filling s) (h : RecordOk (entryBound s) s.record) : Inv s := by
  obtain ⟨hn, hd, hr, ht, hx, htim⟩ := h
  exact ⟨hm, hst, hc, hsn, hbr, ⟨hn, fun e he => .inl (hd e he), hr⟩, hab, ht, hx, fun k hb hs => absurd ⟨k, hb, hs⟩ hf, htim⟩

/-- The invariant does not speak of the host's side but for the canonical form of `IN`. -/
theorem Inv.hostSide {s : State} (h : Inv s) {m : Memory} (hm : m.wf = true) (c : BitVec 2) (l : Nat) (es : List HostEvent)
    (rd : Reading) (n : Nat) :
    Inv { s with ctrl := c, len := l, input := m, host := es, readData := rd, draws := n } :=
  ⟨hm, h.status, h.cursor, h.snapshot, h.branch, h.files, h.absent, h.texts, h.ranges, h.geometry, h.timings⟩

/-- RESET establishes the invariant. -/
theorem inv_resetRegisters {s : State} (hm : s.input.wf = true) : Inv s.resetRegisters :=
  inv_of_recordOk hm ⟨by simp, by simp⟩ ⟨rfl, rfl⟩ ⟨rfl, nofun, nofun⟩ nofun (fun _ => rfl) nofun recordOk_reset

/-- START establishes it. -/
theorem inv_beginDecode {s : State} (hm : s.input.wf = true) : Inv s.beginDecode :=
  inv_of_recordOk hm ⟨by simp, by simp⟩ rfl ⟨by simp, fun _ h => absurd rfl h, nofun⟩ nofun (fun _ => rfl) nofun
    recordOk_reset

/-- A decode that moves to the successor of a row keeps it, if the cursor moves as R61 says and the record is in order. -/
theorem Inv.endRow {s : State} (h : Inv s) (hb : s.status = .busy) (hl : 128 ≤ s.lenLatched) {q : Row} {c : BitVec 8}
    (hc : c.toNat = q.next.cursor) {r : Record} (hr : RecordOk (blocksDone q.next) r) :
    Inv ({ s with record := r }.endRow q c) := by
  exact inv_of_recordOk h.memory h.status (cursorAgrees_busy hb hc) ⟨h.snapshot.1, fun _ _ => hl, fun _ => hl⟩
    (fun k b _ hs => absurd hs (next_ne_branch q k b)) (recordAbsent_busy hb (next_ne_lenchk q))
    (fun ⟨k, _, hs⟩ => next_ne_branch q k .flg hs) (hr.mono (le_entryBound_busy hb le_rfl))

end Sys2Proof.Safety

/-! The invariant is kept by every step: one lemma for the row operations, one for each other kind of operation, then the step. -/

namespace Sys2Proof.Safety

open Sys2Proof.Machine Sys2Proof.Laws

theorem blocksDone_next_desc (k : Fin 4) : blocksDone (Row.desc k).next = k.val + 1 := by fin_cases k <;> rfl

theorem blocksDone_le_next (q : Row) : blocksDone (.row q) ≤ blocksDone q.next := by
  cases q
  case desc k => exact (Nat.le_succ _).trans_eq (blocksDone_next_desc k).symm
  case extc => exact le_refl 4
  all_goals exact Nat.zero_le _

/-! ### What each kind of operation does -/

/-- A row operation past LENCHK moves on to the next row and keeps the record in order. -/
theorem exec_row_next {i : Instr} {q : Row} {s t : State} (hi : i.slot = .sched (.row q)) (hl : q ≠ .lenchk)
    (hd : ∀ k, q ≠ .desc k) (hc : s.cur.toNat = q.offset) (h : exec i s = .next t) :
    ∃ r c, t = { s with record := r }.endRow q c ∧ c.toNat = q.next.cursor ∧ ∀ n, RecordOk n s.record → RecordOk n r := by
  cases i
  case lenchk => cases hi; exact absurd rfl hl
  case desc k _ _ _ _ _ => cases hi; exact absurd rfl (hd k)
  case dtdGeo | dtdFlg | mser | mname | mrl | dskip | start | reset => cases hi
  case mfgid => cases hi; cases h; exact ⟨_, _, rfl, rfl, fun _ ok => ok.setMfg _ _ _⟩
  case myear v => cases hi; cases h; exact ⟨_, _, rfl, rfl, fun _ ok => ok.setYear (year_range v)⟩
  case gamma v => cases hi; cases h; exact ⟨_, _, rfl, rfl, fun _ ok => ok.setGamma (gamma_range v)⟩
  case stdt k w a f =>
    cases hi; cases h
    refine ⟨_, _, rfl, ?_, fun _ ok => ok.setStd k w a f⟩
    have : s.cur.toNat = 38 + 2 * k.val := hc
    rw [next_cursor, ← hc]
    exact BitVec.toNat_add_of_lt (by simp; omega)
  case cksum => cases hi; cases h; exact ⟨_, _, rfl, hc, fun _ => id⟩
  case hdr | prod | sernum | mweek | ever | erev | vidinD | vidinA | hsize | vsize | feat | chroma | est1 | est2 | est3 | extc =>
    cases hi; cases h; exact ⟨_, _, rfl, rfl, fun _ => id⟩

/-- The last operation of a descriptor block ends the block, with the record in order and counted as one more block done. -/
theorem exec_blockEnd_next {i : Instr} {k : Fin 4} {b : Branch} {s t : State} (hi : i.slot = .sched (.branch k b)) (hb : b ≠ .geo)
    (h : exec i s = .next t) {n : Nat} (ok : if b = .flg then FillingOk n s.record else RecordOk n s.record) :
    ∃ r, t = { s with record := r }.endBlock k ∧ RecordOk (n + 1) r := by
  cases i
  case dtdGeo => cases hi; exact absurd rfl hb
  case dtdFlg =>
    cases hi
    obtain ⟨e, he, rfl⟩ := exec_dtdFlg_next h
    exact ⟨_, rfl, FillingOk.close ok he _ _ _ _ _ _⟩
  case mser k x2 x4 t => cases hi; cases h; exact ⟨_, rfl, (RecordOk.setSertxt ok t).mono (Nat.le_succ n)⟩
  case mname k x2 x4 t =>
    cases hi; cases h
    have hlen : (stripTrim params t.toList).length ≤ 13 := (length_stripTrim_le params t.toList).trans_eq t.size_toArray
    exact ⟨_, rfl, (RecordOk.setName ok hlen).mono (Nat.le_succ n)⟩
  case mrl =>
    cases hi
    obtain ⟨e, he, rfl⟩ := exec_mrl_next h
    exact ⟨_, rfl, RecordOk.appendRng ok he _ _ _ _ _⟩
  case dskip => cases hi; cases h; exact ⟨_, rfl, RecordOk.mono ok (Nat.le_succ n)⟩
  all_goals cases hi

/-! ### Each kind keeps the invariant -/

section

variable {s t : State} (hinv : Inv s) (hb : s.status = .busy)
include hinv hb

/-- While a decode runs the cursor is the offset of the sequencer's place (R12, R61). -/
theorem Inv.cursor_busy : s.cur.toNat = s.seq.cursor := by
  have h := hinv.cursor
  rwa [CursorAgrees, hb] at h

/-- At a row no entry is being filled. -/
theorem Inv.recordOk_row {q : Row} (hs : s.seq = .row q) : RecordOk (blocksDone (.row q)) s.record := by
  have ok := hinv.recordOk fun ⟨k, _, hk⟩ => by rw [hs] at hk; cases hk
  rwa [entryBound_busy hb, hs] at ok

/-- At a branch operation other than DTD.FLG no entry is being filled. -/
theorem Inv.recordOk_branch {k : Fin 4} {b : Branch} (hs : s.seq = .branch k b) (hf : b ≠ .flg) : RecordOk k.val s.record := by
  have ok := hinv.recordOk fun ⟨j, _, hj⟩ => by rw [hs] at hj; cases hj; exact hf rfl
  rwa [entryBound_busy hb, hs] at ok

/-- LENCHK passes to CKSUM, or raises InsufficientData and leaves the absent record (R80, R163, R164). -/
theorem inv_exec_lenchk (hs : s.seq = .row .lenchk) (h : exec .lenchk s = .next t) : Inv t := by
  have ok := hinv.recordOk_row hb hs
  have hc : s.cur.toNat = 0 := (hinv.cursor_busy hb).trans (by rw [hs]; rfl)
  obtain ⟨-, rfl⟩ | ⟨hl, rfl⟩ := exec_lenchk_next h
  · have habs : s.record = .reset := hinv.absent (.inr (.inr ⟨hb, hs⟩))
    exact inv_of_recordOk hinv.memory ⟨by simp, by simp [params]⟩ ⟨rfl, rfl⟩ ⟨hinv.snapshot.1, nofun, nofun⟩ nofun (fun _ => habs)
      nofun ok
  · exact hinv.endRow hb hl hc ok

/-- DESC goes to the branch that the classifier selects (R52, R125). -/
theorem inv_exec_desc {k : Fin 4} {p0 p1 x2 tag : Byte} {x : Vector Byte 14} (hs : s.seq = .row (.desc k))
    (hf : fetch s = .ok (.desc k p0 p1 x2 tag x)) (h : exec (.desc k p0 p1 x2 tag x) s = .next t) : Inv t := by
  have ok := hinv.recordOk_row hb hs
  have hl : 128 ≤ s.lenLatched := hinv.latched_long hb (by rw [hs]; exact nofun)
  have hc : s.cur.toNat = 54 + 18 * k.val := (hinv.cursor_busy hb).trans (by rw [hs]; rfl)
  have hsel : descBranch p0 p1 tag = branchAt s.snap k.val := by
    obtain ⟨rest, hbytes⟩ := decode_desc_bytes hf
    rw [hs, hc] at hbytes
    rw [branchAt_of_drop hbytes, descBranch_eq_classify p0 p1 x2 tag]
  have hflg : descBranch p0 p1 tag ≠ .flg := by unfold descBranch; split_ifs <;> exact nofun
  have hkind : branchKind (descBranch p0 p1 tag) = descBranch p0 p1 tag := by unfold descBranch; split_ifs <;> rfl
  cases h
  refine inv_of_recordOk hinv.memory hinv.status (cursorAgrees_busy hb hc) ⟨hinv.snapshot.1, fun _ _ => hl, fun _ => hl⟩ ?_
    (recordAbsent_busy hb nofun) ?_ (ok.mono (le_entryBound_busy hb le_rfl))
  · rintro _ _ - hseq
    cases hseq
    exact hkind.trans hsel
  · rintro ⟨_, -, hseq⟩
    exact hflg (Place.branch.inj hseq).2

/-- DTD.GEO begins an entry with its clock in range, and DTD.FLG of the same block follows (R128, R134). -/
theorem inv_exec_dtdGeo {k : Fin 4} {g : Geo} (hs : s.seq = .branch k .geo) (hg : ¬ (g.pLo = 0 ∧ g.pHi = 0))
    (h : exec (.dtdGeo k g) s = .next t) : Inv t := by
  have ok := hinv.recordOk_branch hb hs nofun
  have hl : 128 ≤ s.lenLatched := hinv.latched_long hb (by rw [hs]; exact nofun)
  have hc : s.cur.toNat = 54 + 18 * k.val := (hinv.cursor_busy hb).trans (by rw [hs]; rfl)
  obtain ⟨e, he, rfl⟩ := exec_dtdGeo_next h
  obtain ⟨hn, hd, hr, ht, hx, htim, hclock⟩ := ok.fill he (clockInRange_geometry hg _)
  exact {
    memory := hinv.memory
    status := hinv.status
    cursor := cursorAgrees_busy hb hc
    snapshot := ⟨hinv.snapshot.1, fun _ _ => hl, fun _ => hl⟩
    branch := by
      rintro _ _ - hseq
      cases hseq
      exact hinv.branch k .geo hb hs
    files := by
      refine ⟨le_entryBound_busy hb hn, fun e he => ?_, hr⟩
      rcases Nat.lt_or_eq_of_le he with he | he
      · exact .inl (hd e he)
      · exact .inr ⟨he.symm, k, hb, rfl⟩
    absent := recordAbsent_busy hb nofun
    texts := ht
    ranges := hx
    geometry := fun _ _ _ => hclock
    timings := htim }

/-- The end row: the record is complete (R61, R153). -/
theorem inv_finishDecode (hs : s.seq = .finish) : Inv s.finishDecode := by
  have ok := hinv.recordOk fun ⟨k, _, hk⟩ => by rw [hs] at hk; cases hk
  have hl : 128 ≤ s.lenLatched := hinv.latched_long hb (by rw [hs]; exact nofun)
  have herr : s.errCode ≠ 1 := fun h => absurd (hb.symm.trans (hinv.status.2.1 h)) nofun
  refine inv_of_recordOk hinv.memory ⟨by simp, by simpa using herr⟩ ⟨rfl, rfl⟩ ⟨hinv.snapshot.1, fun _ _ => hl, fun _ => hl⟩ nofun ?_
    nofun ?_
  · rintro (h | h | ⟨h, -⟩) <;> cases h
  · rwa [entryBound_busy hb, hs] at ok

/-- A row operation past LENCHK. -/
theorem inv_exec_row {i : Instr} {q : Row} (hs : s.seq = .row q) (hi : i.slot = .sched (.row q)) (hq : q ≠ .lenchk)
    (hd : ∀ k, q ≠ .desc k) (h : exec i s = .next t) : Inv t := by
  have hl : 128 ≤ s.lenLatched := hinv.latched_long hb (by rw [hs]; simpa using hq)
  obtain ⟨r, c, rfl, hc, keep⟩ := exec_row_next hi hq hd ((hinv.cursor_busy hb).trans (by rw [hs]; rfl)) h
  exact hinv.endRow hb hl hc ((keep _ (hinv.recordOk_row hb hs)).mono (blocksDone_le_next q))

/-- The last operation of a descriptor block. -/
theorem inv_exec_blockEnd {i : Instr} {k : Fin 4} {b : Branch} (hs : s.seq = .branch k b) (hi : i.slot = .sched (.branch k b))
    (hne : b ≠ .geo) (h : exec i s = .next t) : Inv t := by
  have hl : 128 ≤ s.lenLatched := hinv.latched_long hb (by rw [hs]; exact nofun)
  have hc : s.cur.toNat = 54 + 18 * k.val := (hinv.cursor_busy hb).trans (by rw [hs]; rfl)
  have ok : if b = .flg then FillingOk k.val s.record else RecordOk k.val s.record := by
    split
    · next hf => exact hinv.fillingOk hb (hf ▸ hs)
    · next hf => exact hinv.recordOk_branch hb hs hf
  obtain ⟨r, rfl, hr⟩ := exec_blockEnd_next hi hne h ok
  refine hinv.endRow hb hl ?_ (hr.mono (blocksDone_next_desc k).ge)
  rw [next_cursor]
  exact (BitVec.toNat_add_of_lt (by simp; omega)).trans (congrArg (· + 18) hc)

/-- The operation that stands at the cursor. -/
theorem inv_exec_fetched {i : Instr} (hf : fetch s = .ok i) (h : exec i s = .next t) : Inv t := by
  have hslot : i.slot = .sched s.seq := slot_of_decode hf
  cases i
  case start | reset => cases hslot
  case lenchk => exact inv_exec_lenchk hinv hb (Slot.sched.inj hslot).symm h
  case desc => exact inv_exec_desc hinv hb (Slot.sched.inj hslot).symm hf h
  case dtdGeo => exact inv_exec_dtdGeo hinv hb (Slot.sched.inj hslot).symm (decode_dtdGeo_clock hf) h
  case dtdFlg | mser | mname | mrl | dskip => exact inv_exec_blockEnd hinv hb (Slot.sched.inj hslot).symm rfl nofun h
  all_goals exact inv_exec_row hinv hb (Slot.sched.inj hslot).symm rfl nofun nofun h

/-- One step of a running decode. -/
theorem inv_runPlace (h : runPlace s = .next t) : Inv t := by
  obtain ⟨hs, rfl⟩ | ⟨i, hf, h⟩ := runPlace_next h
  · exact inv_finishDecode hinv hb hs
  · exact inv_exec_fetched hinv hb hf h

end

/-! ### The step -/

theorem inv_blockStep {s t : State} (hinv : Inv s) (h : blockStep s = .next t) : Inv t := by
  by_cases hb : s.status = .busy
  · exact inv_runPlace hinv hb ((blockStep_busy hb).symm.trans h)
  · cases (blockStep_idle hb).symm.trans h
    exact hinv

theorem inv_takeCtrl {s t : State} (hinv : Inv s) (hc : s.ctrl ≠ 0) (h : takeCtrl s = .next t) : Inv t := by
  rw [takeCtrl_eq hc] at h
  split at h
  · unfold execStart at h
    split at h
    · cases h
    · cases h; exact inv_beginDecode hinv.memory
  · cases h; exact inv_resetRegisters hinv.memory

theorem inv_hostStep {e : HostEvent} {s t : State} (hinv : Inv s) (h : hostStep e s = .next t) : Inv t := by
  by_cases hw : e = .wait
  · subst hw; exact inv_blockStep hinv h
  by_cases hr : e = .assertReset
  · subst hr; cases h; exact inv_resetRegisters hinv.memory
  · obtain ⟨c, l, m, rd, n, rfl, hm⟩ := hostStep_next hw hr h
    exact hinv.hostSide (hm hinv.memory) c l s.host rd n

/-- Settles O53, by the three shapes of a step: a `CTRL` write establishes the invariant anew, an operation of the schedule moves the
block on with its record in order, and a host event reaches none of the fields the invariant speaks of but `IN`. -/
theorem invariantIsKeptByEveryStep : Obligations.InvariantIsKeptByEveryStep := by
  intro s t hinv h
  obtain ⟨hc, hstep⟩ | ⟨-, -, hstep⟩ | ⟨-, e, es, -, hstep⟩ := step_cases s
  · exact inv_takeCtrl hinv hc (hstep.symm.trans h)
  · exact inv_blockStep hinv (hstep.symm.trans h)
  · exact inv_hostStep (hinv.hostSide hinv.memory s.ctrl s.len es s.readData s.draws) (hstep.symm.trans h)

/-- Settles O52: the first state is the one RESET makes of it. -/
theorem invariantHoldsAtReset : Obligations.InvariantHoldsAtReset := inv_resetRegisters (s := State.reset) rfl

end Sys2Proof.Safety

/-! The "writes" column of the opcode table (R27, R72): what each operation leaves in the record. -/

namespace Sys2Proof.Machine

open Sys2Proof.Safety

/-- A detailed-timing field that DTD.GEO does not write is kept. -/
theorem reading_geometry (g : Geo) (e : DtdEntry) {f : DtdField} (hf : isFlagField f = true) :
    (geometry g e).reading f = e.reading f := by
  cases f
  case interlaced | stereo | syncType | vsyncPol | hsyncPol => rfl
  all_goals cases hf

/-- A detailed-timing field that DTD.FLG does not write is kept. -/
theorem reading_timingFlags (n : Bit) (s t : BitVec 2) (u r z : Bit) (e : DtdEntry) {f : DtdField} (hf : isFlagField f = false) :
    (timingFlags n s t u r z e).reading f = e.reading f := by
  cases f
  case interlaced | stereo | syncType | vsyncPol | hsyncPol => cases hf
  all_goals rfl

/-- An update of one entry of `REC.DTD` that keeps a field keeps it in every entry. -/
theorem reading_updateDtd (r : Record) {e j : Fin 4} {f : DtdEntry → DtdEntry} {g : DtdField}
    (h : j = e → (f r.dtd[e]).reading g = r.dtd[e].reading g) : (r.updateDtd e f).dtd[j].reading g = r.dtd[j].reading g := by
  by_cases hj : j = e
  · rw [hj, updateDtd_same, h hj]
  · rw [updateDtd_other r hj]

/-! The next two are stated for any value: with the operation's own one in place, comparing two records by `rfl` would evaluate it
(the number 1990 of MYEAR, the trimmed text of MNAME). -/

/-- A new year reaches no other register. -/
theorem reading_setYear (r : Record) (y : BitVec 12) {g : RecReg} (hg : g ≠ .year) :
    ({ r with year := y } : Record).reading g = r.reading g := by
  cases g
  case year => exact absurd rfl hg
  all_goals rfl

/-- A new name reaches no other register. -/
theorem reading_setName (r : Record) (n : Vector Byte 13) (l : BitVec 4) {g : RecReg} (hn : ∀ j, g ≠ .name j) (hl : g ≠ .nameLen) :
    ({ r with name := n, nameLen := l } : Record).reading g = r.reading g := by
  cases g
  case name j => exact absurd rfl (hn j)
  case nameLen => exact absurd rfl hl
  all_goals rfl

/-- Settles O49, operation by operation: a register of the operation's row is excluded by the hypothesis, and any other register is
no part of the update. -/
theorem recordRegistersKeepTheirWriters : Obligations.RecordRegistersKeepTheirWriters := by
  intro i s t g h hw
  cases i
  case start | reset => cases hw
  case lenchk => obtain ⟨-, rfl⟩ | ⟨-, rfl⟩ := exec_lenchk_next h <;> rfl
  case desc | dskip => cases h; rfl
  case myear => cases h; exact reading_setYear _ _ fun hg => by subst hg; cases hw
  case mname => cases h; exact reading_setName _ _ _ (fun j hg => by subst hg; cases hw) fun hg => by subst hg; cases hw
  case stdt k w a f =>
    cases h; cases g
    case std j fld =>
      have hne : k.val ≠ j.val := fun he => by simp [writes, Fin.ext he.symm] at hw
      exact congrArg (StdEntry.reading · fld) (Vector.getElem_set_ne k.isLt j.isLt hne)
    all_goals rfl
  case dtdGeo k geo =>
    obtain ⟨e, he, rfl⟩ := exec_dtdGeo_next h
    cases g
    case dtd j fld =>
      exact reading_updateDtd _ fun hj => reading_geometry _ _ (by simpa [writes, hj, he] using hw)
    all_goals rfl
  case dtdFlg =>
    obtain ⟨e, he, rfl⟩ := exec_dtdFlg_next h
    cases g
    case dtd j fld =>
      exact reading_updateDtd _ fun hj => reading_timingFlags _ _ _ _ _ _ _ (by simpa [writes, hj, he] using hw)
    case dtdCount => cases hw
    all_goals rfl
  case mrl =>
    obtain ⟨e, he, rfl⟩ := exec_mrl_next h
    cases g
    case rng j fld =>
      have hne : e.val ≠ j.val := fun hj => by simp [writes, ← hj, he] at hw
      exact congrArg (RngEntry.reading · fld) (Vector.getElem_set_ne e.isLt j.isLt hne)
    case rngCount => cases hw
    all_goals rfl
  -- the other operations write whole registers: `hw` is absurd at those and empty elsewhere
  all_goals cases h; cases g <;> cases hw <;> rfl

end Sys2Proof.Machine

/-! The small statements: the first state, the host's writes, the record outside a decode, and what a step runs. -/

namespace Sys2Proof.Machine

open Sys2Proof.Safety

/-- Every register of the reset record reads 0 (R28). -/
theorem reading_reset (g : RecReg) : (Record.reset.reading g).value = 0 := by
  cases g
  case header i | mfg i | name i | sertxt i => simp [Record.reading, Record.reset, Reading.of]
  case std k f => cases f <;> simp [Record.reading, Record.reset, StdEntry.reading, StdEntry.reset, Reading.of]
  case dtd e f => cases f <;> simp [Record.reading, Record.reset, DtdEntry.reading, DtdEntry.reset, Reading.of]
  case rng e f => cases f <;> simp [Record.reading, Record.reset, RngEntry.reading, RngEntry.reset, Reading.of]
  all_goals rfl

/-- Settles O3, field by field. -/
theorem firstStateHoldsResetValues : Obligations.FirstStateHoldsResetValues :=
  ⟨rfl, rfl, rfl, rfl, rfl, rfl, reading_reset, rfl, rfl, rfl, fun _ => rfl, rfl, rfl, rfl⟩

/-- Settles O6: a pending `CTRL` write comes first, and 1 is START. -/
theorem stepTakesPendingStart : Obligations.StepTakesPendingStart := by
  intro s h
  rw [step_ctrl (by rw [h]; decide), if_pos h]; rfl

/-- Settles O8: the next host event is taken off the list and written; `Memory.read_write` and `Memory.wf_write` say what becomes of
`IN`. -/
theorem hostWritesReachInputLenAndCtrl : Obligations.HostWritesReachInputLenAndCtrl := by
  intro s es hc
  refine ⟨fun v hh => ⟨BitVec.ofNat 2 v, BitVec.toNat_ofNat v 2, ?_⟩, fun hidle => ⟨fun v hh => ?_, fun hm a b hh => ?_⟩⟩
  · rw [step_event hc hh]; rfl
  · rw [step_event hc hh]
    exact if_neg fun h => hidle h.1
  · refine ⟨s.input.write a b, ?_, Memory.wf_write hm a b, fun x => Memory.read_write hm a x b⟩
    rw [step_event hc hh]
    exact if_neg fun h => hidle h.1

/-- Settles O12: without a `CTRL` write or the reset input the block idles, or the host reaches its own fields only. -/
theorem recordIsKeptOutsideADecode : Obligations.RecordIsKeptOutsideADecode := by
  intro s t hidle hc hr h
  obtain ⟨hc', -⟩ | ⟨-, -, hstep⟩ | ⟨-, e, es, hh, hstep⟩ := step_cases s
  · exact absurd hc hc'
  · cases (hstep.trans (blockStep_idle hidle)).symm.trans h
    exact ⟨rfl, rfl, rfl, rfl, rfl, rfl, rfl⟩
  · by_cases hw : e = .wait
    · subst hw
      cases (hstep.trans (blockStep_idle hidle)).symm.trans h
      exact ⟨rfl, rfl, rfl, rfl, rfl, rfl, rfl⟩
    · obtain ⟨_, _, _, _, _, rfl, -⟩ := hostStep_next hw (fun he => hr es (he ▸ hh)) (hstep.symm.trans h)
      exact ⟨rfl, rfl, rfl, rfl, rfl, rfl, rfl⟩

/-- Settles O13: a silent or waiting host lets the block run the place, whose operation the fetch decodes. -/
theorem stepRunsTheDecodedInstruction : Obligations.StepRunsTheDecodedInstruction := by
  intro s i hc hb _ hf
  refine ⟨fun hh => ?_, fun es hh => ?_⟩
  · rw [step_silent hc hh, blockStep_busy hb, runPlace_fetch hf]
  · rw [step_event hc hh]
    exact (blockStep_busy (s := { s with host := es }) hb).trans (runPlace_fetch hf)

/-- Settles O47: the three appends go through `atEntry`. -/
theorem fullFileStopsAnAppend : Obligations.FullFileStopsAnAppend := by
  refine fun s k => ⟨fun hfull => ⟨fun g => ?_, fun n sf ty u r z => ?_⟩, fun hfull x2 x4 vmin vmax hmin hmax c x => ?_⟩
  · change execDtdGeo k g s = _; exact atEntry_full hfull
  · change execDtdFlg k n sf ty u r z s = _; exact atEntry_full hfull
  · change execMrl k x2 x4 vmin vmax hmin hmax c x s = _; exact atEntry_full hfull

end Sys2Proof.Machine

/-! The frame of an operation (R41): a scheduled operation past LENCHK writes the record, the cursor and the sequencer's place alone, and
only the host writes `IN`. -/

namespace Sys2Proof.Machine

open Sys2Proof.Safety

/-- A scheduled operation other than LENCHK reaches the record, the cursor and the sequencer's place, and nothing else. -/
theorem exec_scheduled_next {i : Instr} {s t : State} (h : exec i s = .next t) (hi : scheduled i = true) (hl : i ≠ .lenchk) :
    ∃ r c p, t = { s with record := r, cur := c, seq := p } := by
  cases i
  case lenchk => exact absurd rfl hl
  case start | reset => cases hi
  case dtdGeo => obtain ⟨_, -, rfl⟩ := exec_dtdGeo_next h; exact ⟨_, _, _, rfl⟩
  case dtdFlg => obtain ⟨_, -, rfl⟩ := exec_dtdFlg_next h; exact ⟨_, _, _, rfl⟩
  case mrl => obtain ⟨_, -, rfl⟩ := exec_mrl_next h; exact ⟨_, _, _, rfl⟩
  all_goals cases h; exact ⟨_, _, _, rfl⟩

/-- Settles O48: LENCHK has two answers, which keep the host's side, and every other operation writes three fields alone. -/
theorem scheduleFrame : Obligations.ScheduleFrame := by
  intro i s t hi h
  by_cases hl : i = .lenchk
  · subst hl
    obtain ⟨-, rfl⟩ | ⟨-, rfl⟩ := exec_lenchk_next h <;>
      exact ⟨rfl, rfl, rfl, rfl, rfl, rfl, rfl, fun _ => rfl, fun hne => absurd rfl hne⟩
  · obtain ⟨_, _, _, rfl⟩ := exec_scheduled_next h hi hl
    exact ⟨rfl, rfl, rfl, rfl, rfl, rfl, rfl, fun _ => rfl, fun _ => ⟨rfl, rfl, rfl⟩⟩

/-- START that answers a next state has begun a decode (R151). -/
theorem exec_start_next {s t : State} (h : exec .start s = .next t) : t = s.beginDecode := by
  change execStart s = _ at h
  unfold execStart at h
  split at h
  · cases h
  · cases h; rfl

/-- No operation writes `IN`, the host-selected ones included (R41, R181). -/
theorem exec_next_input {i : Instr} {s t : State} (h : exec i s = .next t) : t.input = s.input := by
  cases i
  case lenchk => obtain ⟨-, rfl⟩ | ⟨-, rfl⟩ := exec_lenchk_next h <;> rfl
  case start => obtain rfl := exec_start_next h; rfl
  case reset => cases h; rfl
  all_goals obtain ⟨_, _, _, rfl⟩ := exec_scheduled_next h rfl nofun; rfl

/-- A `CTRL` write that answers a next state has run an operation. -/
theorem takeCtrl_next {s t : State} (h : takeCtrl s = .next t) : ∃ i, exec i s = .next t := by
  unfold takeCtrl at h
  split at h
  · exact ⟨_, h⟩
  · cases h

/-- A step of the block alone does not write `IN`. -/
theorem blockStep_next_input {s t : State} (h : blockStep s = .next t) : t.input = s.input := by
  by_cases hb : s.status = .busy
  · obtain ⟨-, rfl⟩ | ⟨i, -, h⟩ := runPlace_next ((blockStep_busy hb).symm.trans h)
    · rfl
    · exact exec_next_input h
  · cases (blockStep_idle hb).symm.trans h; rfl

/-- No host event but a write of `IN` changes `IN`. -/
theorem hostStep_next_input {e : HostEvent} {s t : State} (he : ∀ a b, e ≠ .writeIn a b) (h : hostStep e s = .next t) :
    t.input = s.input := by
  cases e with
  | wait => exact blockStep_next_input h
  | writeIn a b => exact absurd rfl (he a b)
  | write r v => obtain ⟨-, rfl⟩ | ⟨-, rfl⟩ := hostWrite_next h <;> rfl
  | read r => cases h; rfl
  | assertReset => exact exec_next_input (i := .reset) h

/-- Settles O50, by the three shapes of a step. -/
theorem onlyTheHostWritesInput : Obligations.OnlyTheHostWritesInput := by
  intro s t h hw
  suffices ht : t.input = s.input from ⟨ht, fun _ => by rw [ht]⟩
  obtain ⟨-, hstep⟩ | ⟨-, -, hstep⟩ | ⟨hc, e, es, hh, hstep⟩ := step_cases s
  · obtain ⟨i, hi⟩ := takeCtrl_next (hstep.symm.trans h)
    exact exec_next_input hi
  · exact blockStep_next_input (hstep.symm.trans h)
  · exact hostStep_next_input (s := { s with host := es }) (fun a b he => hw a b es hc (he ▸ hh)) (hstep.symm.trans h)

end Sys2Proof.Machine

/-! When the decoder answers (R47, R52): at every row that has its bytes up to offset 127, and at every branch place whose block selects
that branch. -/

namespace Sys2Proof.Laws

/-- To speak of every list of at least `n + 1` bytes, take off the first one. -/
theorem forall_cons_of_le {n : Nat} {P : List Byte → Prop} (h : ∀ b bs, n ≤ bs.length → P (b :: bs)) :
    ∀ bs, n + 1 ≤ bs.length → P bs
  | [], hlen => absurd hlen (Nat.not_succ_le_zero n)
  | b :: bs, hlen => h b bs (Nat.le_of_succ_le_succ hlen)

theorem oneByte_of_pos (f : Byte → Instr) : ∀ bs : List Byte, 1 ≤ bs.length → ∃ i, oneByte bs f = .ok i :=
  forall_cons_of_le fun v _ _ => ⟨f v, rfl⟩

/-- The 17 bytes of R129 give a geometry. -/
theorem geoFields_of_le : ∀ bs : List Byte, 17 ≤ bs.length → ∃ g, geoFields bs = some g := by
  iterate 17 refine forall_cons_of_le fun _ => ?_
  exact fun _ _ => ⟨_, rfl⟩

/-- A row but CKSUM, which does not move the cursor, is decoded from as many bytes as it moves the cursor by (R61). -/
theorem decodeRow_of_size_le {r : Row} (hr : r ≠ .cksum) : ∀ bs : List Byte, r.size ≤ bs.length → ∃ i, decodeRow r bs = .ok i := by
  cases r
  case cksum => exact absurd rfl hr
  case lenchk => exact fun _ _ => ⟨_, rfl⟩
  case hdr => exact fun _ h => ⟨_, dif_pos h⟩
  case mweek | myear | ever | erev | vidin | hsize | vsize | gamma | feat | est1 | est2 | est3 | extc => exact oneByte_of_pos _
  case mfgid | prod | stdt =>
    iterate 2 refine forall_cons_of_le fun _ => ?_
    exact fun _ _ => ⟨_, rfl⟩
  case sernum =>
    iterate 4 refine forall_cons_of_le fun _ => ?_
    exact fun _ _ => ⟨_, rfl⟩
  case chroma =>
    iterate 2 refine forall_cons_of_le fun _ => ?_
    exact fun _ h => ⟨_, dif_pos h⟩
  case desc =>
    iterate 4 refine forall_cons_of_le fun _ => ?_
    exact fun _ h => ⟨_, dif_pos h⟩

/-- The rows lie within the block (R46). -/
theorem offset_add_size_le (r : Row) : r.offset + r.size ≤ 128 := by
  cases r
  case stdt k | desc k => simp only [Row.offset, Row.size]; omega
  all_goals decide

/-- A row's operation is decoded from its offset on if the bytes reach offset 127 (R46, R47). -/
theorem decodeRow_of_le {r : Row} {bs : List Byte} (h : 128 ≤ r.offset + bs.length) : ∃ i, decodeRow r bs = .ok i := by
  by_cases hr : r = .cksum
  · subst hr
    exact ⟨_, dif_pos (h.trans_eq (Nat.zero_add _))⟩
  · have := offset_add_size_le r
    exact decodeRow_of_size_le hr bs (by omega)

section

variable {snap : List Byte} {k : Fin 4} {b : Branch}

/-- A block that selects a branch is handed to that branch's format, with the bytes from `D[4]` on (R52, R65). -/
theorem blockOf_of_selected {n : Nat} {f : Byte → Byte → List Byte → Except Reject Instr}
    (hsel : Machine.branchAt snap k.val = b) (h : n + 4 ≤ (snap.drop (54 + 18 * k.val)).length)
    (hf : ∀ x y rest, n ≤ rest.length → ∃ i, f x y rest = .ok i) : ∃ i, blockOf b (snap.drop (54 + 18 * k.val)) f = .ok i := by
  suffices H : ∀ bs : List Byte, n + 4 ≤ bs.length → snap.drop (54 + 18 * k.val) = bs → ∃ i, blockOf b bs f = .ok i from
    H _ h rfl
  refine forall_cons_of_le fun d0 => forall_cons_of_le fun d1 => forall_cons_of_le fun d2 => forall_cons_of_le
    fun d3 rest hlen hbs => ?_
  obtain ⟨i, hi⟩ := hf d2 d3 rest hlen
  exact ⟨i, (if_pos ((branchAt_of_drop hbs).symm.trans hsel)).trans hi⟩

/-- The branch that a block selects decodes the block (R52). -/
theorem decodeBranch_of_selected (hl : snap.length = 128) (hsel : Machine.branchAt snap k.val = b) :
    ∃ i, decodeBranch k b (snap.drop (54 + 18 * k.val)) = .ok i := by
  have h : 14 + 4 ≤ (snap.drop (54 + 18 * k.val)).length := by rw [List.length_drop]; omega
  cases b
  case flg => exact oneByte_of_pos _ _ (by omega)
  case geo =>
    obtain ⟨g, hg⟩ := geoFields_of_le (snap.drop (54 + 18 * k.val)) (by omega)
    exact blockOf_of_selected hsel h fun _ _ _ _ => ⟨.dtdGeo k g, by rw [hg]⟩
  case skip => exact blockOf_of_selected hsel h fun _ _ _ hr => ⟨_, dif_pos hr⟩
  case ser | name =>
    refine blockOf_of_selected hsel h fun _ _ => forall_cons_of_le fun _ _ hr => ?_
    exact ⟨_, dif_pos hr⟩
  case range =>
    refine blockOf_of_selected hsel h fun _ _ => ?_
    iterate 6 refine forall_cons_of_le fun _ => ?_
    exact fun _ hr => ⟨_, dif_pos hr⟩

/-- DTD.FLG decodes byte 17 of any block (R134). -/
theorem decodeBranch_flg (hl : snap.length = 128) : ∃ i, decodeBranch k .flg (snap.drop (54 + 18 * k.val + 17)) = .ok i :=
  oneByte_of_pos _ _ (by rw [List.length_drop]; omega)

end

end Sys2Proof.Laws

/-! The two faults and the invariant (R22, R47, R52): a fault of an operation means a full register file, and neither a full file nor a
failed fetch arises. -/

namespace Sys2Proof.Machine

/-- An append that faults found no free entry. -/
theorem atEntry_fault {c : BitVec 3} {g : Fin 4 → State} {f : Fault} (h : atEntry c (fun e => .next (g e)) = .fault f) :
    4 ≤ c.toNat := by
  by_contra hc
  rw [atEntry_of_lt (Nat.lt_of_not_le hc)] at h
  cases h

/-- An operation that faults is one of a descriptor branch, and a register file is full. -/
theorem exec_fault {i : Instr} {s : State} {f : Fault} (h : exec i s = .fault f) :
    (∃ k b, i.slot = .sched (.branch k b)) ∧ (4 ≤ s.record.dtdCount.toNat ∨ 4 ≤ s.record.rngCount.toNat) := by
  cases i
  case dtdGeo k g => change execDtdGeo k g s = _ at h; exact ⟨⟨k, .geo, rfl⟩, .inl (atEntry_fault h)⟩
  case dtdFlg k n sf ty u r z => change execDtdFlg k n sf ty u r z s = _ at h; exact ⟨⟨k, .flg, rfl⟩, .inl (atEntry_fault h)⟩
  case mrl k x2 x4 vmin vmax hmin hmax c x =>
    change execMrl k x2 x4 vmin vmax hmin hmax c x s = _ at h
    exact ⟨⟨k, .range, rfl⟩, .inr (atEntry_fault h)⟩
  case lenchk => change execLenchk s = _ at h; unfold execLenchk at h; split at h <;> cases h
  case start => change execStart s = _ at h; unfold execStart at h; split at h <;> cases h
  all_goals cases h

/-- A `CTRL` write does not fault. -/
theorem takeCtrl_ne_fault {s : State} (hc : s.ctrl ≠ 0) (f : Fault) : takeCtrl s ≠ .fault f := by
  rw [takeCtrl_eq hc]
  unfold execStart
  split_ifs <;> exact nofun

/-- A host write is accepted or refused. -/
theorem hostWriteIn_ne_fault (a : Nat) (b : Byte) (s : State) (f : Fault) : hostWriteIn a b s ≠ .fault f := by
  unfold hostWriteIn
  split <;> exact nofun

theorem hostWrite_ne_fault (r : HostReg) (v : Nat) (s : State) (f : Fault) : hostWrite r v s ≠ .fault f := by
  cases r
  case len => simp only [hostWrite]; split <;> exact nofun
  all_goals exact nofun

end Sys2Proof.Machine

namespace Sys2Proof.Safety

open Sys2Proof.Machine Sys2Proof.Laws

section

variable {s : State} (hinv : Inv s) (hb : s.status = .busy)
include hinv hb

/-- Past LENCHK the snapshot has all 128 bytes (R47, R49). -/
theorem Inv.snap_length (hs : s.seq ≠ .row .lenchk) : s.snap.length = 128 :=
  hinv.snapshot.1.trans (Nat.min_eq_right (hinv.latched_long hb hs))

/-- While a decode runs every fetch succeeds (R47, R52). -/
theorem Inv.fetch_ok (hs : s.seq ≠ .finish) : ∃ i, fetch s = .ok i := by
  rw [fetch, hinv.cursor_busy hb]
  cases hq : s.seq with
  | finish => exact absurd hq hs
  | row r =>
    by_cases hr : r = .lenchk
    · subst hr; exact ⟨_, rfl⟩
    · have hl := hinv.snap_length hb (by rw [hq]; simpa using hr)
      refine decodeRow_of_le ?_
      rw [List.length_drop, hl]
      exact le_add_tsub
  | branch k b =>
    have hl := hinv.snap_length hb (by rw [hq]; exact nofun)
    cases b
    case flg => exact decodeBranch_flg hl
    all_goals exact decodeBranch_of_selected hl (hinv.branch k _ hb hq).symm

/-- While a decode stands at a branch operation both register files have a free entry (R22). -/
theorem Inv.files_free {k : Fin 4} {b : Branch} (hs : s.seq = .branch k b) :
    s.record.dtdCount.toNat < 4 ∧ s.record.rngCount.toNat < 4 := by
  obtain ⟨hn, -⟩ := hinv.files
  rw [entryBound_busy hb, hs, blocksDone] at hn
  omega

/-- A running decode does not fault. -/
theorem runPlace_ne_fault (f : Fault) : runPlace s ≠ .fault f := by
  intro h
  by_cases hs : s.seq = .finish
  · cases (runPlace_finish hs).symm.trans h
  · obtain ⟨i, hi⟩ := hinv.fetch_ok hb hs
    obtain ⟨⟨k, b, hslot⟩, hfull⟩ := exec_fault ((runPlace_fetch hi).symm.trans h)
    have hseq : s.seq = .branch k b := Slot.sched.inj ((slot_of_decode hi).symm.trans hslot)
    have := hinv.files_free hb hseq
    omega

end

theorem blockStep_ne_fault {s : State} (hinv : Inv s) (f : Fault) : blockStep s ≠ .fault f := by
  by_cases hb : s.status = .busy
  · rw [blockStep_busy hb]; exact runPlace_ne_fault hinv hb f
  · rw [blockStep_idle hb]; exact nofun

theorem hostStep_ne_fault {e : HostEvent} {s : State} (hinv : Inv s) (f : Fault) : hostStep e s ≠ .fault f := by
  cases e with
  | wait => exact blockStep_ne_fault hinv f
  | writeIn a b => exact hostWriteIn_ne_fault a b s f
  | write r v => exact hostWrite_ne_fault r v s f
  | read r => exact nofun
  | assertReset => exact nofun

/-- Settles O54, by the three shapes of a step: the invariant makes every fetch succeed and leaves every append a free entry, and neither
`CTRL` nor the host has a way to fault. -/
theorem noStepFaults : Obligations.NoStepFaults := by
  intro s hinv f
  obtain ⟨hc, hstep⟩ | ⟨-, -, hstep⟩ | ⟨-, e, es, -, hstep⟩ := step_cases s <;> rw [hstep]
  · exact takeCtrl_ne_fault hc f
  · exact blockStep_ne_fault hinv f
  · exact hostStep_ne_fault (hinv.hostSide hinv.memory s.ctrl s.len es s.readData s.draws) f

end Sys2Proof.Safety

/-! The classifier of R65 branch by branch, in the block's bytes: the clock comes first, and the tag `D[3]` is looked at only when the
clock is zero. -/

namespace Sys2Proof.Laws

section

variable {d0 d1 d2 d3 : Byte}

/-- The detailed timing branch is the one with a clock. -/
theorem classify_eq_geo_iff : classify (prefixWord d0 d1 d2 d3) = .geo ↔ ¬ (d0 = 0 ∧ d1 = 0) := by
  rw [classify_prefixWord]
  by_cases hz : d0 = 0 ∧ d1 = 0
  · rw [if_pos hz]
    refine iff_of_false (fun h => ?_) (not_not.2 hz)
    split_ifs at h
  · exact iff_of_true (if_neg hz) hz

/-- A monitor branch is selected by the tag, and with a clock of zero only. -/
theorem classify_eq_iff_of_ne_geo {b : Branch} (hb : b ≠ .geo) : classify (prefixWord d0 d1 d2 d3) = b ↔ (d0 = 0 ∧ d1 = 0) ∧
    (if d3 = 0xFF then Branch.ser else if d3 = 0xFC then .name else if d3 = 0xFD then .range else .skip) = b := by
  rw [classify_prefixWord]
  by_cases hz : d0 = 0 ∧ d1 = 0
  · rw [if_pos hz, and_iff_right hz]
  · rw [if_neg hz]
    exact iff_of_false hb.symm fun h => hz h.1

theorem classify_eq_ser_iff : classify (prefixWord d0 d1 d2 d3) = .ser ↔ (d0 = 0 ∧ d1 = 0) ∧ d3 = 0xFF := by
  refine (classify_eq_iff_of_ne_geo (by decide)).trans (and_congr_right fun _ => ?_)
  split_ifs <;> simp_all

theorem classify_eq_name_iff : classify (prefixWord d0 d1 d2 d3) = .name ↔ (d0 = 0 ∧ d1 = 0) ∧ d3 = 0xFC := by
  refine (classify_eq_iff_of_ne_geo (by decide)).trans (and_congr_right fun _ => ?_)
  split_ifs <;> simp_all

theorem classify_eq_range_iff : classify (prefixWord d0 d1 d2 d3) = .range ↔ (d0 = 0 ∧ d1 = 0) ∧ d3 = 0xFD := by
  refine (classify_eq_iff_of_ne_geo (by decide)).trans (and_congr_right fun _ => ?_)
  split_ifs <;> simp_all

theorem classify_eq_skip_iff :
    classify (prefixWord d0 d1 d2 d3) = .skip ↔ (d0 = 0 ∧ d1 = 0) ∧ d3 ≠ 0xFF ∧ d3 ≠ 0xFC ∧ d3 ≠ 0xFD := by
  refine (classify_eq_iff_of_ne_geo (by decide)).trans (and_congr_right fun _ => ?_)
  split_ifs <;> simp_all

/-- The clock of R65 in numbers is zero with both its bytes. -/
theorem clock_eq_zero_iff : d0.toNat + 256 * d1.toNat = 0 ↔ d0 = 0 ∧ d1 = 0 := by
  bv_omega

end

/-- Settles O19, from the five conditions on the bytes: the clock is zero with both its bytes, and a tag is compared as a number. -/
theorem classifierAgreesWithClockAndTag : Obligations.ClassifierAgreesWithClockAndTag := by
  intro d0 d1 d2 d3
  have tag (t : Byte) : d3.toNat = t.toNat ↔ d3 = t := BitVec.toNat_inj
  refine ⟨classify_eq_geo_iff.trans (not_congr clock_eq_zero_iff).symm, classify_eq_ser_iff.trans ?_, classify_eq_name_iff.trans ?_,
    classify_eq_range_iff.trans ?_, classify_eq_skip_iff.trans ?_⟩
  all_goals rw [clock_eq_zero_iff]
  · exact and_congr_right fun _ => (tag 0xFF).symm
  · exact and_congr_right fun _ => (tag 0xFC).symm
  · exact and_congr_right fun _ => (tag 0xFD).symm
  · exact and_congr_right fun _ => and_congr (tag 0xFF).symm.not (and_congr (tag 0xFC).symm.not (tag 0xFD).symm.not)

end Sys2Proof.Laws

/-! The encoding, in both directions (R62, R63), and that every place of the schedule decodes (R61). What a place decodes keeps every bit
of the bytes it was read from, so its encoding is those bytes. -/

namespace Sys2Proof.Laws

/-- Settles O17, instruction by instruction: the family RoundTrip of the laws. -/
theorem decodeOfEncodeIsTheInstruction : Obligations.DecodeOfEncodeIsTheInstruction := by
  intro i rest hwf
  cases i with
  | lenchk => exact RoundTrip.lenchk rest hwf
  | cksum s => exact RoundTrip.cksum s rest hwf
  | hdr h => exact RoundTrip.hdr h rest hwf
  | mfgid x a b c => exact RoundTrip.mfgid x a b c rest hwf
  | prod lo hi => exact RoundTrip.prod lo hi rest hwf
  | sernum a b c d => exact RoundTrip.sernum a b c d rest hwf
  | mweek v => exact RoundTrip.mweek v rest hwf
  | myear v => exact RoundTrip.myear v rest hwf
  | ever v => exact RoundTrip.ever v rest hwf
  | erev v => exact RoundTrip.erev v rest hwf
  | vidinD x d => exact RoundTrip.vidinD x d rest hwf
  | vidinA x c g x0 => exact RoundTrip.vidinA x c g x0 rest hwf
  | hsize v => exact RoundTrip.hsize v rest hwf
  | vsize v => exact RoundTrip.vsize v rest hwf
  | gamma v => exact RoundTrip.gamma v rest hwf
  | feat s u a t x => exact RoundTrip.feat s u a t x rest hwf
  | chroma c => exact RoundTrip.chroma c rest hwf
  | est1 v => exact RoundTrip.est1 v rest hwf
  | est2 v => exact RoundTrip.est2 v rest hwf
  | est3 v x => exact RoundTrip.est3 v x rest hwf
  | stdt k w a r => exact RoundTrip.stdt k w a r rest hwf
  | desc k p0 p1 x2 t x => exact RoundTrip.desc k p0 p1 x2 t x rest hwf
  | dtdGeo k g => exact RoundTrip.dtdGeo k g rest hwf
  | dtdFlg k n s t u r z => exact RoundTrip.dtdFlg k n s t u r z rest hwf
  | mser k x2 x4 t => exact RoundTrip.mser k x2 x4 t rest hwf
  | mname k x2 x4 t => exact RoundTrip.mname k x2 x4 t rest hwf
  | mrl k x2 x4 vmin vmax hmin hmax c x => exact RoundTrip.mrl k x2 x4 vmin vmax hmin hmax c x rest hwf
  | dskip k x2 y x => exact RoundTrip.dskip k x2 y x rest hwf
  | extc v => exact RoundTrip.extc v rest hwf
  | start => exact RoundTrip.start rest hwf
  | reset => exact RoundTrip.reset rest hwf

/-- Settles O20, by running the decoder. -/
theorem wordsWrittenOutDecode : Obligations.WordsWrittenOutDecode := ⟨rfl, rfl, rfl, rfl, rfl, rfl, rfl⟩

/-! ### A byte is the concatenation of its slices, most significant first (R7) -/

theorem slices_1_5_2 : ∀ v : Byte, v.extractLsb' 7 1 ++ v.extractLsb' 2 5 ++ v.extractLsb' 0 2 = v := by decide

theorem slices_3_5 : ∀ v : Byte, v.extractLsb' 5 3 ++ v.extractLsb' 0 5 = v := by decide

theorem slices_1_6_1 : ∀ v : Byte, v.extractLsb' 7 1 ++ v.extractLsb' 1 6 ++ v.extractLsb' 0 1 = v := by decide

theorem slices_1_4_1_1_1 : ∀ v : Byte,
    v.extractLsb' 7 1 ++ v.extractLsb' 3 4 ++ v.extractLsb' 2 1 ++ v.extractLsb' 1 1 ++ v.extractLsb' 0 1 = v := by
  decide

theorem slices_1_1_1_2_3 : ∀ v : Byte,
    v.extractLsb' 7 1 ++ v.extractLsb' 6 1 ++ v.extractLsb' 5 1 ++ v.extractLsb' 3 2 ++ v.extractLsb' 0 3 = v := by
  decide

theorem slices_2_2_2_2 : ∀ v : Byte, v.extractLsb' 6 2 ++ v.extractLsb' 4 2 ++ v.extractLsb' 2 2 ++ v.extractLsb' 0 2 = v := by
  decide

theorem slices_1_7 : ∀ v : Byte, v.extractLsb' 7 1 ++ v.extractLsb' 0 7 = v := by decide

theorem slices_2_6 : ∀ v : Byte, v.extractLsb' 6 2 ++ v.extractLsb' 0 6 = v := by decide

theorem slices_4_4 : ∀ v : Byte, v.extractLsb' 4 4 ++ v.extractLsb' 0 4 = v := by decide

theorem slices_1_2_2_1_1_1 : ∀ v : Byte,
    v.extractLsb' 7 1 ++ v.extractLsb' 5 2 ++ v.extractLsb' 3 2 ++ v.extractLsb' 2 1 ++ v.extractLsb' 1 1 ++ v.extractLsb' 0 1 = v := by
  decide

/-! ### The bytes an answer was read from -/

theorem withBytes_ok_bytes {n : Nat} {bs : List Byte} {f : Vector Byte n → Instr} {i : Instr} (h : withBytes n bs f = .ok i) :
    ∃ v rest, bs = v.toList ++ rest ∧ i = f v := by
  unfold withBytes at h
  split at h
  · cases h
    exact ⟨_, bs.drop n, (by simp [Vector.toList]), rfl⟩
  · cases h

theorem oneByte_ok_bytes {bs : List Byte} {f : Byte → Instr} {i : Instr} (h : oneByte bs f = .ok i) :
    ∃ v rest, bs = v :: rest ∧ i = f v := by
  cases bs with
  | nil => cases h
  | cons v rest => cases h; exact ⟨v, rest, rfl, rfl⟩

/-- A geometry encodes to the 17 bytes it was read from (R129). -/
theorem geoFields_bytes {bs : List Byte} {g : Geo} (h : geoFields bs = some g) : ∃ rest, bs = g.bytes ++ rest := by
  unfold geoFields at h
  split at h
  · cases h
    simp only [Geo.bytes, slices_4_4, slices_2_2_2_2]
    exact ⟨_, rfl⟩
  · cases h

/-- What a row decodes encodes to the bytes that stood there. VIDIN's bit 7 is the first bit of either form (R100, R101). -/
theorem encode_of_decodeRow {r : Row} {bs : List Byte} {i : Instr} (h : decodeRow r bs = .ok i) : ∃ rest, bs = encode i ++ rest := by
  cases r
  case lenchk => cases h; exact ⟨bs, rfl⟩
  case cksum | hdr => obtain ⟨v, rest, rfl, rfl⟩ := withBytes_ok_bytes h; exact ⟨rest, rfl⟩
  case mweek | myear | ever | erev | hsize | vsize | gamma | est1 | est2 | extc =>
    obtain ⟨v, rest, rfl, rfl⟩ := oneByte_ok_bytes h; exact ⟨rest, rfl⟩
  case vidin =>
    obtain ⟨v, rest, rfl, rfl⟩ := oneByte_ok_bytes h
    split
    · next h1 => rw [encode, ← h1, slices_1_6_1]; exact ⟨rest, rfl⟩
    · next h1 =>
      have h0 : v.extractLsb' 7 1 = 0#1 := (BitVec.eq_zero_or_eq_one _).resolve_right h1
      rw [encode, ← h0, slices_1_4_1_1_1]; exact ⟨rest, rfl⟩
  case feat =>
    obtain ⟨v, rest, rfl, rfl⟩ := oneByte_ok_bytes h
    rw [encode, slices_1_1_1_2_3]; exact ⟨rest, rfl⟩
  case est3 =>
    obtain ⟨v, rest, rfl, rfl⟩ := oneByte_ok_bytes h
    rw [encode, slices_1_7]; exact ⟨rest, rfl⟩
  case mfgid =>
    simp only [decodeRow] at h
    split at h
    · next rest =>
      cases h
      rw [encode, BitVec.extractLsb'_append_eq_left, BitVec.extractLsb'_append_eq_right, slices_1_5_2, slices_3_5]
      exact ⟨rest, rfl⟩
    · cases h
  case prod | sernum =>
    simp only [decodeRow] at h
    split at h
    · cases h; exact ⟨_, rfl⟩
    · cases h
  case stdt k =>
    simp only [decodeRow] at h
    split at h
    · cases h; rw [encode, slices_2_6]; exact ⟨_, rfl⟩
    · cases h
  case chroma =>
    simp only [decodeRow] at h
    split at h
    · obtain ⟨m, rest, rfl, rfl⟩ := withBytes_ok_bytes h
      simp only [encode, slices_2_2_2_2]; exact ⟨rest, rfl⟩
    · cases h
  case desc k =>
    simp only [decodeRow] at h
    split at h
    · obtain ⟨x, rest, rfl, rfl⟩ := withBytes_ok_bytes h; exact ⟨rest, rfl⟩
    · cases h

/-- What a branch place decodes encodes to the bytes that stood there: a selected monitor branch fixes the clock at
zero, and a retained descriptor its tag (R65). -/
theorem encode_of_decodeBranch {k : Fin 4} {b : Branch} {bs : List Byte} {i : Instr} (h : decodeBranch k b bs = .ok i) :
    ∃ rest, bs = encode i ++ rest := by
  cases b
  case flg =>
    obtain ⟨f, rest, rfl, rfl⟩ := oneByte_ok_bytes h
    rw [encode, slices_1_2_2_1_1_1]; exact ⟨rest, rfl⟩
  case geo =>
    obtain ⟨_, _, _, _, _, -, -, hf⟩ := blockOf_ok h
    split at hf
    · next g hg => cases hf; exact geoFields_bytes hg
    · cases hf
  case skip =>
    obtain ⟨d0, d1, x2, y, rest, rfl, hc, hf⟩ := blockOf_ok h
    obtain ⟨⟨rfl, rfl⟩, -⟩ := classify_eq_skip_iff.1 hc
    obtain ⟨x, rest, rfl, rfl⟩ := withBytes_ok_bytes hf
    exact ⟨rest, rfl⟩
  case ser | name | range =>
    obtain ⟨d0, d1, x2, tag, rest, rfl, hc, hf⟩ := blockOf_ok h
    simp only [classify_eq_ser_iff, classify_eq_name_iff, classify_eq_range_iff] at hc
    obtain ⟨⟨rfl, rfl⟩, rfl⟩ := hc
    split at hf
    · obtain ⟨t, rest, rfl, rfl⟩ := withBytes_ok_bytes hf; exact ⟨rest, rfl⟩
    · cases hf

/-- What a place decodes encodes to the bytes that stood there. -/
theorem encode_of_decode {p : Place} {bs : List Byte} {i : Instr} (h : decode (.sched p) bs = .ok i) :
    ∃ rest, bs = encode i ++ rest := by
  cases p with
  | row r => exact encode_of_decodeRow h
  | branch k b => exact encode_of_decodeBranch h
  | finish => cases h

/-! ### The side conditions of the formats -/

/-- `DB.T` is for a block with a clock. -/
theorem wf_dtdGeo_iff (k : Fin 4) (g : Geo) : (Instr.dtdGeo k g).wf = true ↔ ¬ (g.pLo = 0 ∧ g.pHi = 0) :=
  bne_iff_ne.trans (le16_eq_zero (lo := g.pLo) (hi := g.pHi)).not

/-- `DB.X` is for a block with none of the retained tags. -/
theorem wf_dskip_iff (k : Fin 4) (x2 y : Byte) (x : Vector Byte 14) :
    (Instr.dskip k x2 y x).wf = true ↔ y ≠ 0xFF ∧ y ≠ 0xFC ∧ y ≠ 0xFD := by
  simp [Instr.wf, retainedTags]

/-- DSKIP is decoded from a block with another tag than the retained ones only (R62 "with y not in (0xFF, 0xFC, 0xFD)"). -/
theorem decode_dskip_tag {q : Place} {bs : List Byte} {k : Fin 4} {x2 y : Byte} {x : Vector Byte 14}
    (h : decode (.sched q) bs = .ok (.dskip k x2 y x)) : y ≠ 0xFF ∧ y ≠ 0xFC ∧ y ≠ 0xFD := by
  cases slot_of_decode h
  obtain ⟨d0, d1, d2, d3, rest, rfl, hc, h⟩ := blockOf_ok h
  obtain ⟨-, htag⟩ := classify_eq_skip_iff.1 hc
  obtain ⟨v, hv⟩ := withBytes_ok h
  cases hv
  exact htag

/-- What a place decodes is well-formed: the classifier has checked the two side conditions of R62. -/
theorem wf_of_decode {p : Place} {bs : List Byte} {i : Instr} (h : decode (.sched p) bs = .ok i) : i.wf = true := by
  cases i
  case dtdGeo k g => exact (wf_dtdGeo_iff k g).2 (decode_dtdGeo_clock h)
  case dskip k x2 y x => exact (wf_dskip_iff k x2 y x).2 (decode_dskip_tag h)
  all_goals rfl

/-- Settles O18, place by place. -/
theorem encodeOfDecodeIsTheBytes : Obligations.EncodeOfDecodeIsTheBytes :=
  fun _ _ _ h => ⟨wf_of_decode h, slot_of_decode h, encode_of_decode h⟩

end Sys2Proof.Laws

namespace Sys2Proof.Safety

open Sys2Proof.Machine Sys2Proof.Laws

theorem StandsAt.snap_length {s : State} {p : Place} (h : StandsAt s p) : s.snap.length = 128 := by
  obtain ⟨-, -, -, -, -, hl⟩ := h
  exact hl

/-- What the decoder finds at a place is fetched there, is well-formed and belongs to the place. -/
theorem StandsAt.fetch_ok {s : State} {p : Place} (h : StandsAt s p)
    (hd : ∃ i, decode (.sched p) (s.snap.drop (p.cursor + p.skip)) = .ok i) : ∃ i, fetch s = .ok i ∧ i.wf = true ∧ i.slot = .sched p := by
  obtain ⟨i, hi⟩ := hd
  exact ⟨i, (fetch_of_standsAt h).trans hi, wf_of_decode hi, slot_of_decode hi⟩

/-- Settles O16: the 128 bytes reach from a row's offset to 127, and a branch finds the block that selects it. -/
theorem everyPlaceDecodes : Obligations.EveryPlaceDecodes := by
  refine ⟨fun s r h => h.fetch_ok (decodeRow_of_le ?_), fun s k b h hsel => h.fetch_ok ?_⟩
  · rw [List.length_drop, h.snap_length]
    exact le_add_tsub
  · cases b
    case flg => exact decodeBranch_flg h.snap_length
    all_goals exact decodeBranch_of_selected h.snap_length hsel.symm

end Sys2Proof.Safety

/-! The schedule's rows and its end (R61). -/

namespace Sys2Proof.Machine

open Sys2Proof.Safety

/-- The row after a row has the next number; only EXTC, row 31, is followed by the end row. -/
theorem next_number (r : Row) : (r = .extc ∧ r.next = .finish) ∨ ∃ q : Row, r.next = .row q ∧ q.number = r.number + 1 := by
  cases r
  case extc => exact .inl ⟨rfl, rfl⟩
  case stdt k => fin_cases k <;> exact .inr ⟨_, rfl, rfl⟩
  case desc k => fin_cases k <;> exact .inr ⟨_, rfl, rfl⟩
  all_goals exact .inr ⟨_, rfl, rfl⟩

/-- Settles O15: `next_number` for the numbers and `next_cursor` for the offsets. -/
theorem rowsFollowEachOther : Obligations.RowsFollowEachOther := by
  intro r
  obtain ⟨rfl, hnext⟩ | ⟨q, hnext, hnumber⟩ := next_number r
  · exact .inl ⟨hnext, rfl, rfl⟩
  · refine .inr ⟨q, hnext, hnumber, ?_⟩
    rw [← next_cursor, hnext]; rfl

/-- Settles O14: a silent or waiting host lets the block run the end row. -/
theorem endRowMakesTheRecordValid : Obligations.EndRowMakesTheRecordValid := by
  intro s h
  obtain ⟨hc, hh, hb, hs, -, -⟩ := h
  refine ⟨?_, fun es => ?_⟩
  · rw [step_silent hc hh, blockStep_busy hb, runPlace_finish hs]; rfl
  · rw [step_event (s := { s with host := .wait :: es }) hc rfl]
    exact (blockStep_busy (s := { s with host := es }) hb).trans (runPlace_finish hs)

end Sys2Proof.Machine

/-! The integrity operations (40_integrity.md): LENCHK, CKSUM, and what byte 127 can change of the record (R83). -/

namespace Sys2Proof.Machine

open Sys2Proof.Safety

/-! ### LENCHK and CKSUM -/

/-- Settles O21: the two branches of LENCHK, and a block in `ERR` is idle. -/
theorem lenchkRaisesExactlyOnShortInput : Obligations.LenchkRaisesExactlyOnShortInput := by
  intro s
  refine ⟨fun hshort => ?_, fun hlong => ?_, fun herr hc hh => ?_⟩
  · exact if_pos hshort
  · exact if_neg (Nat.not_lt.2 hlong)
  · rw [step_silent hc hh, blockStep_idle (by simp [herr])]

theorem verdict_eq_one_iff (P : Prop) [Decidable P] : (if P then (1 : Bit) else 0) = 1 ↔ P := by simp

/-- The verdict of CKSUM in numbers. -/
theorem checksumFlag_eq_one_iff (bs : List Byte) : checksumFlag bs = 1 ↔ (bs.map BitVec.toNat).sum % 256 = 0 := by
  rw [checksumFlag, verdict_eq_one_iff, ← toNat_byteSum]
  exact BitVec.toNat_inj.symm

/-- Settles O22: the accumulator of CKSUM is the sum modulo 256, and the bytes it adds up are the whole snapshot. -/
theorem cksumIsTheSumModulo256 : Obligations.CksumIsTheSumModulo256 := by
  refine ⟨fun b s => ⟨_, checksumFlag_eq_one_iff b.toList, rfl⟩, fun s h => ?_⟩
  obtain ⟨b, hb, hbytes⟩ := withBytes_of_le h.snap_length.ge Instr.cksum
  exact ⟨b, (fetch_of_standsAt h).trans hb, hbytes⟩

/-! ### What the record reads of bytes 0 to 126 -/

theorem span_congr {f g : Nat → Byte} {a n : Nat} (h : ∀ j < n, f (a + j) = g (a + j)) : span f a n = span g a n :=
  List.map_congr_left fun j hj => h j (List.mem_range.1 hj)

/-- A block contributes by its 18 bytes alone. -/
theorem contribution_congr (p : Config.Params) {d e : Nat → Byte} (h : ∀ j < 18, d j = e j) :
    contribution p d = contribution p e := by
  have htiming : timingOf d = timingOf e := by simp (disch := decide) only [timingOf, h]
  have htext : span d 5 13 = span e 5 13 := span_congr fun j hj => h (5 + j) (by omega)
  simp (disch := decide) only [contribution, htiming, htext, h]

section

variable {f g : Nat → Byte} (h : ∀ a < 127, f a = g a)
include h

theorem contributions_congr (p : Config.Params) : contributions p f = contributions p g :=
  List.map_congr_left fun k hk => contribution_congr p fun j hj => h _ (by
    have := List.mem_range.1 hk
    omega)

theorem chromaAt_congr {i : Nat} (hi : i < 8) : chromaAt f i = chromaAt g i := by
  rw [chromaAt, chromaAt, h (27 + i) (by omega), h (25 + i / 4) (by omega)]

theorem estMaskOf_congr : estMaskOf f = estMaskOf g :=
  congrArg (fun bitsSet : List Nat => BitVec.ofNat 17 bitsSet.sum) (List.map_congr_left fun i hi => by
    have := List.mem_range.1 hi
    rw [h (35 + i / 8) (by omega)])

theorem stdOf_congr {k : Nat} (hk : k < 8) : stdOf f k = stdOf g k := by
  simp (disch := omega) only [stdOf, h]

/-- Byte 127 and all beyond it reach `CHECKSUM_OK` alone (R83). -/
theorem recordOf_congr (p : Config.Params) :
    recordOf p g = { recordOf p f with checksumOk := (recordOf p g).checksumOk } := by
  simp (disch := omega) only [recordOf, contributions_congr h, chromaAt_congr h, estMaskOf_congr h, stdOf_congr h, mfgOf, h]

end

/-! ### What byte 127 decides -/

theorem span_getD {l : List Byte} {n : Nat} (h : n ≤ l.length) : span (fun a => l.getD a 0) 0 n = l.take n := by
  refine List.ext_getElem (by simp [span, h]) fun i hi _ => ?_
  have : i < l.length := lt_of_lt_of_le (by simpa [span] using hi) h
  simp [span, List.getD_eq_getElem?_getD, this]

/-- Settles O23: byte 127 is the last summand, and the other registers do not read it (`recordOf_congr`). -/
theorem checksumByteTouchesTheVerdictOnly : Obligations.ChecksumByteTouchesTheVerdictOnly := by
  intro inp hlen
  refine ⟨recordOf params fun a => inp.getD a 0, fun x => ?_⟩
  have hsame : ∀ a < 127, inp.getD a 0 = (inp.set 127 x).getD a 0 := fun a ha => by
    simp [List.getD_eq_getElem?_getD, List.getElem?_set_ne (Nat.ne_of_gt ha)]
  have hlong : 128 ≤ (inp.set 127 x).length := by simpa using hlen
  refine ⟨_, (if_neg (Nat.not_lt.2 hlong)).trans (congrArg _ (recordOf_congr hsame params)), ?_⟩
  have hspan : span (fun a => (inp.set 127 x).getD a 0) 0 128 = inp.take 127 ++ [x] := by
    rw [span_getD hlong, List.take_succ_eq_append_getElem hlong, List.getElem_set_self,
      List.take_set_of_le (le_refl 127)]
  have hx := x.isLt
  simp only [recordOf, verdict_eq_one_iff, hspan, List.map_append, List.map_singleton, List.sum_append, List.sum_singleton]
  omega

end Sys2Proof.Machine

/-! The identity operations and the other one-byte copies (41_identity.md). A row of the schedule is decoded from its own bytes of `IN`
(`fetch_row`), so for a fixed row the fetch is the decoder's pattern on those bytes. -/

namespace Sys2Proof.Safety

open Sys2Proof.Machine Sys2Proof.Laws

/-- From offset `n` on the snapshot holds `IN[n]`, `IN[n + 1]` and so on. -/
theorem drop_snap_span {s : State} {n : Nat} : ∀ {m : Nat}, n + m ≤ s.snap.length →
    s.snap.drop n = span (byteAt s) n m ++ s.snap.drop (n + m)
  | 0, _ => rfl
  | m + 1, h => by
    rw [drop_snap_span (m := m) (by omega), drop_snap (n := n + m) rfl (by omega)]
    simp [span, List.range_succ, Nat.add_assoc]

/-- At a row the fetch decodes the bytes that R61 gives the row. -/
theorem fetch_row {s : State} {r : Row} (h : StandsAt s (.row r)) :
    fetch s = decodeRow r (span (byteAt s) r.offset r.size ++ s.snap.drop (r.offset + r.size)) := by
  rw [fetch_of_standsAt h, ← drop_snap_span (by rw [h.snap_length]; exact offset_add_size_le r)]
  rfl

end Sys2Proof.Safety

namespace Sys2Proof.Machine

open Sys2Proof.Safety

/-- The three letter fields of the format of MFGID as bits of the pair, the lower address in the high byte (R91). -/
theorem toNat_mfgid_fields (b0 b1 : Byte) :
    let w := b0.toNat * 256 + b1.toNat
    (b0.extractLsb' 2 5).toNat = w / 2 ^ 10 % 2 ^ 5 ∧
    (b0.extractLsb' 0 2 ++ b1.extractLsb' 5 3).toNat = w / 2 ^ 5 % 2 ^ 5 ∧
    (b1.extractLsb' 0 5).toNat = w % 2 ^ 5 := by
  have h1 := b1.isLt
  simp only [toNat_join, toNat_slice]
  omega

/-- Settles O25: `toNat_letter` gives the letters and `toNat_mfgid_fields` the fields. -/
theorem mfgidGivesThreeLetters : Obligations.MfgidGivesThreeLetters :=
  ⟨fun _ a b c _ => ⟨_, _, _, toNat_letter a, toNat_letter b, toNat_letter c, rfl⟩,
   fun s h => ⟨_, _, _, _, fetch_row h, toNat_mfgid_fields (byteAt s 8) (byteAt s 9)⟩⟩

/-- Settles O24: the header is the first eight bytes of the snapshot, whatever they are. -/
theorem hdrStoresTheHeader : Obligations.HdrStoresTheHeader := by
  refine ⟨fun _ _ => rfl, fun s h => ?_⟩
  obtain ⟨v, hv, hbytes⟩ := withBytes_of_le (n := 8) (bs := s.snap) (by rw [h.snap_length]; decide) Instr.hdr
  exact ⟨v, (fetch_of_standsAt h).trans hv, hbytes⟩

/-- Settles O26: the register is the join `le16` of bytes 10 and 11. -/
theorem prodIsLittleEndian : Obligations.ProdIsLittleEndian :=
  ⟨fun lo hi _ => ⟨_, toNat_le16 lo hi, rfl⟩, fun _ h => fetch_row h⟩

/-- Settles O27: the register is the join `le32` of bytes 12 to 15. -/
theorem sernumIsLittleEndian : Obligations.SernumIsLittleEndian :=
  ⟨fun a b c d _ => ⟨_, toNat_le32 a b c d, rfl⟩, fun _ h => fetch_row h⟩

/-- Settles O28: each copy is its arm of `exec`, and each row is fetched from its own byte. -/
theorem oneByteOperationsCopyTheirByte : Obligations.OneByteOperationsCopyTheirByte :=
  ⟨fun _ _ => ⟨rfl, rfl, rfl, rfl, rfl, rfl⟩,
   fun _ => ⟨fun h => fetch_row h, fun h => fetch_row h, fun h => fetch_row h, fun h => fetch_row h, fun h => fetch_row h,
    fun h => fetch_row h⟩⟩

/-- Settles O29: 255 + 1990 is below `2 ^ 12`, so no year is cut. -/
theorem myearAdds1990 : Obligations.MyearAdds1990 := by
  refine ⟨fun v s => ⟨_, toNat_offsetBy ?_, rfl⟩, fun s h => fetch_row h⟩
  have := v.isLt
  omega

end Sys2Proof.Machine

/-! The basic display operations (42_basic_display.md): the two forms of byte 20, the exact gamma value, the features byte and the
display variant. -/

namespace Sys2Proof.Machine

open Sys2Proof.Safety

/-! ### VIDIN (R100, R101) -/

/-- A one-bit slice is set exactly when the bit it takes is. -/
theorem bitSlice_eq_one_iff {w : Nat} (v : BitVec w) (i : Nat) : v.extractLsb' i 1 = 1#1 ↔ v.getLsbD i = true := by
  simp [BitVec.eq_of_getLsbD_eq_iff]

section

variable {s : State} (h : StandsAt s (.row .vidin))
include h

/-- Row VIDIN is read by format `VI.D` when bit 7 of byte 20 is set. -/
theorem fetch_vidinD (hbit : (byteAt s 20).getLsbD 7 = true) :
    fetch s = .ok (.vidinD ((byteAt s 20).extractLsb' 1 6) ((byteAt s 20).extractLsb' 0 1)) :=
  (fetch_row h).trans (congrArg Except.ok (if_pos ((bitSlice_eq_one_iff _ 7).2 hbit)))

/-- Row VIDIN is read by format `VI.A` when bit 7 of byte 20 is clear. -/
theorem fetch_vidinA (hbit : (byteAt s 20).getLsbD 7 = false) :
    fetch s = .ok (.vidinA ((byteAt s 20).extractLsb' 3 4) ((byteAt s 20).extractLsb' 2 1) ((byteAt s 20).extractLsb' 1 1)
      ((byteAt s 20).extractLsb' 0 1)) :=
  (fetch_row h).trans (congrArg Except.ok (if_neg ((bitSlice_eq_one_iff _ 7).not.2 (ne_true_of_eq_false hbit))))

end

/-- Settles O30: `fetch_vidinD` and `fetch_vidinA` for the two values of bit 7, and `toNat_slice` for the sub-fields. -/
theorem vidinSelectsDigitalOrAnalog : Obligations.VidinSelectsDigitalOrAnalog :=
  ⟨fun _ _ _ => rfl, fun _ _ _ _ _ => rfl,
   fun _ h => ⟨fun hbit => ⟨_, _, fetch_vidinD h hbit, toNat_slice _ 0 1⟩,
    fun hbit => ⟨_, _, _, _, fetch_vidinA h hbit, toNat_slice _ 1 1, toNat_slice _ 2 1⟩⟩⟩

/-! ### GAMMA and FEAT (R104, R105) -/

/-- Settles O31: 255 + 100 is below `2 ^ 9`, so the numerator is not cut, and 100 hundredths are 1. -/
theorem gammaIsExact : Obligations.GammaIsExact := by
  refine ⟨fun v s => ?_, fun s h => fetch_row h⟩
  have hv := v.isLt
  have hg : (offsetBy 9 v 100).toNat = v.toNat + 100 := toNat_offsetBy (by omega)
  refine ⟨_, hg, fun r => ?_, rfl⟩
  rw [Record.gamma, hg, Nat.cast_add, Nat.cast_ofNat, add_div, div_self (by norm_num)]

/-- Settles O32: byte 24 is read by format `FT`, and `toNat_slice` gives its four fields. -/
theorem featStoresFlagsAndRawType : Obligations.FeatStoresFlagsAndRawType :=
  ⟨fun _ _ _ _ _ _ => rfl,
   fun _ h => ⟨_, _, _, _, _, fetch_row h, toNat_slice _ 7 1, toNat_slice _ 6 1, toNat_slice _ 5 1, toNat_slice _ 3 2⟩⟩

/-! ### The display variant (R106, R107) -/

/-- The analog variants are those of a record with `IS_DIGITAL` 0. -/
theorem analog_eq_displayVariant_iff (t : BitVec 2) (r : Record) :
    .analog t = r.displayVariant ↔ 0#1 = r.isDigital ∧ t = r.displayType := by
  obtain hr | hr := BitVec.eq_zero_or_eq_one r.isDigital <;> simp [Record.displayVariant, hr]

/-- The digital variants are those of a record with `IS_DIGITAL` 1. -/
theorem digital_eq_displayVariant_iff (t : BitVec 2) (r : Record) :
    .digital t = r.displayVariant ↔ 1#1 = r.isDigital ∧ t = r.displayType := by
  obtain hr | hr := BitVec.eq_zero_or_eq_one r.isDigital <;> simp [Record.displayVariant, hr]

/-- Settles O33: the first record is analog or digital, and its variant then names its pair. -/
theorem displayVariantIsThePair : Obligations.DisplayVariantIsThePair := by
  intro r q
  obtain hr | hr := BitVec.eq_zero_or_eq_one r.isDigital
  · rw [← (analog_eq_displayVariant_iff r.displayType r).2 ⟨hr.symm, rfl⟩, analog_eq_displayVariant_iff, hr]
  · rw [← (digital_eq_displayVariant_iff r.displayType r).2 ⟨hr.symm, rfl⟩, digital_eq_displayVariant_iff, hr]

end Sys2Proof.Machine

/-! The chromaticity operation (43_chromaticity.md): a register is the join of an MSB byte and the lane of the same number (R110), and the
format `CH10` takes the lanes from bytes 25 and 26 and the MSB bytes from 27 on (R111). -/

namespace Sys2Proof

/-- The eight lanes in the order of the coordinates (R111), the same order as the MSB bytes. -/
def Chroma.lanes (c : Chroma) : Vector (BitVec 2) 8 := #v[c.rxLo, c.ryLo, c.gxLo, c.gyLo, c.bxLo, c.byLo, c.wxLo, c.wyLo]

/-- Coordinate register `i` as CHROMA writes it (R110): `exec_chroma` ties it to the operation. -/
def Chroma.register (c : Chroma) (i : Fin 8) : BitVec 10 := Machine.splitJoin c.m[i] c.lanes[i]

end Sys2Proof

namespace Sys2Proof.Machine

open Sys2Proof.Safety

theorem exec_chroma (c : Chroma) (s : State) : exec (.chroma c) s = .next { s with
    record := { s.record with
      redX := c.register 0, redY := c.register 1, greenX := c.register 2, greenY := c.register 3
      blueX := c.register 4, blueY := c.register 5, whiteX := c.register 6, whiteY := c.register 7 }
    cur := 35, seq := .row .est1 } := rfl

theorem toNat_chromaRegister (c : Chroma) (i : Fin 8) : (c.register i).toNat = 4 * c.m[i].toNat + c.lanes[i].toNat :=
  (toNat_splitJoin _ _).trans (congrArg (· + _) (Nat.mul_comm _ 4))

/-- A register has ten bits, so at most 1023 (R112). -/
theorem toNat_coordinate_le (v : BitVec 10) : v.toNat ≤ 1023 := Nat.le_of_lt_succ v.isLt

theorem coordinate_nonneg (v : BitVec 10) : 0 ≤ coordinate v := div_nonneg v.toNat.cast_nonneg (by norm_num)

theorem coordinate_le (v : BitVec 10) : coordinate v ≤ 1023 / 1024 :=
  div_le_div_of_nonneg_right (by exact_mod_cast toNat_coordinate_le v) (by norm_num)

/-- Row CHROMA is read by format `CH10`: the MSB bytes in order from 27 on, and four lanes each from bytes 25 and 26, the first
coordinate's in the highest bits. -/
theorem fetch_chroma {s : State} (h : StandsAt s (.row .chroma)) : ∃ c : Chroma, fetch s = .ok (.chroma c) ∧ ∀ i : Fin 8,
    c.m[i] = byteAt s (27 + i.val) ∧ c.lanes[i] = (byteAt s (25 + i.val / 4)).extractLsb' (6 - 2 * (i.val % 4)) 2 := by
  have hlong : 8 ≤ (s.snap.drop 27).length := by rw [List.length_drop, h.snap_length]; decide
  have hlanes : s.snap.drop 25 = byteAt s 25 :: byteAt s 26 :: s.snap.drop 27 :=
    drop_snap_span (m := 2) (by rw [h.snap_length]; decide)
  refine ⟨_, (fetch_of_standsAt h).trans ((congrArg (decodeRow .chroma) hlanes).trans (dif_pos hlong)), fun i => ⟨?_, ?_⟩⟩
  · have : 27 + i.val < s.snap.length := by rw [h.snap_length]; omega
    simp [byteAt, List.getD_eq_getElem?_getD, this]
  · fin_cases i <;> rfl

/-- Settles O34: the registers are the joins of `exec_chroma`, and `toNat_slice` turns the lanes of `fetch_chroma` into numbers. -/
theorem chromaReassemblesEightCoordinates : Obligations.ChromaReassemblesEightCoordinates := by
  refine ⟨fun c s => ⟨c.register, fun i => ⟨toNat_chromaRegister c i, toNat_coordinate_le _, rfl, coordinate_nonneg _, coordinate_le _⟩,
    exec_chroma c s⟩, fun s h => ?_⟩
  obtain ⟨c, hc, hfields⟩ := fetch_chroma h
  refine ⟨c, hc, fun i => ?_⟩
  obtain ⟨hmsb, hlane⟩ := hfields i
  exact ⟨hmsb, (congrArg BitVec.toNat hlane).trans (toNat_slice _ _ 2)⟩

end Sys2Proof.Machine

/-! The established timings (44_established_timings.md): the operations bit by bit of `EST_MASK` (R115 to R117), and the list of
supported modes (R118). -/

namespace Sys2Proof.Machine

open Sys2Proof.Safety

/-- A slice that reaches the top of a word holds its bits from `a` on. -/
theorem getLsbD_highSlice {n a w : Nat} (m : BitVec n) (hn : n ≤ a + w) {i : Nat} (h : a ≤ i) :
    (m.extractLsb' a w).getLsbD (i - a) = m.getLsbD i := by
  rw [BitVec.getLsbD_extractLsb', Nat.add_sub_cancel' h, Bool.and_eq_right_iff_imp, decide_eq_true_iff]
  intro hbit
  have := BitVec.lt_of_getLsbD hbit
  omega

/-- The low slice of a word holds its bits below `w`. -/
theorem getLsbD_lowSlice {n w : Nat} (m : BitVec n) {i : Nat} (h : i < w) : (m.extractLsb' 0 w).getLsbD i = m.getLsbD i := by
  simp [h]

/-- EST2 sets bits 8 to 15 and keeps the others (R116). -/
theorem estSecond_getLsbD (m : BitVec 17) (v : Byte) (i : Nat) :
    (estSecond m v).getLsbD i = if 8 ≤ i ∧ i < 16 then v.getLsbD (15 - i) else m.getLsbD i := by
  rw [estSecond, BitVec.getLsbD_append]
  by_cases hlow : i < 8
  · rw [if_pos hlow, if_neg (by omega), getLsbD_lowSlice m hlow]
  rw [if_neg hlow, BitVec.getLsbD_append]
  by_cases hmid : i < 16
  · rw [if_pos (by omega), if_pos (by omega), reverse_getLsbD v (by omega)]
    congr 1
    omega
  · rw [if_neg (by omega), if_neg (by omega), Nat.sub_sub]
    exact getLsbD_highSlice m (le_refl 17) (by omega)

/-- EST3 sets bit 16 and keeps the others (R117). -/
theorem estThird_getLsbD (m : BitVec 17) (v : Bit) (i : Nat) :
    (estThird m v).getLsbD i = if i = 16 then v.getLsbD 0 else m.getLsbD i := by
  rw [estThird, BitVec.getLsbD_append]
  obtain hlow | rfl | hhigh := Nat.lt_trichotomy i 16
  · rw [if_pos hlow, if_neg hlow.ne, getLsbD_lowSlice m hlow]
  · rfl
  · rw [if_neg hhigh.not_gt, if_neg hhigh.ne', BitVec.getLsbD_of_ge v _ (by omega), BitVec.getLsbD_of_ge m _ hhigh]

/-- Settles O35: `estFirst_getLsbD`, `estSecond_getLsbD` and `estThird_getLsbD` give the masks bit by bit, and `fetch_row` the bytes. -/
theorem establishedTimingsFillTheMask : Obligations.EstablishedTimingsFillTheMask :=
  ⟨fun v _ => ⟨_, estFirst_getLsbD _ v, rfl⟩, fun v _ => ⟨_, estSecond_getLsbD _ v, rfl⟩, fun v _ _ => ⟨_, estThird_getLsbD _ v, rfl⟩,
   fun _ => ⟨fun h => fetch_row h, fun h => fetch_row h, fun h => ⟨_, _, fetch_row h, getLsbD_highSlice _ (le_refl 8) (le_refl 7)⟩⟩⟩

/-- The supported indices are the set bits of `EST_MASK`. -/
theorem mem_estIndices (r : Record) (i : Fin 17) : i ∈ r.estIndices ↔ r.estMask.getLsbD i.val = true := by
  simp [Record.estIndices]

/-- Table-scan order is ascending: a filter keeps the order of the indices (R118). -/
theorem pairwise_estIndices (r : Record) : r.estIndices.Pairwise fun i j => i.val < j.val :=
  (List.sortedLT_finRange 17).pairwise.filter _

/-- Settles O36: the list is that of the indices in table-scan order. -/
theorem establishedListIsInScanOrder : Obligations.EstablishedListIsInScanOrder :=
  fun _ r => ⟨r.estIndices, pairwise_estIndices r, mem_estIndices r, rfl⟩

end Sys2Proof.Machine

/-! The standard timings (45_standard_timings.md): the quotient of the height aspect by aspect, and the row after STDT `k`. -/

namespace Sys2Proof.Machine

open Sys2Proof.Safety

/-- The truncated quotient of R120 for the four ratios of R121. -/
theorem stdQuotient_eq (w : Nat) (a : BitVec 2) :
    w * (romAspect[a.toNat]'a.isLt).2 / (romAspect[a.toNat]'a.isLt).1 =
      if a = 0 then w * 10 / 16 else if a = 1 then w * 3 / 4 else if a = 2 then w * 4 / 5 else w * 9 / 16 := by
  have four : ∀ a : BitVec 2, a = 0 ∨ a = 1 ∨ a = 2 ∨ a = 3 := by decide
  obtain rfl | rfl | rfl | rfl := four a <;> rfl

/-- R120: every width byte gives a width in the range column of R19, so the height is the quotient of R121 uncut. -/
theorem toNat_stdEntry_h (w : Byte) (a : BitVec 2) (r : BitVec 6) :
    (stdEntry w a r).h.toNat =
      if a = 0 then (w.toNat + 31) * 8 * 10 / 16
      else if a = 1 then (w.toNat + 31) * 8 * 3 / 4
      else if a = 2 then (w.toNat + 31) * 8 * 4 / 5
      else (w.toNat + 31) * 8 * 9 / 16 := by
  obtain ⟨hlo, hhi, -⟩ := stdEntry_ranges w a r
  exact (toNat_stdHeight hlo hhi a).trans ((congrArg (· * _ / _) (toNat_stdWidth w)).trans (stdQuotient_eq _ a))

/-- STDT 0 to 6 are followed by the next STDT, and STDT 7 by the first descriptor block (R61). -/
theorem next_stdt (k : Fin 8) :
    (Row.stdt k).next = if h : k.val < 7 then .row (.stdt ⟨k.val + 1, by omega⟩) else .row (.desc 0) :=
  dite_congr (propext Nat.succ_lt_succ_iff) (fun _ => rfl) fun _ => rfl

/-- Row STDT `k` is read by format `ST2` from bytes `38 + 2k` and `39 + 2k`. -/
theorem fetch_stdt {s : State} {k : Fin 8} (h : StandsAt s (.row (.stdt k))) :
    fetch s = .ok (.stdt k (byteAt s (38 + 2 * k.val)) ((byteAt s (39 + 2 * k.val)).extractLsb' 6 2)
      ((byteAt s (39 + 2 * k.val)).extractLsb' 0 6)) := by
  rw [show 39 + 2 * k.val = 38 + 2 * k.val + 1 by omega]
  exact fetch_row h

/-- Settles O37: the entry is `stdEntry`, its height by `toNat_stdEntry_h`; `fetch_stdt` gives the pair and `toNat_slice` its fields. -/
theorem stdtComputesTheTiming : Obligations.StdtComputesTheTiming := by
  refine ⟨fun k w a r s => ⟨stdEntry w a r, toNat_stdWidth w, rfl, toNat_offsetBy ?_, toNat_stdEntry_h w a r, ?_⟩,
    fun s k h => ⟨_, _, fetch_stdt h, toNat_slice _ 6 2, toNat_slice _ 0 6⟩⟩
  · have := r.isLt
    omega
  · rw [← next_stdt]; rfl

end Sys2Proof.Machine

/-! The bytes of a descriptor block (R125) and what DESC and the branch operations are fetched with: each format is read from the block's
own 18 bytes, and a branch from a block that selects it (R52, R65). -/

namespace Sys2Proof.Safety

open Sys2Proof.Machine Sys2Proof.Laws

/-! ### The bytes of a block -/

/-- `D[j]` of descriptor block `k` (R125). -/
def blockByte (s : State) (k : Fin 4) (j : Nat) : Byte := byteAt s (54 + 18 * k.val + j)

theorem byteAt_block (s : State) (k : Fin 4) (j : Nat) : byteAt s (54 + j + 18 * k.val) = blockByte s k j :=
  congrArg (byteAt s) (Nat.add_right_comm 54 j _)

/-- The bytes of `span f a n` as a fixed group. -/
def group (f : Nat → Byte) (a n : Nat) : Vector Byte n := Vector.ofFn fun j => f (a + j.val)

theorem getElem_group (f : Nat → Byte) (a n : Nat) (j : Fin n) : (group f a n)[j] = f (a + j.val) := by simp [group]

theorem toList_group (f : Nat → Byte) (a n : Nat) : (group f a n).toList = span f a n :=
  List.ext_getElem (by simp [span]) fun i _ _ => by simp [group, span]

/-- A text of full length fills its register. -/
theorem textReg_span (f : Nat → Byte) (a : Nat) : textReg (span f a 13) = group f a 13 := by
  ext j hj
  simp [textReg, group, span, List.getD_eq_getElem?_getD]

/-- The 13 text bytes of a block stand at `D[5]` to `D[17]` (R140, R141). -/
theorem getElem_blockText (s : State) (k : Fin 4) (j : Fin 13) :
    (group (blockByte s k) 5 13)[j] = byteAt s (59 + 18 * k.val + j.val) :=
  (getElem_group _ _ _ j).trans (congrArg (byteAt s) (by omega))

/-- The geometry that the format `DB.T` reads from the bytes `d 0` to `d 16` (R129). -/
def blockGeo (d : Nat → Byte) : Geo := (geoFields (span d 0 17)).get rfl

/-- From `D[a]` on the snapshot holds the block's bytes. -/
theorem drop_block {s : State} (hl : s.snap.length = 128) (k : Fin 4) {a m : Nat} (h : a + m ≤ 18) :
    s.snap.drop (54 + 18 * k.val + a) = span (blockByte s k) a m ++ s.snap.drop (54 + 18 * k.val + a + m) := by
  rw [drop_snap_span (m := m) (by omega)]
  simp only [span, blockByte, Nat.add_assoc]

/-- A repeat group is decoded from the block's bytes. -/
theorem withBytes_block {s : State} (hl : s.snap.length = 128) (k : Fin 4) {a n : Nat} (h : a + n ≤ 18) (f : Vector Byte n → Instr) :
    withBytes n (s.snap.drop (54 + 18 * k.val + a)) f = .ok (f (group (blockByte s k) a n)) := by
  rw [drop_block hl k h, ← toList_group, withBytes_append]

/-- An operation whose format begins at `D[0]` is decoded from the block's bytes. -/
theorem fetch_block {s : State} {k : Fin 4} {p : Place} (h : StandsAt s p) (hp : p.cursor + p.skip = 54 + 18 * k.val) {m : Nat}
    (hm : m ≤ 18) : fetch s = decode (.sched p) (span (blockByte s k) 0 m ++ s.snap.drop (54 + 18 * k.val + m)) := by
  rw [fetch_of_standsAt h, hp]
  exact congrArg _ (drop_block h.snap_length k (a := 0) (by omega))

/-! ### What a block's operations are fetched with -/

section

variable {s : State} {k : Fin 4}

theorem fetch_desc (h : StandsAt s (.row (.desc k))) : fetch s =
    .ok (.desc k (blockByte s k 0) (blockByte s k 1) (blockByte s k 2) (blockByte s k 3) (group (blockByte s k) 4 14)) :=
  (fetch_block h rfl (m := 4) (by decide)).trans (withBytes_block h.snap_length k (by decide) _)

theorem fetch_dtdGeo (h : StandsAt s (.branch k .geo)) (hsel : branchAt s.snap k.val = .geo) :
    fetch s = .ok (.dtdGeo k (blockGeo (blockByte s k))) :=
  (fetch_block h rfl (m := 17) (by decide)).trans (if_pos hsel)

/-- DTD.FLG reads `D[17]` of any block (R134). -/
theorem fetch_dtdFlg (h : StandsAt s (.branch k .flg)) :
    let f := blockByte s k 17
    fetch s = .ok (.dtdFlg k (f.extractLsb' 7 1) (f.extractLsb' 5 2) (f.extractLsb' 3 2) (f.extractLsb' 2 1) (f.extractLsb' 1 1)
      (f.extractLsb' 0 1)) := by
  rw [fetch_of_standsAt h]
  exact congrArg (decodeBranch k .flg) (drop_block h.snap_length k (a := 17) (m := 1) (by decide))

theorem fetch_mser (h : StandsAt s (.branch k .ser)) (hsel : branchAt s.snap k.val = .ser) :
    fetch s = .ok (.mser k (blockByte s k 2) (blockByte s k 4) (group (blockByte s k) 5 13)) :=
  (fetch_block h rfl (m := 5) (by decide)).trans ((if_pos hsel).trans (withBytes_block h.snap_length k (by decide) _))

theorem fetch_mname (h : StandsAt s (.branch k .name)) (hsel : branchAt s.snap k.val = .name) :
    fetch s = .ok (.mname k (blockByte s k 2) (blockByte s k 4) (group (blockByte s k) 5 13)) :=
  (fetch_block h rfl (m := 5) (by decide)).trans ((if_pos hsel).trans (withBytes_block h.snap_length k (by decide) _))

theorem fetch_mrl (h : StandsAt s (.branch k .range)) (hsel : branchAt s.snap k.val = .range) :
    fetch s = .ok (.mrl k (blockByte s k 2) (blockByte s k 4) (blockByte s k 5) (blockByte s k 6) (blockByte s k 7) (blockByte s k 8)
      (blockByte s k 9) (group (blockByte s k) 10 8)) :=
  (fetch_block h rfl (m := 10) (by decide)).trans ((if_pos hsel).trans (withBytes_block h.snap_length k (by decide) _))

theorem fetch_dskip (h : StandsAt s (.branch k .skip)) (hsel : branchAt s.snap k.val = .skip) :
    fetch s = .ok (.dskip k (blockByte s k 2) (blockByte s k 3) (group (blockByte s k) 4 14)) :=
  (fetch_block h rfl (m := 4) (by decide)).trans ((if_pos hsel).trans (withBytes_block h.snap_length k (by decide) _))

end

end Sys2Proof.Safety

/-! The descriptor operations one by one (46_descriptors.md): the appends on a file with a free entry, the texts, and STRIP_TRIM. -/

namespace Sys2Proof.Machine

open Sys2Proof.Safety Sys2Proof.Laws

/-! ### DESC and DSKIP -/

/-- Settles O38: the clock of R125 in numbers is zero with both its bytes, and `fetch_desc` gives the block's bytes. -/
theorem descSelectsTheBranch : Obligations.DescSelectsTheBranch := by
  refine ⟨fun k p0 p1 x2 t x s => ⟨descBranch p0 p1 t, rfl, ?_⟩, fun s k h => ⟨group (blockByte s k) 4 14, ?_⟩⟩
  · rw [descBranch]
    simp only [ne_eq, clock_eq_zero_iff, le16_eq_zero]
    split_ifs <;> rfl
  · rw [byteAt_block s k 1, byteAt_block s k 2, byteAt_block s k 3]
    exact fetch_desc h

/-- Settles O45: DSKIP ends the block and does nothing else. -/
theorem dskipChangesNoRegister : Obligations.DskipChangesNoRegister := by
  refine ⟨fun k x2 y x s => ?_, fun s k h hsel => ?_⟩
  · rw [← next_desc]; rfl
  · rw [byteAt_block s k 3]
    exact ⟨_, _, fetch_dskip h hsel⟩

/-! ### The appends on a file with a free entry -/

section

variable {s : State} {k : Fin 4}

theorem exec_dtdGeo {g : Geo} (h : s.record.dtdCount.toNat < 4) : exec (.dtdGeo k g) s =
    .next { s with record := s.record.updateDtd ⟨_, h⟩ (geometry g), seq := .branch k .flg } := by
  change execDtdGeo k g s = _
  exact atEntry_of_lt h

theorem exec_dtdFlg {n : Bit} {sf ty : BitVec 2} {u r z : Bit} (h : s.record.dtdCount.toNat < 4) :
    exec (.dtdFlg k n sf ty u r z) s = .next ({ s with record := { s.record.updateDtd ⟨_, h⟩ (timingFlags n sf ty u r z) with
      dtdCount := s.record.dtdCount + 1 } }.endBlock k) := by
  change execDtdFlg k n sf ty u r z s = _
  exact atEntry_of_lt h

theorem exec_mrl {x2 x4 vmin vmax hmin hmax c : Byte} {x : Vector Byte 8} (h : s.record.rngCount.toNat < 4) :
    exec (.mrl k x2 x4 vmin vmax hmin hmax c x) s = .next ({ s with record := { s.record with
      rng := s.record.rng.set (⟨_, h⟩ : Fin 4) (rngEntry vmin vmax hmin hmax c), rngCount := s.record.rngCount + 1 } }.endBlock k) := by
  change execMrl k x2 x4 vmin vmax hmin hmax c x s = _
  exact atEntry_of_lt h

end

/-- A count below four has room for one more (R22). -/
theorem toNat_count_succ {c : BitVec 3} (h : c.toNat < 4) : (c + 1).toNat = c.toNat + 1 :=
  BitVec.toNat_add_of_lt (by simp; omega)

/-- R128: a clock of 16 bits times 10 fits its 20-bit register. -/
theorem toNat_geometry_pixclkKhz (g : Geo) (e : DtdEntry) :
    (geometry g e).pixclkKhz.toNat = (g.pLo.toNat + 256 * g.pHi.toNat) * 10 := by
  have hclock := (le16 g.pLo g.pHi).isLt
  exact (toNat_scaleBy (by omega)).trans (congrArg (· * 10) (toNat_le16 _ _))

/-- Settles O39: the clock is `toNat_geometry_pixclkKhz`, the split fields are joins, and `toNat_slice` gives their parts in the block's
bytes. -/
theorem dtdGeoReassemblesTheGeometry : Obligations.DtdGeoReassemblesTheGeometry :=
  ⟨fun _ g _ hfree => ⟨_, toNat_geometry_pixclkKhz g _, toNat_splitJoin _ _, toNat_splitJoin _ _, toNat_splitJoin _ _,
    toNat_splitJoin _ _, toNat_splitJoin _ _, toNat_splitJoin _ _, toNat_splitJoin _ _, toNat_splitJoin _ _, toNat_splitJoin _ _,
    toNat_splitJoin _ _, rfl, rfl, rfl, rfl, rfl, rfl, rfl, exec_dtdGeo hfree⟩,
   fun _ _ h hsel => ⟨_, fetch_dtdGeo h hsel, rfl, rfl, rfl, toNat_slice _ _ _, rfl, toNat_slice _ _ _, rfl, toNat_slice _ _ _, rfl,
    toNat_slice _ _ _, rfl, toNat_slice _ _ _, rfl, toNat_slice _ _ _, toNat_slice _ _ _, toNat_slice _ _ _, toNat_slice _ _ _,
    toNat_slice _ _ _, rfl, toNat_slice _ _ _, rfl, toNat_slice _ _ _, rfl, rfl⟩⟩

/-- Settles O40: `ROM.STEREO` clause by clause, the polarities by the sync type, and `toNat_slice` for the fields of `D[17]`. -/
theorem dtdFlgDecodesTheFlags : Obligations.DtdFlgDecodesTheFlags := by
  refine ⟨fun k n sf ty u r z s hfree => ⟨stereoCode sf z, polarity ty u, polarity ty r, s.record.dtdCount + 1, ?_, ?_, ?_, ?_, ?_,
    ?_, ?_, fun h => ⟨if_pos h, if_pos h⟩, fun h => ⟨if_neg h, if_neg h⟩, toNat_count_succ hfree, ?_⟩, fun s k h => ?_⟩
  · rintro rfl
    exact (stereoCode_table z).1
  iterate 6 rintro ⟨rfl, rfl⟩; rfl
  · rw [← next_desc]
    exact exec_dtdFlg hfree
  · rw [byteAt_block s k 17]
    exact ⟨_, _, _, _, _, _, fetch_dtdFlg h, toNat_slice _ 7 1, toNat_slice _ 5 2, toNat_slice _ 3 2, toNat_slice _ 2 1,
      toNat_slice _ 1 1, toNat_slice _ 0 1⟩

/-- Settles O44: 255 * 10 fits the 12-bit clock register, and a free entry is filled and counted. -/
theorem mrlAppendsTheRangeLimits : Obligations.MrlAppendsTheRangeLimits := by
  refine ⟨fun k x2 x4 vmin vmax hmin hmax c x s hfree => ⟨scaleBy 12 c 10, s.record.rngCount + 1, toNat_scaleBy ?_,
    toNat_count_succ hfree, ?_⟩, fun s k h hsel => ⟨_, _, _, fetch_mrl h hsel⟩⟩
  · have := c.isLt
    omega
  · rw [← next_desc]
    exact exec_mrl hfree

/-! ### The texts -/

/-- Settles O41: the register takes the 13 bytes as they are. -/
theorem mserStoresTheTextUnchanged : Obligations.MserStoresTheTextUnchanged := by
  refine ⟨fun k x2 x4 t s => ?_, fun s k h hsel => ⟨_, _, _, fetch_mser h hsel, getElem_blockText s k⟩⟩
  rw [← next_desc]; rfl

/-- Settles O42: stripping and trimming leaves at most 13 bytes, and `textReg` pads them with zeros. -/
theorem mnameStoresTheTrimmedText : Obligations.MnameStoresTheTrimmedText := by
  refine ⟨fun k x2 x4 t s => ?_, fun s k h hsel => ⟨_, _, _, fetch_mname h hsel, getElem_blockText s k⟩⟩
  have hlen : (stripTrim params t.toList).length ≤ 13 := (length_stripTrim_le params t.toList).trans_eq t.size_toArray
  refine ⟨stripTrim params t.toList, textReg (stripTrim params t.toList), BitVec.ofNat 4 (stripTrim params t.toList).length, rfl, ?_,
    hlen, fun j hj => ?_, fun j hj => ?_, ?_⟩
  · rw [BitVec.toNat_ofNat]; omega
  · rw [textReg_getElem, List.getD_eq_getElem _ _ hj]
  · rw [textReg_getElem, List.getD_eq_default _ _ hj]
  · rw [← next_desc]; rfl

/-- STRIP_TRIM cuts the stripped text in three: outer whitespace, the result, outer whitespace (R142). -/
theorem stripTrim_spec (p : Config.Params) (t : List Byte) :
    ∃ front back, t.filter (fun c => !p.nlSet.contains c) = front ++ stripTrim p t ++ back ∧ (∀ c ∈ front, c ∈ p.wsSet) ∧
      (∀ c ∈ back, c ∈ p.wsSet) ∧ (∀ c, (stripTrim p t).head? = some c → c ∉ p.wsSet) ∧
      ∀ c, (stripTrim p t).getLast? = some c → c ∉ p.wsSet := by
  generalize hstripped : t.filter (fun c => !p.nlSet.contains c) = stripped
  have hout : stripTrim p t = (trimFront p.wsSet (trimFront p.wsSet stripped).reverse).reverse := by rw [stripTrim, hstripped]
  obtain ⟨front, hfront, hfrontSet, hhead⟩ := trimFront_spec p.wsSet stripped
  obtain ⟨back, hback, hbackSet, hlast⟩ := trimFront_spec p.wsSet (trimFront p.wsSet stripped).reverse
  have hmid : trimFront p.wsSet stripped = stripTrim p t ++ back.reverse := by
    rw [hout, ← List.reverse_append, ← hback, List.reverse_reverse]
  refine ⟨front, back.reverse, ?_, hfrontSet, fun c hc => hbackSet c (List.mem_reverse.1 hc), fun c hc => hhead c ?_,
    fun c hc => hlast c ?_⟩
  · rw [List.append_assoc, ← hmid, ← hfront]
  · rw [hmid, List.head?_append, hc, Option.some_or]
  · rw [← List.getLast?_reverse, ← hout, hc]

/-- Settles O43: `stripTrim_spec` for the recommended sets. -/
theorem stripTrimRemovesNewlinesAndOuterSpace : Obligations.StripTrimRemovesNewlinesAndOuterSpace := by
  intro t
  obtain ⟨front, back, heq, hrest⟩ := stripTrim_spec params t
  have hnl : t.filter (fun c => !params.nlSet.contains c) = t.filter (· ≠ 0x0A) := List.filter_congr fun c _ => by simp [params]
  exact ⟨front, back, hnl.symm.trans heq, hrest⟩

end Sys2Proof.Machine

/-! A whole descriptor block (R125 to R127): what its bytes contribute, branch by branch, the timing that DTD.GEO and DTD.FLG fill
together, and the run from DESC to the next row. -/

namespace Sys2Proof.Machine

open Sys2Proof.Safety Sys2Proof.Laws

/-! ### The contribution of a block -/

/-- What a block `d` that selects the branch `b` contributes: `contribution_eq` ties it to the model's `contribution`. -/
def branchContribution (p : Config.Params) (d : Nat → Byte) : Branch → Contribution
  | .geo | .flg => .timing (timingOf d)
  | .ser => .serial (span d 5 13)
  | .name => .name (stripTrim p (span d 5 13))
  | .range => .range (rngEntry (d 5) (d 6) (d 7) (d 8) (d 9))
  | .skip => .nothing

theorem contribution_eq (p : Config.Params) (d : Nat → Byte) :
    contribution p d = branchContribution p d (classify (prefixWord (d 0) (d 1) (d 2) (d 3))) := by
  rw [classify_prefixWord, contribution]
  simp only [ne_eq, Nat.mul_comm _ 256, clock_eq_zero_iff]
  split_ifs <;> rfl

/-- DTD.FLG is never selected by a block's bytes (R65): it follows DTD.GEO (R134). -/
theorem classify_ne_flg (w : BitVec 32) : classify w ≠ .flg := by
  unfold classify
  split_ifs <;> exact nofun

/-! ### The detailed timing of a block -/

theorem eq_ofNat_of_toNat {n m : Nat} {v : BitVec n} (h : v.toNat = m) : v = BitVec.ofNat n m := by
  rw [← h, BitVec.ofNat_toNat, BitVec.setWidth_eq]

theorem slice_eq_ofNat (v : Byte) (lo n : Nat) : v.extractLsb' lo n = BitVec.ofNat n (v.toNat / 2 ^ lo % 2 ^ n) :=
  eq_ofNat_of_toNat (toNat_slice v lo n)

/-- A slice over a whole byte, in numbers. -/
theorem splitJoin_slice_byte (v low : Byte) (lo n : Nat) :
    splitJoin (v.extractLsb' lo n) low = BitVec.ofNat (n + 8) (v.toNat / 2 ^ lo % 2 ^ n * 2 ^ 8 + low.toNat) :=
  eq_ofNat_of_toNat (by rw [toNat_splitJoin, toNat_slice])

/-- A slice over a half byte, in numbers. -/
theorem splitJoin_slice_slice (v w : Byte) (lo n lo' : Nat) : splitJoin (v.extractLsb' lo n) (w.extractLsb' lo' 4) =
    BitVec.ofNat (n + 4) (v.toNat / 2 ^ lo % 2 ^ n * 2 ^ 4 + w.toNat / 2 ^ lo' % 2 ^ 4) :=
  eq_ofNat_of_toNat (by rw [toNat_splitJoin, toNat_slice, toNat_slice])

/-- The two statements of `ROM.STEREO` (R135) agree. -/
theorem stereoCode_eq_stereoOf : ∀ (s : BitVec 2) (z : Bit), stereoCode s z = stereoOf s.toNat z.toNat := by decide

/-- The polarity in bit `i` of a flags byte (R137). -/
theorem polarity_slice (f : Byte) (i : Nat) : polarity (f.extractLsb' 3 2) (f.extractLsb' i 1) =
    if bits f 4 3 = 3 then BitVec.ofNat 1 (f.toNat / 2 ^ i % 2 ^ 1) else 0 := by
  have hsync : f.extractLsb' 3 2 = 3 ↔ bits f 4 3 = 3 := by
    rw [← BitVec.toNat_inj, toNat_slice]; rfl
  rw [polarity, slice_eq_ofNat f i]
  exact if_congr hsync rfl rfl

/-- What DTD.FLG does to an entry, from the flags byte `d 17` of a block (R134). -/
def blockFlags (d : Nat → Byte) : DtdEntry → DtdEntry :=
  timingFlags ((d 17).extractLsb' 7 1) ((d 17).extractLsb' 5 2) ((d 17).extractLsb' 3 2) ((d 17).extractLsb' 2 1)
    ((d 17).extractLsb' 1 1) ((d 17).extractLsb' 0 1)

/-- DTD.GEO and DTD.FLG fill an entry with the block's timing, whatever it held (R128, R134). -/
theorem blockFlags_geometry (d : Nat → Byte) (e : DtdEntry) : blockFlags d (geometry (blockGeo d) e) = timingOf d := by
  have hclock : scaleBy 20 (le16 (d 0) (d 1)) 10 = BitVec.ofNat 20 (((d 0).toNat + (d 1).toNat * 256) * 10) := by
    rw [scaleBy, toNat_le16, Nat.mul_comm (2 ^ 8)]; rfl
  have hstereo : stereoCode ((d 17).extractLsb' 5 2) ((d 17).extractLsb' 0 1) = stereoOf (bits (d 17) 6 5) (bits (d 17) 0 0) := by
    rw [stereoCode_eq_stereoOf, toNat_slice, toNat_slice]; rfl
  simp only [blockFlags, timingFlags, geometry, timingOf, DtdEntry.mk.injEq]
  exact ⟨hclock, splitJoin_slice_byte _ _ _ _, splitJoin_slice_byte _ _ _ _, splitJoin_slice_byte _ _ _ _, splitJoin_slice_byte _ _ _ _,
    splitJoin_slice_byte _ _ _ _, splitJoin_slice_byte _ _ _ _, splitJoin_slice_slice _ _ _ _ _, splitJoin_slice_slice _ _ _ _ _,
    splitJoin_slice_byte _ _ _ _, splitJoin_slice_byte _ _ _ _, rfl, rfl, slice_eq_ofNat _ 7 1, hstereo, slice_eq_ofNat _ 3 2,
    polarity_slice _ 2, polarity_slice _ 1⟩

/-! ### Absorbing a contribution -/

theorem set_eq_ofFn {α : Type} {n : Nat} (v : Vector α n) (e : Fin n) (x : α) :
    v.set e x = Vector.ofFn fun j => if j.val = e.val then x else v[j] := by
  ext j hj
  simp [Vector.getElem_set, eq_comm]

theorem updateDtd_updateDtd (r : Record) (e : Fin 4) (f g : DtdEntry → DtdEntry) :
    (r.updateDtd e f).updateDtd e g = r.updateDtd e fun x => g (f x) := by
  simp [Record.updateDtd]

/-- The two writes of a timing branch to the entry at `DTD_COUNT` append the block's timing. -/
theorem absorb_timing (r : Record) {e : Fin 4} (he : e.val = r.dtdCount.toNat) (d : Nat → Byte) :
    absorb r (.timing (timingOf d)) =
      { (r.updateDtd e (geometry (blockGeo d))).updateDtd e (blockFlags d) with dtdCount := r.dtdCount + 1 } := by
  simp only [updateDtd_updateDtd, blockFlags_geometry]
  rw [absorb, Record.updateDtd, set_eq_ofFn, he]

theorem absorb_range (r : Record) {e : Fin 4} (he : e.val = r.rngCount.toNat) (x : RngEntry) :
    absorb r (.range x) = { r with rng := r.rng.set e x, rngCount := r.rngCount + 1 } := by
  rw [absorb, set_eq_ofFn, he]

/-! ### The steps of a block -/

/-- Where a decode stands the next step runs the fetched operation. -/
theorem step_fetched {s : State} {p : Place} {i : Instr} (h : StandsAt s p) (hf : fetch s = .ok i) : step s = exec i s := by
  obtain ⟨hc, hh, hb, -⟩ := h
  rw [step_silent hc hh, blockStep_busy hb, runPlace_fetch hf]

/-- Within a block the sequencer moves and the cursor stays (log 3). -/
theorem standsAt_move {s : State} {p q : Place} (h : StandsAt s p) (hq : q.cursor = p.cursor) (r : Record) :
    StandsAt { s with record := r, seq := q } q := by
  obtain ⟨hc, hh, hb, -, hcur, hl⟩ := h
  exact ⟨hc, hh, hb, rfl, hcur.trans hq.symm, hl⟩

theorem run_succ {M : Host.Core} {s t : M.State} (h : M.step s = .next t) (n : Nat) : M.run (n + 1) s = M.run n t := by
  rw [Host.Core.run, h]

section

variable {s : State} {k : Fin 4}

/-- DESC moves the sequencer to the branch that the block's bytes select. -/
theorem step_desc (h : StandsAt s (.row (.desc k))) : step s = .next { s with seq := .branch k (branchAt s.snap k.val) } := by
  rw [step_fetched h (fetch_desc h)]
  exact congrArg (fun b => Host.Outcome.next { s with seq := .branch k b }) (descBranch_eq_classify ..)

theorem step_dtdGeo (h : StandsAt s (.branch k .geo)) (hsel : branchAt s.snap k.val = .geo) (hfree : s.record.dtdCount.toNat < 4) :
    step s = .next { s with record := s.record.updateDtd ⟨_, hfree⟩ (geometry (blockGeo (blockByte s k))), seq := .branch k .flg } :=
  (step_fetched h (fetch_dtdGeo h hsel)).trans (exec_dtdGeo hfree)

theorem step_dtdFlg (h : StandsAt s (.branch k .flg)) (hfree : s.record.dtdCount.toNat < 4) :
    step s = .next ({ s with record := { s.record.updateDtd ⟨_, hfree⟩ (blockFlags (blockByte s k)) with
      dtdCount := s.record.dtdCount + 1 } }.endBlock k) :=
  (step_fetched h (fetch_dtdFlg h)).trans (exec_dtdFlg hfree)

/-- The timing branch ends the block in two steps. -/
theorem run_timing (h : StandsAt s (.branch k .geo)) (hsel : branchAt s.snap k.val = .geo) (hfree : s.record.dtdCount.toNat < 4) :
    core.run 2 s = .next ({ s with record := absorb s.record (.timing (timingOf (blockByte s k))) }.endBlock k) := by
  have hflg := standsAt_move h (q := .branch k .flg) rfl (s.record.updateDtd ⟨_, hfree⟩ (geometry (blockGeo (blockByte s k))))
  rw [absorb_timing s.record (e := ⟨_, hfree⟩) rfl]
  exact (run_succ (M := core) (step_dtdGeo h hsel hfree) 1).trans (run_succ (M := core) (step_dtdFlg hflg hfree) 0)

/-- A monitor branch ends the block in one step. -/
theorem step_monitor (h : StandsAt s (.branch k (branchAt s.snap k.val))) (hgeo : branchAt s.snap k.val ≠ .geo)
    (hfree : s.record.rngCount.toNat < 4) :
    step s = .next
      ({ s with record := absorb s.record (branchContribution params (blockByte s k) (branchAt s.snap k.val)) }.endBlock k) := by
  generalize hsel : branchAt s.snap k.val = b at *
  cases b
  case geo => exact absurd rfl hgeo
  case flg => exact absurd hsel (classify_ne_flg _)
  case ser => rw [step_fetched h (fetch_mser h hsel), branchContribution, absorb, textReg_span]; rfl
  case name => rw [step_fetched h (fetch_mname h hsel), branchContribution, absorb, ← toList_group]; rfl
  case range => rw [step_fetched h (fetch_mrl h hsel), exec_mrl hfree, branchContribution, absorb_range s.record (e := ⟨_, hfree⟩) rfl]
  case skip => rw [step_fetched h (fetch_dskip h hsel)]; rfl

end

/-- Settles O46: DESC goes to the selected branch, which ends the block in two steps for a timing and in one otherwise; with at most `k`
entries in the two files each has a free one. -/
theorem eachBlockConsumes18Bytes : Obligations.EachBlockConsumes18Bytes := by
  intro s k h hbound c
  have hc : c = branchContribution params (blockByte s k) (branchAt s.snap k.val) := contribution_eq ..
  have hat := standsAt_move h (q := .branch k (branchAt s.snap k.val)) rfl s.record
  rw [hc, ← next_desc]
  by_cases hgeo : branchAt s.snap k.val = .geo
  · refine ⟨3, .inr rfl, (run_succ (M := core) (step_desc h) 2).trans ?_⟩
    rw [hgeo] at hat ⊢
    exact run_timing hat hgeo (by dsimp only; omega)
  · exact ⟨2, .inl rfl, (run_succ (M := core) (step_desc h) 1).trans
      (run_succ (M := core) (step_monitor hat hgeo (by dsimp only; omega)) 0)⟩

end Sys2Proof.Machine

/-! Runs of the machine: within how many steps it comes from one state to another, and that a block at rest stays as it is (R172). -/

namespace Sys2Proof.Machine

open Sys2Proof.Safety Sys2Proof.Laws

/-! ### Runs -/

/-- The machine comes from `s` to `t` within `N` steps: `Reaches.run_resting` ties it to a run of exactly `N` steps. -/
def Reaches (N : Nat) (s t : State) : Prop := ∃ n ≤ N, core.run n s = .next t

theorem Reaches.refl (s : State) : Reaches 0 s s := ⟨0, le_refl 0, rfl⟩

theorem run_add {M : Host.Core} {t : M.State} (m : Nat) : ∀ {n : Nat} {s : M.State}, M.run n s = .next t → M.run (n + m) s = M.run m t
  | 0, _, h => by cases h; rw [Nat.zero_add]
  | n + 1, s, h => by
    rw [Nat.add_right_comm]
    rw [Host.Core.run] at h ⊢
    split at h
    · exact run_add m h
    all_goals cases h

theorem Reaches.trans {M N : Nat} {s t u : State} (h : Reaches M s t) (h' : Reaches N t u) : Reaches (M + N) s u := by
  obtain ⟨m, hm, hst⟩ := h
  obtain ⟨n, hn, htu⟩ := h'
  exact ⟨m + n, Nat.add_le_add hm hn, (run_add (M := core) n hst).trans htu⟩

theorem Reaches.mono {M N : Nat} {s t : State} (h : Reaches M s t) (hMN : M ≤ N) : Reaches N s t := by
  obtain ⟨n, hn, hst⟩ := h
  exact ⟨n, hn.trans hMN, hst⟩

theorem Reaches.of_step {s t : State} (h : step s = .next t) : Reaches 1 s t := ⟨1, le_refl 1, run_succ (M := core) h 0⟩

/-- A block that no decode runs in and the host leaves alone stays as it is (R172). -/
theorem run_resting {t : State} (hidle : t.status ≠ .busy) (hc : t.ctrl = 0) (hh : t.host = []) : ∀ n, core.run n t = .next t
  | 0 => rfl
  | n + 1 => (run_succ (M := core) ((step_silent hc hh).trans (blockStep_idle hidle)) n).trans (run_resting hidle hc hh n)

/-- A run that has come to rest stays there to its last step. -/
theorem Reaches.run_resting {N : Nat} {s t : State} (h : Reaches N s t) (hidle : t.status ≠ .busy) (hc : t.ctrl = 0) (hh : t.host = []) :
    core.run N s = .next t := by
  obtain ⟨n, hn, hst⟩ := h
  rw [← Nat.add_sub_of_le hn, run_add (M := core) _ hst]
  exact Machine.run_resting hidle hc hh _

end Sys2Proof.Machine

/-! Every decode ends (R156): the steps left at a place of the schedule, and that each operation lowers them. -/

namespace Sys2Proof.Safety

open Sys2Proof.Machine Sys2Proof.Laws

/-- The most steps a decode takes from a place on: one for each row and for the end row, and up to two for the branch of each
descriptor block still to come. -/
def stepsLeft : Place → Nat
  | .row r => 33 - r.number + 2 * (4 - blocksDone (.row r))
  | .branch k b => 5 - k.val + 2 * (3 - k.val) + (if b = .geo then 2 else 1)
  | .finish => 1

theorem number_le (r : Row) : r.number ≤ 31 := by
  cases r
  case stdt k | desc k => simp only [Row.number]; omega
  all_goals decide

theorem stepsLeft_pos (p : Place) : 0 < stepsLeft p := by
  cases p with
  | row r => have := number_le r; simp only [stepsLeft]; omega
  | branch k b => simp only [stepsLeft]; split <;> omega
  | finish => decide

theorem stepsLeft_le (p : Place) : stepsLeft p ≤ 41 := by
  cases p with
  | row r => simp only [stepsLeft]; omega
  | branch k b => simp only [stepsLeft]; split <;> omega
  | finish => decide

/-- A row is followed by a place with fewer steps left. -/
theorem stepsLeft_next (r : Row) : stepsLeft r.next < stepsLeft (.row r) := by
  have hr := number_le r
  obtain ⟨rfl, hnext⟩ | ⟨q, hnext, hnumber⟩ := next_number r
  · decide
  · have hblocks := blocksDone_le_next r
    have hq := number_le q
    rw [hnext] at hblocks ⊢
    simp only [stepsLeft]
    omega

theorem stepsLeft_next_desc (k : Fin 4) : stepsLeft (Row.desc k).next = 5 - k.val + 2 * (3 - k.val) := by fin_cases k <;> rfl

theorem stepsLeft_branch_le (k : Fin 4) (b : Branch) : stepsLeft (.branch k b) < stepsLeft (.row (.desc k)) := by
  simp only [stepsLeft, Row.number, blocksDone]
  split <;> omega

/-- The last operation of a block has one step, and the next row's are left. -/
theorem stepsLeft_blockEnd {k : Fin 4} {b : Branch} (hb : b ≠ .geo) : stepsLeft (Row.desc k).next < stepsLeft (.branch k b) := by
  rw [stepsLeft_next_desc, stepsLeft, if_neg hb]
  omega

theorem exec_stepsLeft {i : Instr} {p : Place} {s t : State} (hi : i.slot = .sched p) (hl : i ≠ .lenchk) (h : exec i s = .next t) :
    stepsLeft t.seq < stepsLeft p := by
  cases i
  case lenchk => exact absurd rfl hl
  case start | reset => cases hi
  case desc k _ _ _ _ _ => cases hi; cases h; exact stepsLeft_branch_le k _
  case dtdGeo k g =>
    cases hi
    obtain ⟨_, -, rfl⟩ := exec_dtdGeo_next h
    exact Nat.lt_succ_self _
  case dtdFlg => cases hi; obtain ⟨_, -, rfl⟩ := exec_dtdFlg_next h; exact stepsLeft_blockEnd nofun
  case mrl => cases hi; obtain ⟨_, -, rfl⟩ := exec_mrl_next h; exact stepsLeft_blockEnd nofun
  case mser | mname | dskip => cases hi; cases h; exact stepsLeft_blockEnd nofun
  all_goals cases hi; cases h; rw [State.endRow_seq]; exact stepsLeft_next _

/-- A running decode ends with this operation, or it has fewer steps left and the host is still silent. -/
theorem runPlace_progress {s t : State} (hb : s.status = .busy) (h : runPlace s = .next t) :
    t.status = .done ∨ t.status = .err ∨
    (t.status = .busy ∧ t.ctrl = s.ctrl ∧ t.host = s.host ∧ stepsLeft t.seq < stepsLeft s.seq) := by
  obtain ⟨-, rfl⟩ | ⟨i, hf, h⟩ := runPlace_next h
  · exact .inl rfl
  have hslot : i.slot = .sched s.seq := slot_of_decode hf
  by_cases hl : i = .lenchk
  · subst hl
    obtain ⟨-, rfl⟩ | ⟨-, rfl⟩ := exec_lenchk_next h
    · exact .inr (.inl rfl)
    · exact .inr (.inr ⟨hb, rfl, rfl, by rw [← Slot.sched.inj hslot]; exact stepsLeft_next .lenchk⟩)
  · have hprogress := exec_stepsLeft hslot hl h
    obtain ⟨_, _, _, rfl⟩ := exec_scheduled_next h (by rw [scheduled, hslot]) hl
    exact .inr (.inr ⟨hb, rfl, rfl, hprogress⟩)

/-- An append is never refused. -/
theorem atEntry_ne_refused (c : BitVec 3) (g : Fin 4 → State) (r : Refusal) : atEntry c (fun e => .next (g e)) ≠ .refused r := by
  unfold atEntry
  split <;> exact nofun

/-- No operation of the schedule is refused. -/
theorem exec_scheduled_ne_refused {i : Instr} (hi : scheduled i = true) (s : State) (r : Refusal) : exec i s ≠ .refused r := by
  cases i
  case start | reset => cases hi
  case lenchk => change execLenchk s ≠ _; unfold execLenchk; split <;> exact nofun
  case dtdGeo k g => change execDtdGeo k g s ≠ _; exact atEntry_ne_refused _ _ r
  case dtdFlg k n sf ty u v z => change execDtdFlg k n sf ty u v z s ≠ _; exact atEntry_ne_refused _ _ r
  case mrl k x2 x4 vmin vmax hmin hmax c x => change execMrl k x2 x4 vmin vmax hmin hmax c x s ≠ _; exact atEntry_ne_refused _ _ r
  all_goals exact nofun

/-- A running decode is never refused. -/
theorem runPlace_ne_refused (s : State) (r : Refusal) : runPlace s ≠ .refused r := by
  intro h
  unfold runPlace at h
  split at h
  · cases h
  all_goals
    split at h
    · next i hf => exact exec_scheduled_ne_refused (by rw [scheduled, slot_of_decode hf]) s r h
    · cases h

/-- Under the invariant a running decode does not stop before its end. -/
theorem step_silent_next {s : State} (hinv : Inv s) (hb : s.status = .busy) (hc : s.ctrl = 0) (hh : s.host = []) :
    ∃ t, step s = .next t ∧ runPlace s = .next t := by
  have hstep : step s = runPlace s := (step_silent hc hh).trans (blockStep_busy hb)
  cases hrun : runPlace s with
  | next t => exact ⟨t, hstep.trans hrun, rfl⟩
  | fault f => exact absurd hrun (runPlace_ne_fault hinv hb f)
  | refused r => exact absurd hrun (runPlace_ne_refused s r)

theorem decode_ends : ∀ (n : Nat) {s : State}, Inv s → s.status = .busy → s.ctrl = 0 → s.host = [] → stepsLeft s.seq ≤ n →
    ∃ t, Reaches n s t ∧ (t.status = .done ∨ t.status = .err)
  | 0, s, _, _, _, _, hn => absurd (stepsLeft_pos s.seq) hn.not_gt
  | n + 1, s, hinv, hb, hc, hh, hn => by
    obtain ⟨t, hstep, hrun⟩ := step_silent_next hinv hb hc hh
    have hfirst : Reaches 1 s t := .of_step hstep
    rw [Nat.add_comm]
    obtain hdone | herr | ⟨hb', hc', hh', hless⟩ := runPlace_progress hb hrun
    · exact ⟨t, hfirst.mono (Nat.le_add_right 1 n), .inl hdone⟩
    · exact ⟨t, hfirst.mono (Nat.le_add_right 1 n), .inr herr⟩
    · obtain ⟨u, hu, hend⟩ := decode_ends n (invariantIsKeptByEveryStep s t hinv hstep) hb' (hc'.trans hc) (hh'.trans hh) (by omega)
      exact ⟨u, hfirst.trans hu, hend⟩

/-- Settles O56: at most 41 steps are left at any place, and `runPlace_progress` lowers them until the decode ends. -/
theorem everyDecodeEnds : Obligations.EveryDecodeEnds := by
  intro s hinv hb hc hh
  obtain ⟨t, ⟨n, hn, hrun⟩, hend⟩ := decode_ends 41 hinv hb hc hh (stepsLeft_le s.seq)
  exact ⟨n, t, hn, hrun, hend⟩

end Sys2Proof.Safety

/-! START's first step and the host's reads (R151, R157). -/

namespace Sys2Proof.Machine

open Sys2Proof.Safety

/-- START outside a decode begins one (R151). -/
theorem exec_start_of_idle {s : State} (hidle : s.status ≠ .busy) : exec .start s = .next s.beginDecode := if_neg hidle

/-- Settles O4: the snapshot holds the bytes of `IN` that START copied, and every other field is what `beginDecode` puts there. -/
theorem startLatchesClearsAndBegins : Obligations.StartLatchesClearsAndBegins := fun s hidle =>
  ⟨s.beginDecode, exec_start_of_idle hidle, rfl, Memory.length_bytes _ _, fun _ ha => Memory.getD_bytes _ ha, reading_reset, rfl, rfl,
    rfl, rfl, rfl, rfl, rfl, rfl, rfl, rfl, rfl⟩

/-- A record register outside a decode reads as it is (R27). -/
theorem hostReading_record {s : State} (hidle : s.status ≠ .busy) (g : RecReg) : hostReading s (.record g) = s.record.reading g :=
  if_neg hidle

/-- No free value is drawn but for a record register while `BUSY` (U9). -/
theorem readsFree_eq_false {s : State} {r : HostReg} (h : s.status ≠ .busy ∨ ∀ g, r ≠ .record g) : readsFree s r = false := by
  cases r
  case record g => exact decide_eq_false (h.resolve_right fun hr => hr g rfl)
  all_goals rfl

/-- Settles O9: the read draws no free value, so it leaves what it returns and nothing else. -/
theorem hostReadsReturnTheRegister : Obligations.HostReadsReturnTheRegister := by
  intro s r es hc hr hh
  refine ⟨hostReading s r, ?_, ?_⟩
  · rw [step_event hc hh]
    change Host.Outcome.next (hostRead r { s with host := es }) = _
    rw [hostRead, readsFree_eq_false (s := { s with host := es }) hr]; rfl
  · cases r
    case record g => exact hostReading_record (hr.resolve_right fun hr => hr g rfl) g
    case status =>
      change s.status.code.toNat = _
      cases s.status <;> rfl
    all_goals rfl

end Sys2Proof.Machine

/-! The registers of `DECODE` (R153, R154), which the model gives in numbers, in the terms of the row operations: the joins and slices of
the input's bytes. -/

namespace Sys2Proof.Machine

open Sys2Proof.Safety Sys2Proof.Laws

variable (inp : Nat → Byte)

/-! ### One register at a time -/

theorem checksumFlag_eq (bs : List Byte) : checksumFlag bs = if (bs.map BitVec.toNat).sum % 256 = 0 then 1 else 0 :=
  if_congr (by rw [← toNat_byteSum]; exact BitVec.toNat_inj.symm) rfl rfl

theorem recordOf_checksumOk : (recordOf params inp).checksumOk = checksumFlag (span inp 0 128) := by
  rw [checksumFlag_eq, recordOf]

theorem recordOf_mfg : (recordOf params inp).mfg = #v[letter params ((inp 8).extractLsb' 2 5),
    letter params ((inp 8).extractLsb' 0 2 ++ (inp 9).extractLsb' 5 3), letter params ((inp 9).extractLsb' 0 5)] := by
  obtain ⟨h0, h1, h2⟩ := toNat_mfgid_fields (inp 8) (inp 9)
  rw [eq_ofNat_of_toNat h0, eq_ofNat_of_toNat h1, eq_ofNat_of_toNat h2]
  ext i hi
  interval_cases i <;> simp [recordOf, mfgOf]

theorem recordOf_product : (recordOf params inp).product = le16 (inp 10) (inp 11) :=
  (eq_ofNat_of_toNat ((toNat_le16 _ _).trans (congrArg _ (Nat.mul_comm _ _)))).symm

theorem recordOf_serial : (recordOf params inp).serial = le32 (inp 12) (inp 13) (inp 14) (inp 15) :=
  (eq_ofNat_of_toNat ((toNat_le32 _ _ _ _).trans (by simp only [Nat.mul_comm]))).symm

theorem bits_seven_eq_one_iff (v : Byte) : bits v 7 7 = 1 ↔ v.extractLsb' 7 1 = 1#1 := by
  rw [← BitVec.toNat_inj, toNat_slice]; rfl

theorem chromaAt_eq_register {c : Chroma} {i : Fin 8} (hm : c.m[i] = inp (27 + i.val))
    (hl : c.lanes[i] = (inp (25 + i.val / 4)).extractLsb' (6 - 2 * (i.val % 4)) 2) : c.register i = chromaAt inp i.val :=
  eq_ofNat_of_toNat (by rw [toNat_chromaRegister, hm, hl, toNat_slice, Nat.mul_comm]; rfl)

theorem stdEntry_eq_stdOf (k : Nat) :
    stdEntry (inp (38 + 2 * k)) ((inp (39 + 2 * k)).extractLsb' 6 2) ((inp (39 + 2 * k)).extractLsb' 0 6) = stdOf inp k := by
  have ratio : ∀ a : BitVec 2, romAspect[a.toNat]'a.isLt = romAspect.toList.getD a.toNat (1, 1) := by decide
  rw [stdEntry, stdHeight, toNat_stdWidth, ratio, offsetBy, toNat_slice, toNat_slice, slice_eq_ofNat]
  rfl

/-! ### `EST_MASK` bit by bit -/

/-- The number that `estMaskOf` builds from the bits `f 0` to `f (n - 1)`. -/
def bitSum (f : Nat → Bool) (n : Nat) : Nat := ((List.range n).map fun i => if f i then 2 ^ i else 0).sum

theorem bitSum_succ (f : Nat → Bool) (n : Nat) : bitSum f (n + 1) = (if f n then 2 ^ n else 0) + bitSum f n := by
  simp [bitSum, List.range_succ, Nat.add_comm]

theorem bitSum_lt (f : Nat → Bool) : ∀ n, bitSum f n < 2 ^ n
  | 0 => Nat.one_pos
  | n + 1 => by
    have := bitSum_lt f n
    rw [bitSum_succ, Nat.pow_succ]
    split <;> omega

theorem testBit_bitSum (f : Nat → Bool) {i : Nat} : ∀ {n : Nat}, i < n → (bitSum f n).testBit i = f i
  | n + 1, h => by
    have hlt := bitSum_lt f n
    rw [bitSum_succ]
    obtain hi | rfl := Nat.lt_succ_iff_lt_or_eq.1 h
    · have ih := testBit_bitSum f hi
      split
      · rw [Nat.testBit_two_pow_add_gt hi, ih]
      · rw [Nat.zero_add, ih]
    · split
      · next hf => rw [Nat.testBit_two_pow_add_eq, Nat.testBit_lt_two_pow hlt, hf]; rfl
      · next hf => rw [Nat.zero_add, Nat.testBit_lt_two_pow hlt, Bool.eq_false_iff.2 hf]

theorem estMaskOf_getLsbD {i : Nat} (hi : i < 17) : (estMaskOf inp).getLsbD i = (inp (35 + i / 8)).getLsbD (7 - i % 8) := by
  change (BitVec.ofNat 17 (bitSum (fun i => (inp (35 + i / 8)).getLsbD (7 - i % 8)) 17)).getLsbD i = _
  rw [BitVec.getLsbD_ofNat, testBit_bitSum _ hi, decide_eq_true hi, Bool.true_and]

/-- The three operations fill the mask of R18, whatever it held. -/
theorem estOperations_eq_estMaskOf (m : BitVec 17) :
    estThird (estSecond (estFirst m (inp 35)) (inp 36)) ((inp 37).extractLsb' 7 1) = estMaskOf inp := by
  refine BitVec.eq_of_getLsbD_eq fun i hi => ?_
  rw [estThird_getLsbD, estSecond_getLsbD, estFirst_getLsbD, estMaskOf_getLsbD inp hi]
  by_cases hlow : i < 8
  · rw [if_neg (by omega), if_neg (by omega), if_pos hlow, Nat.div_eq_of_lt hlow, Nat.mod_eq_of_lt hlow]
  by_cases hmid : i < 16
  · rw [if_neg (by omega), if_pos (by omega), show i / 8 = 1 by omega, show 7 - i % 8 = 15 - i by omega]
  · obtain rfl : i = 16 := by omega
    exact getLsbD_highSlice _ (le_refl 8) (le_refl 7)

end Sys2Proof.Machine

/-! A decode place by place (R61, R153): what differs between two of its states is the place and the record, and each row operation copies
its registers from the record of DECODE. -/

namespace Sys2Proof.Machine

open Sys2Proof.Safety Sys2Proof.Laws

/-! ### A decode at a place -/

/-- `s` with its decode brought to place `p`, with the record `r`: the cursor is the place's (R61), and nothing else differs. -/
def State.moved (s : State) (p : Place) (r : Record) : State := { s with record := r, cur := BitVec.ofNat 8 p.cursor, seq := p }

theorem cursor_lt (p : Place) : p.cursor < 2 ^ 8 := by
  cases p with
  | row r => exact (le_self_add.trans (offset_add_size_le r)).trans_lt (by decide)
  | branch k b => exact (le_self_add.trans (offset_add_size_le (.desc k))).trans_lt (by decide)
  | finish => decide

/-- A decode in progress that is brought to another place stands there. -/
theorem standsAt_moved {s : State} {p : Place} (h : StandsAt s p) (q : Place) (r : Record) : StandsAt (s.moved q r) q := by
  obtain ⟨hc, hh, hb, -, -, hl⟩ := h
  exact ⟨hc, hh, hb, rfl, (BitVec.toNat_ofNat _ _).trans (Nat.mod_eq_of_lt (cursor_lt q)), hl⟩

/-! ### The row operations -/

/-- The record after the operation of row `q` on an input of DECODE: that row's registers are those of DECODE. The three operations on
`EST_MASK` fill it in parts (R115 to R117). LENCHK and DESC write no register. -/
def fillRow (inp : Nat → Byte) (r : Record) (q : Row) : Record :=
  let d := recordOf params inp
  match q with
  | .lenchk | .desc _ => r
  | .cksum => { r with checksumOk := d.checksumOk }
  | .hdr => { r with header := d.header }
  | .mfgid => { r with mfg := d.mfg }
  | .prod => { r with product := d.product }
  | .sernum => { r with serial := d.serial }
  | .mweek => { r with week := d.week }
  | .myear => { r with year := d.year }
  | .ever => { r with version := d.version }
  | .erev => { r with revision := d.revision }
  | .vidin =>
    { r with isDigital := d.isDigital, dfp := d.dfp, compositeSync := d.compositeSync, syncOnGreen := d.syncOnGreen }
  | .hsize => { r with hsizeCm := d.hsizeCm }
  | .vsize => { r with vsizeCm := d.vsizeCm }
  | .gamma => { r with gammaX100 := d.gammaX100 }
  | .feat =>
    { r with dpmsStandby := d.dpmsStandby, dpmsSuspend := d.dpmsSuspend, dpmsActiveoff := d.dpmsActiveoff, displayType := d.displayType }
  | .chroma =>
    { r with redX := d.redX, redY := d.redY, greenX := d.greenX, greenY := d.greenY, blueX := d.blueX, blueY := d.blueY
             whiteX := d.whiteX, whiteY := d.whiteY }
  | .est1 => { r with estMask := estFirst r.estMask (inp 35) }
  | .est2 => { r with estMask := estSecond r.estMask (inp 36) }
  | .est3 => { r with estMask := estThird r.estMask ((inp 37).extractLsb' 7 1) }
  | .stdt k => { r with std := r.std.set k (stdOf inp k.val) }
  | .extc => { r with extCount := d.extCount }

/-- A row operation that answers as its row ends. -/
theorem step_endRow {s : State} {q : Row} {i : Instr} {r : Record} {c : BitVec 8} (h : StandsAt s (.row q)) (hf : fetch s = .ok i)
    (hi : exec i s = .next ({ s with record := r }.endRow q c)) (hc : c = BitVec.ofNat 8 q.next.cursor) :
    step s = .next (s.moved q.next r) := by
  rw [step_fetched h hf, hi, hc]; rfl

theorem fetch_cksum {s : State} (h : StandsAt s (.row .cksum)) : fetch s = .ok (.cksum (group (byteAt s) 0 128)) := by
  rw [fetch_of_standsAt h]
  change withBytes 128 (s.snap.drop 0) _ = _
  rw [drop_snap_span (m := 128) (by rw [h.snap_length]), ← toList_group, withBytes_append]

theorem fetch_hdr {s : State} (h : StandsAt s (.row .hdr)) : fetch s = .ok (.hdr (group (byteAt s) 0 8)) := by
  rw [fetch_row h]
  change withBytes 8 (span (byteAt s) 0 8 ++ _) _ = _
  rw [← toList_group, withBytes_append]

theorem group_zero (f : Nat → Byte) (n : Nat) : group f 0 n = Vector.ofFn fun j => f j.val := by simp [group]

/-- While a decode runs, each row but LENCHK and DESC moves to the next one with its registers as DECODE has them. -/
theorem step_row {s : State} {q : Row} (h : StandsAt s (.row q)) (hl : q ≠ .lenchk) (hd : ∀ k, q ≠ .desc k) :
    step s = .next (s.moved q.next (fillRow (byteAt s) s.record q)) := by
  cases q
  case lenchk => exact absurd rfl hl
  case desc k => exact absurd rfl (hd k)
  case cksum =>
    have hc : s.cur = 0 := by
      obtain ⟨-, -, -, -, hc, -⟩ := h
      exact BitVec.eq_of_toNat_eq hc
    refine step_endRow h (fetch_cksum h) ?_ hc
    rw [fillRow, recordOf_checksumOk, ← toList_group]; rfl
  case hdr =>
    refine step_endRow h (fetch_hdr h) ?_ rfl
    rw [group_zero]; rfl
  case mfgid =>
    refine step_endRow h (fetch_row h) ?_ rfl
    rw [fillRow, recordOf_mfg]; rfl
  case prod =>
    refine step_endRow h (fetch_row h) ?_ rfl
    rw [fillRow, recordOf_product]; rfl
  case sernum =>
    refine step_endRow h (fetch_row h) ?_ rfl
    rw [fillRow, recordOf_serial]; rfl
  case vidin =>
    by_cases hbit : (byteAt s 20).getLsbD 7 = true
    · have hdigital := (bits_seven_eq_one_iff _).2 ((bitSlice_eq_one_iff _ 7).2 hbit)
      refine step_endRow h (fetch_vidinD h hbit) ?_ rfl
      simp only [fillRow, recordOf, if_pos hdigital]
      rw [slice_eq_ofNat _ 0]; rfl
    · have hanalog := (bits_seven_eq_one_iff _).not.2 ((bitSlice_eq_one_iff _ 7).not.2 hbit)
      refine step_endRow h (fetch_vidinA h (Bool.eq_false_iff.2 hbit)) ?_ rfl
      simp only [fillRow, recordOf, if_neg hanalog]
      rw [slice_eq_ofNat _ 2, slice_eq_ofNat _ 1 1]; rfl
  case feat =>
    refine step_endRow h (fetch_row h) ?_ rfl
    simp only [slice_eq_ofNat]; rfl
  case chroma =>
    obtain ⟨c, hc, hfields⟩ := fetch_chroma h
    have hreg (i : Fin 8) : c.register i = chromaAt (byteAt s) i.val := chromaAt_eq_register _ (hfields i).1 (hfields i).2
    refine step_endRow h hc ((exec_chroma c s).trans ?_) rfl
    simp only [hreg]; rfl
  case stdt k =>
    have hc : s.cur.toNat = 38 + 2 * k.val := by
      obtain ⟨-, -, -, -, hc, -⟩ := h
      exact hc
    have hnext : s.cur + 2 = BitVec.ofNat 8 (Row.stdt k).next.cursor := eq_ofNat_of_toNat (by
      rw [next_cursor]
      exact (BitVec.toNat_add_of_lt (by simp; omega)).trans (congrArg (· + 2) hc))
    refine step_endRow h (fetch_stdt h) ?_ hnext
    rw [fillRow, ← stdEntry_eq_stdOf]; rfl
  all_goals exact step_endRow h (fetch_row h) rfl rfl

/-! ### The rows before the descriptor blocks -/

/-- Rows 1 to 26 of R61. -/
def rowsBeforeBlocks : List Row :=
  [.cksum, .hdr, .mfgid, .prod, .sernum, .mweek, .myear, .ever, .erev, .vidin, .hsize, .vsize, .gamma, .feat, .chroma, .est1, .est2,
   .est3, .stdt 0, .stdt 1, .stdt 2, .stdt 3, .stdt 4, .stdt 5, .stdt 6, .stdt 7]

/-- The schedule goes from one place to another through rows that `step_row` speaks of. -/
def Leads : Place → List Row → Place → Prop
  | p, [], p' => p = p'
  | p, q :: qs, p' => p = .row q ∧ q ≠ .lenchk ∧ (∀ k, q ≠ .desc k) ∧ Leads q.next qs p'

theorem leads_rowsBeforeBlocks : Leads (.row .cksum) rowsBeforeBlocks (.row (.desc 0)) := by
  simp [Leads, rowsBeforeBlocks, Row.next]

/-- Row after row the decode fills in the registers. -/
theorem reaches_rows {s : State} {p₀ : Place} (h : StandsAt s p₀) : ∀ (qs : List Row) {p p' : Place} (r : Record), Leads p qs p' →
    Reaches qs.length (s.moved p r) (s.moved p' (qs.foldl (fillRow (byteAt s)) r))
  | [], _, _, r, rfl => .refl _
  | q :: qs, _, _, r, ⟨rfl, hl, hd, hqs⟩ => by
    rw [List.length_cons, Nat.add_comm]
    exact (Reaches.of_step (step_row (standsAt_moved h (.row q) r) hl hd)).trans (reaches_rows h qs _ hqs)

/-- The record when the first descriptor block is reached (R154): DECODE's, but for the registers that come later. -/
def beforeBlocks (inp : Nat → Byte) : Record :=
  { recordOf params inp with
    dtd := .replicate 4 .reset, dtdCount := 0, rng := .replicate 4 .reset, rngCount := 0, name := .replicate 13 0, nameLen := 0
    sertxt := .replicate 13 0, sertxtLen := 0, extCount := 0 }

/-- The eight standard timings fill their file, whatever it held. -/
theorem stdOperations_eq_ofFn (f : Nat → StdEntry) (v : Vector StdEntry 8) :
    (((((((v.set 0 (f 0)).set 1 (f 1)).set 2 (f 2)).set 3 (f 3)).set 4 (f 4)).set 5 (f 5)).set 6 (f 6)).set 7 (f 7) =
      Vector.ofFn fun k => f k.val := by
  ext1 i hi
  interval_cases i <;> simp

theorem fill_rowsBeforeBlocks (inp : Nat → Byte) : rowsBeforeBlocks.foldl (fillRow inp) .reset = beforeBlocks inp := by
  have hest : (recordOf params inp).estMask = _ := (estOperations_eq_estMaskOf inp Record.reset.estMask).symm
  have hstd : (recordOf params inp).std = _ := (stdOperations_eq_ofFn (stdOf inp) Record.reset.std).symm
  simp only [beforeBlocks, hest, hstd, rowsBeforeBlocks, List.foldl_cons, List.foldl_nil, fillRow, Record.reset]
  rfl

end Sys2Proof.Machine

/-! The descriptor blocks of a decode together (R126, R127), and the transaction (R151, R153, R163): START, the rows, the blocks, EXTC and
the end row, or START and the error that LENCHK raises. -/

namespace Sys2Proof.Machine

open Sys2Proof.Safety Sys2Proof.Laws

/-! ### The contributions of the blocks done -/

/-- The record `r` with what the blocks done have contributed, in the terms of DECODE: the two files in block order (R22), and the texts
under the policy `last` (R146). -/
def withContributions (r : Record) (cs : List Contribution) : Record :=
  let name := keptText params (namesOf cs)
  let serial := keptText params (serialsOf cs)
  { r with
    dtd := Vector.ofFn fun e => (timingsOf cs).getD e.val .reset
    dtdCount := BitVec.ofNat 3 (timingsOf cs).length
    rng := Vector.ofFn fun e => (rangesOf cs).getD e.val .reset
    rngCount := BitVec.ofNat 3 (rangesOf cs).length
    name := textReg name
    nameLen := BitVec.ofNat 4 name.length
    sertxt := textReg serial
    sertxtLen := BitVec.ofNat 4 serial.length }

theorem withContributions_nil (inp : Nat → Byte) : withContributions (beforeBlocks inp) [] = beforeBlocks inp := by
  have hfile {α : Type} (d : α) : (Vector.ofFn fun e : Fin 4 => ([] : List α).getD e.val d) = .replicate 4 d := by
    ext1 i hi; simp
  have htext : textReg [] = .replicate 13 0 := by ext1 i hi; simp [textReg]
  have hkept : keptText params [] = [] := rfl
  simp only [withContributions, beforeBlocks, timingsOf, rangesOf, namesOf, serialsOf, List.filterMap_nil, hfile, hkept, htext]
  rfl

/-- The two files together hold at most one entry for each block done. -/
theorem length_timings_add_ranges_le (cs : List Contribution) : (timingsOf cs).length + (rangesOf cs).length ≤ cs.length := by
  induction cs with
  | nil => exact le_refl 0
  | cons c cs ih =>
    cases c <;> simp only [timingsOf, rangesOf, List.filterMap_cons, List.length_cons] at ih ⊢ <;> omega

/-- An entry appended to a file: the one at the old count is new, and the others stay. -/
theorem ofFn_append {α : Type} (l : List α) (x d : α) :
    (Vector.ofFn fun j : Fin 4 => if j.val = l.length then x else (Vector.ofFn fun e : Fin 4 => l.getD e.val d)[j]) =
      Vector.ofFn fun e => (l ++ [x]).getD e.val d := by
  ext1 j hj
  simp only [Vector.getElem_ofFn, Fin.getElem_fin]
  obtain hlt | rfl | hgt := Nat.lt_trichotomy j l.length
  · rw [if_neg hlt.ne, List.getD_append _ _ _ _ hlt]
  · simp
  · rw [if_neg hgt.ne', List.getD_eq_default _ _ hgt.le, List.getD_eq_default _ _ (by simpa using hgt)]

theorem toNat_count {n : Nat} (h : n ≤ 4) : (BitVec.ofNat 3 n).toNat = n := by
  rw [BitVec.toNat_ofNat]
  omega

theorem count_succ (n : Nat) : BitVec.ofNat 3 n + 1 = BitVec.ofNat 3 (n + 1) := (BitVec.ofNat_add n 1).symm

theorem count_withContributions_le (r : Record) {cs : List Contribution} (h : cs.length ≤ 4) :
    (withContributions r cs).dtdCount.toNat + (withContributions r cs).rngCount.toNat ≤ cs.length := by
  have hbound := length_timings_add_ranges_le cs
  simp only [withContributions]
  rwa [toNat_count (by omega), toNat_count (by omega)]

/-- Under the policy `last` a slot keeps the newest text (R146). -/
theorem keptText_append (ts : List (List Byte)) (t : List Byte) : keptText params (ts ++ [t]) = t := by
  change (ts ++ [t]).getLast?.getD [] = t
  simp

section

variable (cs : List Contribution) (c : Contribution)

theorem timingsOf_append : timingsOf (cs ++ [c]) = timingsOf cs ++ (match c with | .timing e => [e] | _ => []) := by
  rw [timingsOf, List.filterMap_append]
  cases c <;> rfl

theorem rangesOf_append : rangesOf (cs ++ [c]) = rangesOf cs ++ (match c with | .range e => [e] | _ => []) := by
  rw [rangesOf, List.filterMap_append]
  cases c <;> rfl

theorem namesOf_append : namesOf (cs ++ [c]) = namesOf cs ++ (match c with | .name t => [t] | _ => []) := by
  rw [namesOf, List.filterMap_append]
  cases c <;> rfl

theorem serialsOf_append : serialsOf (cs ++ [c]) = serialsOf cs ++ (match c with | .serial t => [t] | _ => []) := by
  rw [serialsOf, List.filterMap_append]
  cases c <;> rfl

end

/-- Absorbing one more contribution adds it to those of the blocks done. -/
theorem absorb_withContributions (r : Record) {cs : List Contribution} (h : cs.length < 4) (c : Contribution) :
    absorb (withContributions r cs) c = withContributions r (cs ++ [c]) := by
  have hbound := length_timings_add_ranges_le cs
  have hdtd : (BitVec.ofNat 3 (timingsOf cs).length).toNat = (timingsOf cs).length := toNat_count (by omega)
  have hrng : (BitVec.ofNat 3 (rangesOf cs).length).toNat = (rangesOf cs).length := toNat_count (by omega)
  cases c <;>
    simp only [absorb, hdtd, hrng, withContributions, timingsOf_append, rangesOf_append, namesOf_append, serialsOf_append, List.append_nil,
      keptText_append, ofFn_append, List.length_append, List.length_singleton, count_succ]

/-! ### The descriptor blocks -/

/-- The contributions of the first `n` blocks of an input: with `n = 4` the model's `contributions`. -/
def firstContributions (inp : Nat → Byte) (n : Nat) : List Contribution :=
  (List.range n).map fun k => contribution params fun j => inp (54 + 18 * k + j)

theorem length_firstContributions (inp : Nat → Byte) (n : Nat) : (firstContributions inp n).length = n := by simp [firstContributions]

theorem firstContributions_succ (inp : Nat → Byte) (n : Nat) :
    firstContributions inp (n + 1) = firstContributions inp n ++ [contribution params fun j => inp (54 + 18 * n + j)] := by
  simp [firstContributions, List.range_succ]

/-- A block moves the cursor by 18 bytes (R125). -/
theorem cursor_next_desc (k : Fin 4) :
    BitVec.ofNat 8 (Place.row (.desc k)).cursor + 18 = BitVec.ofNat 8 (Row.desc k).next.cursor := by
  fin_cases k <;> rfl

section

variable {s : State} {p : Place} (h : StandsAt s p) (r : Record)
include h

/-- Block `k` adds its contribution to those of the blocks before it (R125, R126). -/
theorem reaches_block (k : Fin 4) :
    Reaches 3 (s.moved (.row (.desc k)) (withContributions r (firstContributions (byteAt s) k.val)))
      (s.moved (Row.desc k).next (withContributions r (firstContributions (byteAt s) (k.val + 1)))) := by
  have hlen := length_firstContributions (byteAt s) k.val
  obtain ⟨n, hn, hrun⟩ := eachBlockConsumes18Bytes _ k
    (standsAt_moved h (.row (.desc k)) (withContributions r (firstContributions (byteAt s) k.val)))
    ((count_withContributions_le r (by omega)).trans_eq hlen)
  refine ⟨n, by omega, hrun.trans ?_⟩
  rw [firstContributions_succ, ← absorb_withContributions r (by omega), ← next_desc, State.moved, State.moved, ← cursor_next_desc]
  rfl

/-- The four blocks of an input, in order (R126). -/
theorem reaches_blocks : Reaches 12 (s.moved (.row (.desc 0)) (withContributions r []))
    (s.moved (.row .extc) (withContributions r (contributions params (byteAt s)))) :=
  (((reaches_block h r 0).trans (reaches_block h r 1)).trans (reaches_block h r 2)).trans (reaches_block h r 3)

end

/-! ### The transaction -/

/-- LENCHK passes a long input on to CKSUM (R80). -/
theorem step_lenchk {s : State} (h : StandsAt s (.row .lenchk)) (hlong : 128 ≤ s.lenLatched) :
    step s = .next (s.moved (.row .cksum) s.record) := by
  refine step_endRow (i := .lenchk) h (fetch_of_standsAt h) (if_neg (Nat.not_lt.2 hlong)) ?_
  obtain ⟨-, -, -, -, hc, -⟩ := h
  exact BitVec.eq_of_toNat_eq hc

/-- EXTC completes the record. -/
theorem fill_extc (inp : Nat → Byte) :
    fillRow inp (withContributions (beforeBlocks inp) (contributions params inp)) .extc = recordOf params inp := by
  simp only [fillRow, withContributions, beforeBlocks, recordOf]

/-- A decode of a long input ends in `DONE` with the record of DECODE (R153), in at most 41 steps. -/
theorem reaches_done {s : State} (h : StandsAt s (.row .lenchk)) (hlong : 128 ≤ s.lenLatched) (hreset : s.record = .reset) :
    Reaches 41 s (s.moved .finish (recordOf params (byteAt s))).finishDecode := by
  have hlenchk : Reaches 1 s (s.moved (.row .cksum) .reset) := .of_step (by rw [step_lenchk h hlong, hreset])
  have hrows := reaches_rows h rowsBeforeBlocks .reset leads_rowsBeforeBlocks
  rw [fill_rowsBeforeBlocks] at hrows
  have hblocks := reaches_blocks h (beforeBlocks (byteAt s))
  rw [withContributions_nil] at hblocks
  have hextc : Reaches 1 (s.moved (.row .extc) (withContributions (beforeBlocks (byteAt s)) (contributions params (byteAt s))))
      (s.moved .finish (recordOf params (byteAt s))) := by
    rw [← fill_extc]
    exact .of_step (step_row (standsAt_moved h (.row .extc) _) nofun nofun)
  have hend : Reaches 1 (s.moved .finish (recordOf params (byteAt s))) (s.moved .finish (recordOf params (byteAt s))).finishDecode :=
    .of_step (endRowMakesTheRecordValid _ (standsAt_moved h .finish _)).1
  exact (((hlenchk.trans hrows).trans hblocks).trans hextc).trans hend

/-- A decode of a short input ends in `ERR` with its first step (R80, R163). -/
theorem reaches_err {s : State} (hc : s.ctrl = 0) (hh : s.host = []) (hb : s.status = .busy) (hs : s.seq = .row .lenchk)
    (hshort : s.lenLatched < 128) : Reaches 1 s (s.raiseInsufficientData params) := by
  have hf : fetch s = .ok .lenchk := by rw [fetch, hs]; rfl
  exact .of_step ((step_silent hc hh).trans ((blockStep_busy hb).trans ((runPlace_fetch hf).trans (if_pos hshort))))

/-- DECODE reads the first 128 bytes of the input alone (R49, R156). -/
theorem recordOf_eq_of_agree (p : Config.Params) {f g : Nat → Byte} (h : ∀ a < 128, f a = g a) : recordOf p f = recordOf p g := by
  have hsum : (recordOf p f).checksumOk = (recordOf p g).checksumOk := by
    simp only [recordOf, span_congr (a := 0) (n := 128) fun j hj => h (0 + j) (by omega)]
  rw [recordOf_congr (g := g) (fun a ha => h a (by omega)) p, ← hsum]

/-- Settles O57: after START the decode comes to rest within 41 steps, by `reaches_err` on a short input and by `reaches_done` on a long
one. -/
theorem decodeIsThePureFunction : Obligations.DecodeIsThePureFunction := by
  intro s hidle hctrl hh
  have hstart : step s = .next s.beginDecode := (stepTakesPendingStart s hctrl).trans (exec_start_of_idle hidle)
  rw [decodeInput, Memory.length_bytes, run_succ (M := core) hstart 41]
  by_cases hlen : s.len < 128
  · have hsnap : s.beginDecode.snap = s.input.bytes s.len := congrArg s.input.bytes (Nat.min_eq_left hlen.le)
    have herr : Reaches 41 s.beginDecode (s.beginDecode.raiseInsufficientData params) :=
      (reaches_err (s := s.beginDecode) rfl hh rfl rfl hlen).mono (by decide)
    rw [if_pos hlen, herr.run_resting nofun rfl hh, ← hsnap]
    rfl
  · have hlong : 128 ≤ s.len := Nat.not_lt.1 hlen
    have hsnap : s.beginDecode.snap = s.input.bytes 128 := congrArg s.input.bytes (Nat.min_eq_right hlong)
    have hat : StandsAt s.beginDecode (.row .lenchk) := ⟨rfl, hh, rfl, rfl, rfl, by rw [hsnap, Memory.length_bytes]⟩
    have hbytes : recordOf params (byteAt s.beginDecode) = recordOf params fun a => (s.input.bytes s.len).getD a 0 :=
      recordOf_eq_of_agree params fun a ha => by
        rw [byteAt, hsnap, Memory.getD_bytes _ ha, Memory.getD_bytes _ (by omega)]
    rw [if_neg hlen, (reaches_done hat hlong rfl).run_resting nofun rfl hh, hbytes, ← hsnap]
    rfl

end Sys2Proof.Machine

/-! The order of operations (R154). Two operations whose registers are apart run in either order: each leaves the registers of the other
alone, and what it makes of its own depends on them alone. The three operations on `EST_MASK` share a register and write different bits
of it. -/

namespace Sys2Proof.Machine

open Sys2Proof.Safety

/-! ### A record is what it reads as -/

theorem Reading.of_inj {w : Nat} {v u : BitVec w} (h : Reading.of v = Reading.of u) : v = u :=
  BitVec.eq_of_toNat_eq (Reading.mk.inj h).2

theorem vector_eq_of_reading {n w : Nat} {v u : Vector (BitVec w) n} (h : ∀ i : Fin n, Reading.of v[i] = Reading.of u[i]) : v = u :=
  Vector.ext fun i hi => Reading.of_inj (h ⟨i, hi⟩)

theorem StdEntry.eq_of_reading {e d : StdEntry} (h : ∀ f, e.reading f = d.reading f) : e = d := by
  cases e; cases d
  congr 1
  exacts [Reading.of_inj (h .w), Reading.of_inj (h .h), Reading.of_inj (h .aspect), Reading.of_inj (h .refresh)]

theorem DtdEntry.eq_of_reading {e d : DtdEntry} (h : ∀ f, e.reading f = d.reading f) : e = d := by
  cases e; cases d
  congr 1
  exacts [Reading.of_inj (h .pixclkKhz), Reading.of_inj (h .hactive), Reading.of_inj (h .hblank), Reading.of_inj (h .vactive),
    Reading.of_inj (h .vblank), Reading.of_inj (h .hsyncOff), Reading.of_inj (h .hsyncPw), Reading.of_inj (h .vsyncOff),
    Reading.of_inj (h .vsyncPw), Reading.of_inj (h .hsizeMm), Reading.of_inj (h .vsizeMm), Reading.of_inj (h .hborder),
    Reading.of_inj (h .vborder), Reading.of_inj (h .interlaced), Reading.of_inj (h .stereo), Reading.of_inj (h .syncType),
    Reading.of_inj (h .vsyncPol), Reading.of_inj (h .hsyncPol)]

theorem RngEntry.eq_of_reading {e d : RngEntry} (h : ∀ f, e.reading f = d.reading f) : e = d := by
  cases e; cases d
  congr 1
  exacts [Reading.of_inj (h .vminHz), Reading.of_inj (h .vmaxHz), Reading.of_inj (h .hminKhz), Reading.of_inj (h .hmaxKhz),
    Reading.of_inj (h .maxclkMhz)]

section

variable {r q : Record}

theorem dtd_eq_of_reading (h : ∀ e f, r.reading (.dtd e f) = q.reading (.dtd e f)) : r.dtd = q.dtd :=
  Vector.ext fun e he => DtdEntry.eq_of_reading (h ⟨e, he⟩)

theorem rng_eq_of_reading (h : ∀ e f, r.reading (.rng e f) = q.reading (.rng e f)) : r.rng = q.rng :=
  Vector.ext fun e he => RngEntry.eq_of_reading (h ⟨e, he⟩)

/-- The registers that the host reads are all there is to a record (R27). -/
theorem Record.eq_of_reading (h : ∀ g, r.reading g = q.reading g) : r = q := by
  have hdtd := dtd_eq_of_reading fun e f => h (.dtd e f)
  have hrng := rng_eq_of_reading fun e f => h (.rng e f)
  have hstd : r.std = q.std := Vector.ext fun k hk => StdEntry.eq_of_reading fun f => h (.std ⟨k, hk⟩ f)
  cases r; cases q
  simp only [Record.mk.injEq]
  exact ⟨vector_eq_of_reading fun i => h (.header i), vector_eq_of_reading fun i => h (.mfg i), Reading.of_inj (h .product),
    Reading.of_inj (h .serial), Reading.of_inj (h .week), Reading.of_inj (h .year), Reading.of_inj (h .version),
    Reading.of_inj (h .revision), Reading.of_inj (h .isDigital), Reading.of_inj (h .dfp), Reading.of_inj (h .compositeSync),
    Reading.of_inj (h .syncOnGreen), Reading.of_inj (h .hsizeCm), Reading.of_inj (h .vsizeCm), Reading.of_inj (h .gammaX100),
    Reading.of_inj (h .dpmsStandby), Reading.of_inj (h .dpmsSuspend), Reading.of_inj (h .dpmsActiveoff), Reading.of_inj (h .displayType),
    Reading.of_inj (h .redX), Reading.of_inj (h .redY), Reading.of_inj (h .greenX), Reading.of_inj (h .greenY), Reading.of_inj (h .blueX),
    Reading.of_inj (h .blueY), Reading.of_inj (h .whiteX), Reading.of_inj (h .whiteY), Reading.of_inj (h .estMask), hstd, hdtd,
    Reading.of_inj (h .dtdCount), hrng, Reading.of_inj (h .rngCount), vector_eq_of_reading fun j => h (.name j),
    Reading.of_inj (h .nameLen), vector_eq_of_reading fun j => h (.sertxt j), Reading.of_inj (h .sertxtLen),
    Reading.of_inj (h .extCount), Reading.of_inj (h .checksumOk)⟩

end

/-! ### Whose register -/

/-- The place whose operations write a register: `writes_owner` ties it to the "writes" column. Where several places do, one stands for
all of them (`home`). -/
def owner : RecReg → Place
  | .header _ => .row .hdr
  | .mfg _ => .row .mfgid
  | .product => .row .prod
  | .serial => .row .sernum
  | .week => .row .mweek
  | .year => .row .myear
  | .version => .row .ever
  | .revision => .row .erev
  | .isDigital | .dfp | .compositeSync | .syncOnGreen => .row .vidin
  | .hsizeCm => .row .hsize
  | .vsizeCm => .row .vsize
  | .gammaX100 => .row .gamma
  | .dpmsStandby | .dpmsSuspend | .dpmsActiveoff | .displayType => .row .feat
  | .redX | .redY | .greenX | .greenY | .blueX | .blueY | .whiteX | .whiteY => .row .chroma
  | .estMask => .row .est1
  | .std k _ => .row (.stdt k)
  | .dtdCount | .dtd _ _ | .rngCount | .rng _ _ | .name _ | .nameLen | .sertxt _ | .sertxtLen => .branch 0 .geo
  | .extCount => .row .extc
  | .checksumOk => .row .cksum

/-- The place that stands for a place in `owner`: the three rows of `EST_MASK` share it, and all descriptor branches share theirs. -/
def home : Place → Place
  | .row .est2 | .row .est3 => .row .est1
  | .branch _ _ => .branch 0 .geo
  | p => p

section

variable {i : Instr} {p : Place}

/-- An operation writes registers of its own place alone. -/
theorem writes_owner (hi : i.slot = .sched p) {r : Record} {g : RecReg} (hw : writes i r g = true) : owner g = home p := by
  cases i
  case start | reset => cases hi
  case stdt k w a f =>
    cases hi; cases g
    case std j fld => rw [show j = k by simpa [writes] using hw]; rfl
    all_goals cases hw
  case dtdGeo =>
    cases hi; cases g
    case dtd => rfl
    all_goals cases hw
  case dtdFlg =>
    cases hi; cases g
    case dtd | dtdCount => rfl
    all_goals cases hw
  case mrl =>
    cases hi; cases g
    case rng | rngCount => rfl
    all_goals cases hw
  -- elsewhere a register is written or not by its name alone
  all_goals cases hi; cases g <;> cases hw <;> rfl

/-- An operation leaves the registers of other places (R27). -/
theorem exec_keeps_others (hi : i.slot = .sched p) {s t : State} (h : exec i s = .next t) {g : RecReg} (hg : owner g ≠ home p) :
    t.record.reading g = s.record.reading g :=
  recordRegistersKeepTheirWriters i s t g h (Bool.eq_false_iff.2 fun hw => hg (writes_owner hi hw))

/-- A register that an operation does not write agrees after it if it did before. -/
theorem reading_of_unwritten {s t s' t' : State} (h : exec i s = .next t) (h' : exec i s' = .next t') {g : RecReg}
    (hw : writes i s.record g = false) (hw' : writes i s'.record g = false) (hg : s.record.reading g = s'.record.reading g) :
    t.record.reading g = t'.record.reading g :=
  (recordRegistersKeepTheirWriters i s t g h hw).trans (hg.trans (recordRegistersKeepTheirWriters i s' t' g h' hw').symm)

/-- What an operation makes of its place's registers depends on them alone, and so does whether it finds a free entry. -/
theorem exec_of_agree (hi : i.slot = .sched p) (hl : i ≠ .lenchk) {s t s' : State} (h : exec i s = .next t)
    (hagree : ∀ g, owner g = home p → s.record.reading g = s'.record.reading g) :
    ∃ t', exec i s' = .next t' ∧ ∀ g, owner g = home p → t.record.reading g = t'.record.reading g := by
  cases i
  case lenchk => exact absurd rfl hl
  case start | reset => cases hi
  case est1 | est2 | est3 =>
    cases hi; cases h
    have hmask : s.record.estMask = s'.record.estMask := Reading.of_inj (hagree .estMask rfl)
    refine ⟨_, rfl, fun g hg => ?_⟩
    cases g <;> cases hg
    simp only [State.endRow_record, Record.reading, hmask]
  case stdt k w a f =>
    cases hi; cases h
    refine ⟨_, rfl, fun g hg => ?_⟩
    cases g <;> cases hg
    simp [Record.reading]
  case dskip => cases hi; cases h; exact ⟨_, rfl, hagree⟩
  case mser =>
    cases hi
    refine ⟨_, rfl, fun g hg => ?_⟩
    cases g
    case sertxt | sertxtLen => cases h; rfl
    all_goals exact reading_of_unwritten h rfl rfl rfl (hagree _ hg)
  case mname =>
    cases hi
    refine ⟨_, rfl, fun g hg => ?_⟩
    cases g
    case name | nameLen => cases h; rfl
    all_goals exact reading_of_unwritten h rfl rfl rfl (hagree _ hg)
  case dtdGeo =>
    cases hi
    have hcount : s.record.dtdCount = s'.record.dtdCount := Reading.of_inj (hagree .dtdCount rfl)
    have hfile : s.record.dtd = s'.record.dtd := dtd_eq_of_reading fun e f => hagree (.dtd e f) rfl
    obtain ⟨e, he, ht⟩ := exec_dtdGeo_next h
    have hfree : s'.record.dtdCount.toNat < 4 := by rw [← hcount, ← he]; exact e.isLt
    refine ⟨_, exec_dtdGeo hfree, fun g hg => ?_⟩
    cases g
    case dtd => simp only [ht, Record.reading, Record.updateDtd, hfile, ← hcount, ← he]
    all_goals exact reading_of_unwritten h (exec_dtdGeo hfree) rfl rfl (hagree _ hg)
  case dtdFlg =>
    cases hi
    have hcount : s.record.dtdCount = s'.record.dtdCount := Reading.of_inj (hagree .dtdCount rfl)
    have hfile : s.record.dtd = s'.record.dtd := dtd_eq_of_reading fun e f => hagree (.dtd e f) rfl
    obtain ⟨e, he, ht⟩ := exec_dtdFlg_next h
    have hfree : s'.record.dtdCount.toNat < 4 := by rw [← hcount, ← he]; exact e.isLt
    refine ⟨_, exec_dtdFlg hfree, fun g hg => ?_⟩
    cases g
    case dtd => simp only [ht, State.endBlock_record, Record.reading, Record.updateDtd, hfile, ← hcount, ← he]
    case dtdCount => simp only [ht, State.endBlock_record, Record.reading, hcount]
    all_goals exact reading_of_unwritten h (exec_dtdFlg hfree) rfl rfl (hagree _ hg)
  case mrl =>
    cases hi
    have hcount : s.record.rngCount = s'.record.rngCount := Reading.of_inj (hagree .rngCount rfl)
    have hfile : s.record.rng = s'.record.rng := rng_eq_of_reading fun e f => hagree (.rng e f) rfl
    obtain ⟨e, he, ht⟩ := exec_mrl_next h
    have hfree : s'.record.rngCount.toNat < 4 := by rw [← hcount, ← he]; exact e.isLt
    refine ⟨_, exec_mrl hfree, fun g hg => ?_⟩
    cases g
    case rng => simp only [ht, State.endBlock_record, Record.reading, hfile, ← hcount, ← he]
    case rngCount => simp only [ht, State.endBlock_record, Record.reading, hcount]
    all_goals exact reading_of_unwritten h (exec_mrl hfree) rfl rfl (hagree _ hg)
  -- the others write all registers of their place, from their operands alone
  all_goals
    cases hi; cases h
    exact ⟨_, rfl, fun g hg => by cases g <;> cases hg <;> rfl⟩

end

/-! ### Either order -/

/-- Operations of places that share no register run in either order. -/
theorem exec_comm_of_home_ne {i j : Instr} {p q : Place} {s t u : State} (hi : i.slot = .sched p) (hj : j.slot = .sched q)
    (hli : i ≠ .lenchk) (hlj : j ≠ .lenchk) (hne : home p ≠ home q) (hst : exec i s = .next t) (htu : exec j t = .next u) :
    ∃ t' u', exec j s = .next t' ∧ exec i t' = .next u' ∧ u'.record = u.record := by
  obtain ⟨t', hst', hjown⟩ := exec_of_agree hj hlj (s' := s) htu fun g hg => exec_keeps_others hi hst (hg.trans_ne hne.symm)
  obtain ⟨u', htu', hiown⟩ := exec_of_agree hi hli (s' := t') hst fun g hg => (exec_keeps_others hj hst' (hg.trans_ne hne)).symm
  refine ⟨t', u', hst', htu', Record.eq_of_reading fun g => ?_⟩
  by_cases hgi : owner g = home p
  · calc u'.record.reading g
      _ = t.record.reading g := (hiown g hgi).symm
      _ = u.record.reading g := (exec_keeps_others hj htu (hgi.trans_ne hne)).symm
  by_cases hgj : owner g = home q
  · calc u'.record.reading g
      _ = t'.record.reading g := exec_keeps_others hi htu' hgi
      _ = u.record.reading g := (hjown g hgj).symm
  · calc u'.record.reading g
      _ = t'.record.reading g := exec_keeps_others hi htu' hgi
      _ = s.record.reading g := exec_keeps_others hj hst' hgj
      _ = t.record.reading g := (exec_keeps_others hi hst hgi).symm
      _ = u.record.reading g := (exec_keeps_others hj htu hgj).symm

/-- The row whose operation writes bit `b` of `EST_MASK` (R115 to R117). -/
def maskRow (b : Nat) : Place := if b < 8 then .row .est1 else if b < 16 then .row .est2 else .row .est3

theorem maskRow_eq_est1_iff (b : Nat) : maskRow b = .row .est1 ↔ b < 8 := by
  unfold maskRow
  split_ifs <;> simp <;> omega

theorem maskRow_eq_est2_iff (b : Nat) : maskRow b = .row .est2 ↔ 8 ≤ b ∧ b < 16 := by
  unfold maskRow
  split_ifs <;> simp <;> omega

theorem maskRow_eq_est3_iff {b : Nat} (hb : b < 17) : maskRow b = .row .est3 ↔ b = 16 := by
  unfold maskRow
  split_ifs <;> simp <;> omega

/-- An operation on `EST_MASK` writes the bits of its row, from its operands alone, and nothing else. -/
theorem exec_mask {i : Instr} {p : Place} (hi : i.slot = .sched p) (hp : home p = .row .est1) :
    ∃ (F : BitVec 17 → BitVec 17) (f : Nat → Bool),
    (∀ s, ∃ t, exec i s = .next t ∧ t.record = { s.record with estMask := F s.record.estMask }) ∧
    ∀ m b, b < 17 → (F m).getLsbD b = if maskRow b = p then f b else m.getLsbD b := by
  cases i
  case est1 v =>
    cases hi
    refine ⟨(estFirst · v), fun b => v.getLsbD (7 - b), fun s => ⟨_, rfl, rfl⟩, fun m b hb => ?_⟩
    exact (estFirst_getLsbD m v b).trans (if_congr (maskRow_eq_est1_iff b).symm rfl rfl)
  case est2 v =>
    cases hi
    refine ⟨(estSecond · v), fun b => v.getLsbD (15 - b), fun s => ⟨_, rfl, rfl⟩, fun m b hb => ?_⟩
    exact (estSecond_getLsbD m v b).trans (if_congr (maskRow_eq_est2_iff b).symm rfl rfl)
  case est3 v x =>
    cases hi
    refine ⟨(estThird · v), fun _ => v.getLsbD 0, fun s => ⟨_, rfl, rfl⟩, fun m b hb => ?_⟩
    exact (estThird_getLsbD m v b).trans (if_congr (maskRow_eq_est3_iff hb).symm rfl rfl)
  case start | reset => cases hi
  all_goals cases hi; cases hp

/-- Two operations on `EST_MASK` run in either order: no bit is written by both. -/
theorem exec_comm_of_mask {i j : Instr} {p q : Place} {s t u : State} (hi : i.slot = .sched p) (hj : j.slot = .sched q)
    (hp : home p = .row .est1) (hq : home q = .row .est1) (hne : p ≠ q) (hst : exec i s = .next t) (htu : exec j t = .next u) :
    ∃ t' u', exec j s = .next t' ∧ exec i t' = .next u' ∧ u'.record = u.record := by
  obtain ⟨F, f, hF, hFbits⟩ := exec_mask hi hp
  obtain ⟨G, g, hG, hGbits⟩ := exec_mask hj hq
  have hcomm (m : BitVec 17) : F (G m) = G (F m) := BitVec.eq_of_getLsbD_eq fun b hb => by
    rw [hFbits _ _ hb, hGbits _ _ hb, hGbits _ _ hb, hFbits _ _ hb]
    by_cases hbp : maskRow b = p
    · rw [if_pos hbp, if_neg (hbp.trans_ne hne), if_pos hbp]
    · rw [if_neg hbp, if_neg hbp]
  obtain ⟨t', hst', ht'⟩ := hG s
  obtain ⟨u', htu', hu'⟩ := hF t'
  refine ⟨t', u', hst', htu', ?_⟩
  obtain ⟨_, h1, ht⟩ := hF s
  cases hst.symm.trans h1
  obtain ⟨_, h2, hu⟩ := hG t
  cases htu.symm.trans h2
  rw [hu', hu, ht', ht, hcomm]

theorem home_cases (p : Place) : (∃ k b, p = .branch k b) ∨ home p = .row .est1 ∨ home p = p := by
  unfold home
  split <;> simp

/-- Two places that share registers are both descriptor branches, or both rows of `EST_MASK`. -/
theorem home_eq_cases {p q : Place} (hne : p ≠ q) (h : home p = home q) :
    ((∃ k b, p = .branch k b) ∧ ∃ k b, q = .branch k b) ∨ (home p = .row .est1 ∧ home q = .row .est1) := by
  by_cases hm : home p = .row .est1
  · exact .inr ⟨hm, h.symm.trans hm⟩
  obtain ⟨k, b, rfl⟩ | hp := (home_cases p).imp_right (·.resolve_left hm)
  all_goals obtain ⟨k', b', rfl⟩ | hq := (home_cases q).imp_right (·.resolve_left (h ▸ hm))
  · exact .inl ⟨⟨k, b, rfl⟩, k', b', rfl⟩
  · exact .inl ⟨⟨k, b, rfl⟩, 0, .geo, (h.trans hq).symm⟩
  · exact .inl ⟨⟨0, .geo, hp.symm.trans h⟩, k', b', rfl⟩
  · exact absurd (hp.symm.trans (h.trans hq)) hne

theorem slot_of_scheduled {i : Instr} (hi : scheduled i = true) : ∃ p, i.slot = .sched p := by
  unfold scheduled at hi
  split at hi
  · next p hp => exact ⟨p, hp⟩
  · cases hi

/-- Settles O51: the places of the two operations share no register, or both are rows of `EST_MASK`. -/
theorem orderOfOperationsDoesNotMatter : Obligations.OrderOfOperationsDoesNotMatter := by
  intro i j s t u hi hj hli hlj hslots hbranches hst htu
  obtain ⟨p, hp⟩ := slot_of_scheduled hi
  obtain ⟨q, hq⟩ := slot_of_scheduled hj
  rw [hp, hq] at hslots hbranches
  simp only [Slot.sched.injEq] at hbranches
  have hne : p ≠ q := fun h => hslots (congrArg Slot.sched h)
  by_cases hhome : home p = home q
  · obtain ⟨hpm, hqm⟩ := (home_eq_cases hne hhome).resolve_left hbranches
    exact exec_comm_of_mask hp hq hpm hqm hne hst htu
  · exact exec_comm_of_home_ne hp hq hli hlj hhome hst htu

end Sys2Proof.Machine

/-! RESET, START while `BUSY`, and the idle block (R172, R180, R181, R188). -/

namespace Sys2Proof.Machine

/-- START is refused while a decode runs (R188). -/
theorem exec_start_of_busy {s : State} (hb : s.status = .busy) : exec .start s = .refused .startWhileBusy := if_pos hb

/-- Settles O1: the next state is `resetRegisters`, whose record is the reset record of `reading_reset`. -/
theorem resetPutsEveryRegisterToItsResetValue : Obligations.ResetPutsEveryRegisterToItsResetValue := fun s =>
  ⟨s.resetRegisters, rfl, rfl, rfl, rfl, rfl, rfl, rfl, reading_reset, rfl, fun _ => rfl, rfl, rfl, rfl, rfl⟩

/-- Settles O2: a pending `CTRL` write other than START alone is RESET, and the reset input is the host's event. -/
theorem resetCausesAndPriority : Obligations.ResetCausesAndPriority := by
  refine fun s => ⟨fun hbits => ?_, fun es hc hh => step_event hc hh⟩
  have hreset : s.ctrl ≠ 0 ∧ s.ctrl ≠ 1 := by obtain h | h := hbits <;> rw [h] <;> decide
  exact (step_ctrl hreset.1).trans (if_neg hreset.2)

/-- Settles O5: a pending START is taken by the step, and START is refused. -/
theorem startWhileBusyIsRefused : Obligations.StartWhileBusyIsRefused := fun s hb =>
  ⟨exec_start_of_busy hb, fun hc => (stepTakesPendingStart s hc).trans (exec_start_of_busy hb)⟩

/-- Settles O11: the step is the block's, which idles. -/
theorem idleBlockKeepsItsRegisters : Obligations.IdleBlockKeepsItsRegisters := fun s hidle hc =>
  ⟨fun hh => (step_silent hc hh).trans (blockStep_idle hidle),
    fun es hh => (step_event hc hh).trans (blockStep_idle (s := { s with host := es }) hidle)⟩

end Sys2Proof.Machine

/-! What the host meets while a decode runs (R29, R186, R187), and when a step is refused (R27, R186, R188). -/

namespace Sys2Proof.Machine

open Sys2Proof.Safety

/-! ### Reads -/

/-- A record register reads as a free value of its width while a decode runs (U9). -/
theorem hostReading_record_busy {s : State} (hb : s.status = .busy) (g : RecReg) :
    hostReading s (.record g) =
      { s.record.reading g with value := Config.freeRead s.draws % 2 ^ (s.record.reading g).width } := if_pos hb

/-- Such a read draws a free value. -/
theorem readsFree_record_busy {s : State} (hb : s.status = .busy) (g : RecReg) : readsFree s (.record g) = true := decide_eq_true hb

/-- Settles O10: the read leaves the value it returns and the draw, and nothing else. -/
theorem busyReadIsAFreeValueOfItsWidth : Obligations.BusyReadIsAFreeValueOfItsWidth := by
  intro s g es hc hb hh
  refine ⟨hostReading s (.record g), ?_⟩
  rw [hostReading_record_busy hb]
  refine ⟨rfl, rfl, Nat.mod_lt _ (Nat.two_pow_pos _), ?_⟩
  rw [step_event hc hh]
  change Host.Outcome.next (hostRead (.record g) { s with host := es }) = _
  rw [hostRead, readsFree_record_busy (s := { s with host := es }) hb, hostReading_record_busy (s := { s with host := es }) hb]
  rfl

/-! ### Writes -/

/-- A write of `IN` is refused exactly when it changes one of the bytes 0 to 127 while a decode runs (R186). -/
theorem hostWriteIn_refused_iff {a : Nat} {b : Byte} {s : State} {r : Refusal} :
    hostWriteIn a b s = .refused r ↔ r = .inputChangedWhileBusy ∧ s.status = .busy ∧ a < 128 ∧ s.input.read a ≠ b := by
  unfold hostWriteIn
  split
  · next h => simp [h, eq_comm]
  · next h => simp [h]

/-- A register write is refused exactly when it changes `LEN` while a decode runs (R186), or when its register is neither `CTRL` nor `LEN`
(R27). -/
theorem hostWrite_refused_iff {q : HostReg} {v : Nat} {s : State} {r : Refusal} :
    hostWrite q v s = .refused r ↔
      (r = .inputChangedWhileBusy ∧ q = .len ∧ s.status = .busy ∧ s.len ≠ v) ∨ (r = .readOnlyRegister ∧ q ≠ .ctrl ∧ q ≠ .len) := by
  cases q
  case ctrl => simp [hostWrite]
  case len =>
    simp only [hostWrite]
    split
    · next h => simp [h, eq_comm]
    · next h => simp [h]
  all_goals simp [hostWrite, eq_comm]

/-- Settles O7: the step is the host's write, which is refused under the condition of R186 and otherwise done. -/
theorem inputIsStableWhileBusy : Obligations.InputIsStableWhileBusy := by
  intro s es hc hb
  refine ⟨fun a b hh => ?_, fun v hh => ?_⟩ <;> rw [step_event hc hh]
  · refine ⟨fun hchange => hostWriteIn_refused_iff.2 ⟨rfl, hb, hchange⟩, fun hsame => if_neg fun ⟨_, ha, hne⟩ => ?_⟩
    exact hsame.elim (Nat.not_le.2 ha) hne
  · change (_ → hostWrite .len v { s with host := es } = _) ∧ _
    refine ⟨fun hchange => hostWrite_refused_iff.2 (.inl ⟨rfl, rfl, hb, hchange⟩), fun hsame => ?_⟩
    subst hsame
    exact if_neg fun ⟨_, hne⟩ => hne rfl

/-! ### Refusals -/

/-- START is refused exactly while a decode runs (R188). -/
theorem execStart_refused_iff {s : State} {r : Refusal} : execStart s = .refused r ↔ r = .startWhileBusy ∧ s.status = .busy := by
  unfold execStart
  split
  · next hb => simp [hb, eq_comm]
  · next hb => simp [hb]

/-- A pending `CTRL` write is refused exactly when it is START while a decode runs (R188). -/
theorem takeCtrl_refused_iff {s : State} (hc : s.ctrl ≠ 0) {r : Refusal} :
    takeCtrl s = .refused r ↔ r = .startWhileBusy ∧ s.ctrl = 1 ∧ s.status = .busy := by
  rw [takeCtrl_eq hc]
  by_cases hstart : s.ctrl = 1
  · rw [if_pos hstart, execStart_refused_iff, and_iff_right hstart]
  · rw [if_neg hstart]
    exact iff_of_false nofun fun ⟨_, h, _⟩ => hstart h

/-- The block alone is never refused. -/
theorem blockStep_ne_refused (s : State) (r : Refusal) : blockStep s ≠ .refused r := by
  by_cases hb : s.status = .busy
  · rw [blockStep_busy hb]; exact runPlace_ne_refused s r
  · rw [blockStep_idle hb]; exact nofun

/-- With a pending `CTRL` write the one violation is START while a decode runs. -/
theorem hostViolation_ctrl {s : State} (hc : s.ctrl ≠ 0) {r : Refusal} :
    HostViolation s r ↔ r = .startWhileBusy ∧ s.ctrl = 1 ∧ s.status = .busy := by
  cases r
  case startWhileBusy => exact (and_iff_right rfl).symm
  case notModelled => exact iff_of_false id nofun
  all_goals exact iff_of_false (fun ⟨h, _⟩ => hc h) nofun

/-- A silent host breaks nothing. -/
theorem not_hostViolation_silent {s : State} (hc : s.ctrl = 0) (hh : s.host = []) (r : Refusal) : ¬ HostViolation s r := by
  cases r <;> simp [HostViolation, hc, hh]

/-- The violations of the host's next event. -/
theorem hostViolation_event {s : State} {e : HostEvent} {es : List HostEvent} (hc : s.ctrl = 0) (hh : s.host = e :: es) {r : Refusal} :
    HostViolation s r ↔
      (r = .inputChangedWhileBusy ∧ s.status = .busy ∧
        ((∃ a b, e = .writeIn a b ∧ a < 128 ∧ s.input.read a ≠ b) ∨ ∃ v, e = .write .len v ∧ s.len ≠ v)) ∨
      (r = .readOnlyRegister ∧ ∃ q v, e = .write q v ∧ q ≠ .ctrl ∧ q ≠ .len) := by
  cases r <;> simp [HostViolation, hc, hh]

/-- Settles O55, by the three shapes of a step: a `CTRL` write can break R188, the block alone nothing, and of the host's events a write
of `IN` can break R186 and a register write R186 or R27. -/
theorem refusalsAreHostViolations : Obligations.RefusalsAreHostViolations := by
  intro s r
  obtain ⟨hc, hstep⟩ | ⟨hc, hh, hstep⟩ | ⟨hc, e, es, hh, hstep⟩ := step_cases s <;> rw [hstep]
  · rw [takeCtrl_refused_iff hc, hostViolation_ctrl hc]
  · exact iff_of_false (blockStep_ne_refused s r) (not_hostViolation_silent hc hh r)
  · rw [hostViolation_event hc hh]
    cases e with
    | wait => simp [hostStep, blockStep_ne_refused]
    | writeIn a b => simp [hostStep, hostWriteIn_refused_iff]
    | write q v => simp [hostStep, hostWrite_refused_iff, and_left_comm]
    | read q => simp [hostStep]
    | assertReset => simp [hostStep, exec, execReset]

end Sys2Proof.Machine

/-! Two decodes of one input (R156, R183). -/

namespace Sys2Proof.Machine

/-- DECODE reads the length up to 128 and the bytes below it, and nothing else of its input (R49, R156). -/
theorem decodeInput_bytes_congr (p : Config.Params) {m m' : Memory} {n n' : Nat} (hlen : min n 128 = min n' 128)
    (hbytes : ∀ a < min n 128, m.read a = m'.read a) : decodeInput p (m.bytes n) = decodeInput p (m'.bytes n') := by
  simp only [decodeInput, Memory.length_bytes]
  by_cases hshort : n < 128
  · rw [if_pos hshort, if_pos (by omega)]
  · rw [if_neg hshort, if_neg (by omega)]
    refine congrArg Except.ok (recordOf_eq_of_agree p fun a ha => ?_)
    rw [Memory.getD_bytes m (by omega), Memory.getD_bytes m' (by omega), hbytes a (by omega)]

/-- Settles O58: by `decodeIsThePureFunction` both runs end with what DECODE makes of their inputs, and DECODE makes the same of both. -/
theorem outcomeDependsOnTheInputAlone : Obligations.OutcomeDependsOnTheInputAlone := by
  intro s s' hidle hidle' hc hc' hh hh' hlen hbytes
  refine ⟨_, _, decodeIsThePureFunction s hidle hc hh, decodeIsThePureFunction s' hidle' hc' hh', ?_⟩
  rw [decodeInput_bytes_congr params hlen hbytes]
  cases decodeInput params (s'.input.bytes s'.len) <;> exact ⟨rfl, rfl, rfl, rfl, rfl⟩

end Sys2Proof.Machine
